-- ==== Sys2Proof/Word.lean ====
section
/-!
DEFINITION. The word types of the block: bytes, the 32-bit operand and answer, and the 64-bit command word
(spec 00_scope R11, 30_encoding R110). Every value of the spec is unsigned (R11).
-/
namespace Sys2Proof

/-- A byte of a store, a colour channel or a brightness (u8 of R11). -/
abbrev Byte := BitVec 8

/-- A pixel index as a command carries it: the field IDX of R110. -/
abbrev Idx := BitVec 16

/-- The 32-bit operand D32 of R110, the answer `rsp_data` of R113, an external address of R84. -/
abbrev Word32 := BitVec 32

/-- A command word (R110). -/
abbrev Word64 := BitVec 64

end Sys2Proof
end

