-- ==== Sys2Proof/Syntax.lean ====
section
/-!
DEFINITION. The PXC command set (spec 30_encoding R114): one constructor per row of opcode_table.json, its operands
the fields of R115.
-/
namespace Sys2Proof

/-- A command (R114). Every operand is an unsigned field of its own width (R111), so each value of a field is an
operand. The fields the block ignores in some forms (`pb` of SETGRB when `p` is 0, bits 31:24 of SETGRBP's word,
R131) are kept as the word carries them. -/
inductive Instr
  /-- NOP (R330). -/
  | nop
  /-- BEGIN (R331). -/
  | beginCmd
  /-- SETGRB (R185): index, the flag P, the brightness B8, green, red, blue. -/
  | setgrb (i : Idx) (p : Bool) (pb : Byte) (g r b : Byte)
  /-- SETGRBP (R186): index, packed GRB word (R184). -/
  | setgrbp (i : Idx) (w : Word32)
  /-- SETHSV (R190): index, hue, saturation, value. -/
  | sethsv (i : Idx) (hue : BitVec 16) (sat val : Byte)
  /-- SETHSVP (R191): index, packed HSV word (R192). -/
  | sethsvp (i : Idx) (w : Word32)
  /-- SETPB (R200): index, per-pixel brightness. -/
  | setpb (i : Idx) (v : Byte)
  /-- GETPB (R201): index. -/
  | getpb (i : Idx)
  /-- CLRALL (R205). -/
  | clrall
  /-- CLRONE (R206): index. -/
  | clrone (i : Idx)
  /-- SETGB (R210): global brightness. -/
  | setgb (v : Byte)
  /-- GETCNT (R332). -/
  | getcnt
  /-- RDBUF (R220): byte offset in SCALED. -/
  | rdbuf (a : Word32)
  /-- REFRESH (R240). -/
  | refresh
  /-- GETSTAT (R334). -/
  | getstat
  deriving DecidableEq, Repr

end Sys2Proof
end

