-- ==== Sys2Proof/WellFormed.lean ====
section
/-!
DEFINITION. Well-formedness. An `Instr` cannot hold an operand beyond its field, so every `Instr` is well-formed; the
check the spec gives is on assembly lines, whose operands are plain numbers that must fit (spec 30_encoding R140).
The assembly lines are the 15 commands and the pseudo-instructions of R141.
-/
namespace Sys2Proof

/-- One line of the spec's assembly syntax (R140, R141), its operands in the order the syntax gives them. -/
inductive AsmLine
  | nop
  | beginCmd
  /-- `SETGRB i, g, r, b` and, with a brightness, `SETGRB i, g, r, b, pb`. -/
  | setgrb (i g r b : Nat) (pb : Option Nat)
  | setgrbp (i w : Nat)
  | sethsv (i hue sat val : Nat)
  | sethsvp (i w : Nat)
  | setpb (i v : Nat)
  | getpb (i : Nat)
  | clrall
  | clrone (i : Nat)
  | setgb (v : Nat)
  | getcnt
  | rdbuf (a : Nat)
  | refresh
  | getstat
  /-- Pseudo-instruction (R141): SETGB. -/
  | setbrightness (v : Nat)
  /-- Pseudo-instruction (R141): SETGRB with its arguments in the order R, G, B. -/
  | setrgb (i r g b : Nat)
  /-- Pseudo-instruction (R141): CLRALL. -/
  | clear
  /-- Pseudo-instruction (R141): REFRESH. -/
  | showCmd
  /-- Pseudo-instruction (R141): CLRALL then REFRESH. -/
  | blank
  /-- Pseudo-instruction (R141): no command, the host waits for `cmd_ready`. -/
  | waitidle
  deriving DecidableEq, Repr

/-- The operand fits a field of `bits` bits (R140). -/
def fits (bits v : Nat) : Bool := decide (v < 2 ^ bits)

/-- No operand is beyond its field: `i` and `hue` 16 bits, `a` and `w` 32 bits, every other operand 8 bits (R140). -/
def AsmLine.wf : AsmLine → Bool
  | .nop => true
  | .beginCmd => true
  | .setgrb i g r b pb => fits 16 i && fits 8 g && fits 8 r && fits 8 b && pb.all (fits 8)
  | .setgrbp i w => fits 16 i && fits 32 w
  | .sethsv i hue sat val => fits 16 i && fits 16 hue && fits 8 sat && fits 8 val
  | .sethsvp i w => fits 16 i && fits 32 w
  | .setpb i v => fits 16 i && fits 8 v
  | .getpb i => fits 16 i
  | .clrall => true
  | .clrone i => fits 16 i
  | .setgb v => fits 8 v
  | .getcnt => true
  | .rdbuf a => fits 32 a
  | .refresh => true
  | .getstat => true
  | .setbrightness v => fits 8 v
  | .setrgb i r g b => fits 16 i && fits 8 r && fits 8 g && fits 8 b
  | .clear => true
  | .showCmd => true
  | .blank => true
  | .waitidle => true

end Sys2Proof
end

