-- ==== Sys2Proof/Decode.lean ====
section
/-!
DEFINITION. The decoder of command words (spec 30_encoding R110, R114, R115, R130 to R132), total on every 64-bit
word and naming the reason a word is reserved; then the encoder from the same layout, the table's masks and matches,
the assembler of R140 and R141, and the host's `decodeTableWord`.
-/
namespace Sys2Proof

/-! ### Fields (R110) -/

/-- OP, bits 63:60. -/
def fieldOp (w : Word64) : BitVec 4 := w.extractLsb' 60 4
/-- P, bit 59. -/
def fieldP (w : Word64) : BitVec 1 := w.extractLsb' 59 1
/-- Z, bits 58:56. -/
def fieldZ (w : Word64) : BitVec 3 := w.extractLsb' 56 3
/-- IDX, bits 55:40. -/
def fieldIdx (w : Word64) : Idx := w.extractLsb' 40 16
/-- B8, bits 39:32. -/
def fieldB8 (w : Word64) : Byte := w.extractLsb' 32 8
/-- D32, bits 31:0. -/
def fieldD32 (w : Word64) : Word32 := w.extractLsb' 0 32

/-- The command word with these fields (R110). -/
def packWord (op : BitVec 4) (p : BitVec 1) (z : BitVec 3) (idx : Idx) (b8 : Byte) (d32 : Word32) : Word64 :=
  op ++ p ++ z ++ idx ++ b8 ++ d32

/-! ### Decoding -/

/-- Why a word is reserved (R130). -/
inductive Reserved
  /-- `OP = 0xF`. -/
  | opcodeF
  /-- A bit that the named command's row of R114 marks "0" is 1. -/
  | mustBeZero (mnemonic : String)
  deriving DecidableEq, Repr

/-- The command, if the fields its row of R114 marks "0" are zero. -/
def unlessReserved (mnemonic : String) (zeros : Bool) (i : Instr) : Except Reserved Instr :=
  if zeros then .ok i else .error (.mustBeZero mnemonic)

/-- Decoding (R114, R130): by OP, each row checking its own "0" fields. -/
def decode (w : Word64) : Except Reserved Instr :=
  let p := fieldP w
  let z := fieldZ w
  let idx := fieldIdx w
  let b8 := fieldB8 w
  let d := fieldD32 w
  match (fieldOp w).toNat with
  | 0x0 => unlessReserved "NOP" (p == 0 && z == 0 && idx == 0 && b8 == 0 && d == 0) .nop
  | 0x1 => unlessReserved "BEGIN" (p == 0 && z == 0 && idx == 0 && b8 == 0 && d == 0) .beginCmd
  | 0x2 => unlessReserved "SETGRB" (z == 0 && d.extractLsb' 24 8 == 0)
      (.setgrb idx (p == 1) b8 (d.extractLsb' 16 8) (d.extractLsb' 8 8) (d.extractLsb' 0 8))
  | 0x3 => unlessReserved "SETGRBP" (p == 0 && z == 0 && b8 == 0) (.setgrbp idx d)
  | 0x4 => unlessReserved "SETHSV" (p == 0 && z == 0 && b8 == 0)
      (.sethsv idx (d.extractLsb' 16 16) (d.extractLsb' 8 8) (d.extractLsb' 0 8))
  | 0x5 => unlessReserved "SETHSVP" (p == 0 && z == 0 && b8 == 0) (.sethsvp idx d)
  | 0x6 => unlessReserved "SETPB" (p == 0 && z == 0 && d == 0) (.setpb idx b8)
  | 0x7 => unlessReserved "GETPB" (p == 0 && z == 0 && b8 == 0 && d == 0) (.getpb idx)
  | 0x8 => unlessReserved "CLRALL" (p == 0 && z == 0 && idx == 0 && b8 == 0 && d == 0) .clrall
  | 0x9 => unlessReserved "CLRONE" (p == 0 && z == 0 && b8 == 0 && d == 0) (.clrone idx)
  | 0xA => unlessReserved "SETGB" (p == 0 && z == 0 && idx == 0 && d == 0) (.setgb b8)
  | 0xB => unlessReserved "GETCNT" (p == 0 && z == 0 && idx == 0 && b8 == 0 && d == 0) .getcnt
  | 0xC => unlessReserved "RDBUF" (p == 0 && z == 0 && idx == 0 && b8 == 0) (.rdbuf d)
  | 0xD => unlessReserved "REFRESH" (p == 0 && z == 0 && idx == 0 && b8 == 0 && d == 0) .refresh
  | 0xE => unlessReserved "GETSTAT" (p == 0 && z == 0 && idx == 0 && b8 == 0 && d == 0) .getstat
  | _ => .error .opcodeF

/-! ### Encoding -/

/-- The word of a command (R115). -/
def encode : Instr → Word64
  | .nop => packWord 0x0 0 0 0 0 0
  | .beginCmd => packWord 0x1 0 0 0 0 0
  | .setgrb i p pb g r b => packWord 0x2 (BitVec.ofBool p) 0 i pb (0#8 ++ g ++ r ++ b)
  | .setgrbp i w => packWord 0x3 0 0 i 0 w
  | .sethsv i hue sat val => packWord 0x4 0 0 i 0 (hue ++ sat ++ val)
  | .sethsvp i w => packWord 0x5 0 0 i 0 w
  | .setpb i v => packWord 0x6 0 0 i v 0
  | .getpb i => packWord 0x7 0 0 i 0 0
  | .clrall => packWord 0x8 0 0 0 0 0
  | .clrone i => packWord 0x9 0 0 i 0 0
  | .setgb v => packWord 0xA 0 0 0 v 0
  | .getcnt => packWord 0xB 0 0 0 0 0
  | .rdbuf a => packWord 0xC 0 0 0 0 a
  | .refresh => packWord 0xD 0 0 0 0 0
  | .getstat => packWord 0xE 0 0 0 0 0

/-! ### The table (R115, opcode_table.json) -/

/-- `(mask, match)` of the fifteen rows, in the table's order. -/
def opcodeRows : List (Word64 × Word64) :=
  [(0xFFFFFFFFFFFFFFFF, 0x0000000000000000), (0xFFFFFFFFFFFFFFFF, 0x1000000000000000),
   (0xF7000000FF000000, 0x2000000000000000), (0xFF0000FF00000000, 0x3000000000000000),
   (0xFF0000FF00000000, 0x4000000000000000), (0xFF0000FF00000000, 0x5000000000000000),
   (0xFF000000FFFFFFFF, 0x6000000000000000), (0xFF0000FFFFFFFFFF, 0x7000000000000000),
   (0xFFFFFFFFFFFFFFFF, 0x8000000000000000), (0xFF0000FFFFFFFFFF, 0x9000000000000000),
   (0xFFFFFF00FFFFFFFF, 0xA000000000000000), (0xFFFFFFFFFFFFFFFF, 0xB000000000000000),
   (0xFFFFFFFF00000000, 0xC000000000000000), (0xFFFFFFFFFFFFFFFF, 0xD000000000000000),
   (0xFFFFFFFFFFFFFFFF, 0xE000000000000000)]

/-- The word has the row's fixed bits (R115). -/
def rowMatches (w : Word64) (row : Word64 × Word64) : Bool := w &&& row.1 == row.2

/-- The row of opcode_table.json a command belongs to, counted from 0: its opcode. -/
def rowOf : Instr → Nat
  | .nop => 0x0
  | .beginCmd => 0x1
  | .setgrb .. => 0x2
  | .setgrbp .. => 0x3
  | .sethsv .. => 0x4
  | .sethsvp .. => 0x5
  | .setpb .. => 0x6
  | .getpb .. => 0x7
  | .clrall => 0x8
  | .clrone .. => 0x9
  | .setgb .. => 0xA
  | .getcnt => 0xB
  | .rdbuf .. => 0xC
  | .refresh => 0xD
  | .getstat => 0xE

/-! ### Assembly (R140, R141) -/

/-- The commands a well-formed line stands for: one for a command, one or two for a pseudo-instruction, none for
WAITIDLE. A form without a brightness has P = 0 and B8 = 0 (R140 gives B8 no value there; it is ignored, R131; log 23). -/
def AsmLine.expand : AsmLine → List Instr
  | .nop => [.nop]
  | .beginCmd => [.beginCmd]
  | .setgrb i g r b pb => [.setgrb (BitVec.ofNat 16 i) pb.isSome (BitVec.ofNat 8 (pb.getD 0))
      (BitVec.ofNat 8 g) (BitVec.ofNat 8 r) (BitVec.ofNat 8 b)]
  | .setgrbp i w => [.setgrbp (BitVec.ofNat 16 i) (BitVec.ofNat 32 w)]
  | .sethsv i hue sat val =>
      [.sethsv (BitVec.ofNat 16 i) (BitVec.ofNat 16 hue) (BitVec.ofNat 8 sat) (BitVec.ofNat 8 val)]
  | .sethsvp i w => [.sethsvp (BitVec.ofNat 16 i) (BitVec.ofNat 32 w)]
  | .setpb i v => [.setpb (BitVec.ofNat 16 i) (BitVec.ofNat 8 v)]
  | .getpb i => [.getpb (BitVec.ofNat 16 i)]
  | .clrall => [.clrall]
  | .clrone i => [.clrone (BitVec.ofNat 16 i)]
  | .setgb v => [.setgb (BitVec.ofNat 8 v)]
  | .getcnt => [.getcnt]
  | .rdbuf a => [.rdbuf (BitVec.ofNat 32 a)]
  | .refresh => [.refresh]
  | .getstat => [.getstat]
  | .setbrightness v => [.setgb (BitVec.ofNat 8 v)]
  | .setrgb i r g b =>
      [.setgrb (BitVec.ofNat 16 i) false 0 (BitVec.ofNat 8 g) (BitVec.ofNat 8 r) (BitVec.ofNat 8 b)]
  | .clear => [.clrall]
  | .showCmd => [.refresh]
  | .blank => [.clrall, .refresh]
  | .waitidle => []

/-- The words of a line, or none for an operand beyond its field: an assembly error (R140). -/
def AsmLine.assemble (l : AsmLine) : Option (List Word64) :=
  if l.wf then some (l.expand.map encode) else none

/-! ### The host's reader -/

/-- The command the decoder reads from a word whose lowest `nbits` bits are those of `w` and whose other bits are 0.
A command is one 64-bit word (R110), numbered from bit 0 as opcode_table.json numbers it. -/
def decodeTableWord (nbits w : Nat) : Option Instr :=
  match decode (BitVec.ofNat 64 (w % 2 ^ nbits)) with
  | .ok i => some i
  | .error _ => none

end Sys2Proof
end

