-- ==== Sys2Proof/Config.lean ====
section
/-!
DEFINITION. The elaboration-time parameters of the block (spec 00_scope R8), as plain data, and the free values of
the one race the spec leaves open (20_memory R88, 93_implementation_defined U3).
-/
namespace Sys2Proof

/-- The pixel's representation in SCALED, fixed at elaboration (R3). -/
inductive ColorMode
  | grb
  | hsv
  deriving DecidableEq, Repr

/-- Global-only or per-pixel brightness, fixed at elaboration (R3). -/
inductive BrightMode
  | global
  | perpix
  deriving DecidableEq, Repr

/-- Stores inside the block, or supplied by the caller in external memory (R3). -/
inductive MemMode
  | engine
  | caller
  deriving DecidableEq, Repr

/-- The three byte stores (R80). -/
inductive Store
  | scaled
  | orig
  | pb
  deriving DecidableEq, Repr

/-- A colour as the converter gives it (R150): one byte a channel, so every channel is in 0..255 (R155, item 1). -/
structure Rgb where
  r : Byte
  g : Byte
  b : Byte
  deriving DecidableEq, Repr

/-- The four pulse durations of one clock rate, in cycles (R302). -/
structure Counts where
  t0h : Nat
  t0l : Nat
  t1h : Nat
  t1l : Nat
  deriving DecidableEq, Repr

/-- The arguments of `HSV_SECTOR_FN` (R8, R154). -/
structure SectorArgs where
  sector : Nat
  off    : Nat
  chroma : Nat
  m      : Nat
  hi     : Nat
  deriving DecidableEq, Repr

/-- The elaboration-time parameters (R8). `HSV_SECTOR_FN` is a function of finitely many arguments, so it is held
as the finite list of its departures from the default of R154 (log 3, DESIGN CHOICE). -/
structure Config where
  n               : Nat
  colorMode       : ColorMode
  brightMode      : BrightMode
  memMode         : MemMode
  allocOk         : Bool
  clkHz           : Nat
  t0hNs           : Nat
  t0lNs           : Nat
  t1hNs           : Nat
  t1lNs           : Nat
  timingTable     : List (Nat × Counts)
  startLat        : Nat
  sectorOverrides : List (SectorArgs × Rgb)
  hsvApplyGlobal  : Bool
  baseScaled      : Word32
  baseOrig        : Word32
  basePb          : Word32
  tLatchNs        : Nat
  deriving DecidableEq, Repr

/-- The default `TIMING_TABLE` (R303). -/
def Config.defaultTimingTable : List (Nat × Counts) :=
  [(40000000, ⟨9, 40, 32, 14⟩), (48000000, ⟨11, 48, 39, 17⟩), (80000000, ⟨18, 80, 64, 28⟩)]

/-- The configuration of the reset state. R8 gives the defaults of the timing and HSV parameters; the pixel count,
the modes, the clock rate, the bases and the latch time have none there, and the values are those of the spec's
program P1 (95_test_vectors), with bases and latch time 0 (log 2, DESIGN CHOICE). -/
def Config.default : Config where
  n := 3
  colorMode := .grb
  brightMode := .global
  memMode := .engine
  allocOk := true
  clkHz := 80000000
  t0hNs := 220
  t0lNs := 1000
  t1hNs := 800
  t1lNs := 350
  timingTable := Config.defaultTimingTable
  startLat := 1
  sectorOverrides := []
  hsvApplyGlobal := true
  baseScaled := 0
  baseOrig := 0
  basePb := 0
  tLatchNs := 0

/-- Free value (R88, U3; log 8): the k-th byte the encoder reads from a store byte that the host wrote during the
frame. Nothing is known of it. -/
opaque Config.freeByte : Nat → Byte

/-- Free value (R88, U3; log 8): the k-th converted colour of a pixel one of whose bytes the host wrote during the
frame, as `{G, R, B}`. Nothing is known of it. -/
opaque Config.freeColour : Nat → BitVec 24

end Sys2Proof
end

