-- ==== Sys2Proof/Machine/ColorModel.lean ====
section
/-!
DEFINITION. The colour converter and the brightness scaler (spec 40_color_model): pure functions on bytes, computed
exactly on natural numbers and narrowed at the end.
-/
namespace Sys2Proof

/-- The intermediate values of R151 and R152. -/
def sectorArgs (hue : BitVec 16) (sat val : Byte) : SectorArgs :=
  let h := hue.toNat % 1536
  let value1 := val.toNat + 1
  let sat1 := sat.toNat + 1
  let chroma := value1 * sat1 / 256
  { sector := h / 256, off := h % 256, chroma := chroma, m := value1 - chroma, hi := value1 - 1 }

/-- `up` of R154. -/
def SectorArgs.up (a : SectorArgs) : Nat := min (a.m + a.chroma * a.off / 256) a.hi

/-- `down` of R154. -/
def SectorArgs.down (a : SectorArgs) : Nat := min (a.m + a.chroma * (255 - a.off) / 256) a.hi

/-- `lo` of R154. -/
def SectorArgs.lo (a : SectorArgs) : Nat := min a.m a.hi

/-- The colour of three channel values. -/
def rgbOf (r g b : Nat) : Rgb := ⟨BitVec.ofNat 8 r, BitVec.ofNat 8 g, BitVec.ofNat 8 b⟩

/-- The default of `HSV_SECTOR_FN`: the table of R154. Sectors are 0..5 (R152). -/
def sectorDefault (a : SectorArgs) : Rgb :=
  match a.sector with
  | 0 => rgbOf a.hi a.up a.lo
  | 1 => rgbOf a.down a.hi a.lo
  | 2 => rgbOf a.lo a.hi a.up
  | 3 => rgbOf a.lo a.down a.hi
  | 4 => rgbOf a.up a.lo a.hi
  | _ => rgbOf a.hi a.lo a.down

/-- `HSV_SECTOR_FN` (R8, R154): the default but where the configuration departs from it (log 3). -/
def Config.sectorFn (cfg : Config) (a : SectorArgs) : Rgb :=
  match cfg.sectorOverrides.lookup a with
  | some c => c
  | none => sectorDefault a

/-- `hsvToRgb` (R150 to R154), the zero-value override first (R153). -/
def hsvToRgb (cfg : Config) (hue : BitVec 16) (sat val : Byte) : Rgb :=
  if val = 0 then ⟨0, 0, 0⟩ else cfg.sectorFn (sectorArgs hue sat val)

/-- `composePP` (R160). -/
def composePP (o pb g : Byte) : Byte := BitVec.ofNat 8 (o.toNat * pb.toNat * g.toNat / 65536)

/-- `composeG` (R161). -/
def composeG (o g : Byte) : Byte := BitVec.ofNat 8 (o.toNat * g.toNat / 256)

/-- `hsvColour` (R163). -/
def hsvColour (cfg : Config) (hue : BitVec 16) (sat val g : Byte) : Rgb :=
  let c := hsvToRgb cfg hue sat val
  if cfg.hsvApplyGlobal then ⟨composeG c.r g, composeG c.g g, composeG c.b g⟩ else c

/-- `grb` (R241): the colour as the 24-bit value `{g, r, b}`. -/
def grb (c : Rgb) : BitVec 24 := c.g ++ c.r ++ c.b

/-- The largest channel (R155). -/
def Rgb.maxChannel (c : Rgb) : Nat := max c.r.toNat (max c.g.toNat c.b.toNat)

end Sys2Proof
end

