-- ==== Sys2Proof/Machine/Profile.lean ====
section
/-!
DEFINITION. What elaboration derives from the configuration: sizes and the zero-pixel flag (spec 00_scope R9), the
cycle counts and sub-windows of the timing profile (43_timing_profile R302, R307), and where CALLER-mode stores lie
(20_memory R84).
-/
namespace Sys2Proof

/-- `ZERO_PIXEL` (R9): the allocator failed. -/
def Config.zeroPixel (cfg : Config) : Bool := cfg.memMode == .engine && !cfg.allocOk

/-- `N_eff` (R9). -/
def Config.nEff (cfg : Config) : Nat := if cfg.zeroPixel then 0 else cfg.n

/-- `BPP` (R9). -/
def Config.bpp (cfg : Config) : Nat :=
  match cfg.colorMode with
  | .grb => 3
  | .hsv => 4

/-- `SCALED_SIZE`, `ORIG_SIZE` and `PB_SIZE` (R9, R80). -/
def Config.size (cfg : Config) : Store → Nat
  | .scaled => cfg.bpp * cfg.nEff
  | .orig => match cfg.brightMode with | .perpix => 3 * cfg.nEff | .global => 0
  | .pb => match cfg.brightMode with | .perpix => cfg.nEff | .global => 0

/-- `BASE_SCALED`, `BASE_ORIG`, `BASE_PB` (R8). -/
def Config.base (cfg : Config) : Store → Nat
  | .scaled => cfg.baseScaled.toNat
  | .orig => cfg.baseOrig.toNat
  | .pb => cfg.basePb.toNat

/-- `ceil_div` (R11). -/
def ceilDiv (a b : Nat) : Nat := (a + b - 1) / b

/-- The best-effort count of a nominal duration (R302). -/
def bestEffortCycles (ns clkHz : Nat) : Nat := max 1 (ceilDiv (ns * clkHz) 1000000000)

/-- `CAL` (R302, R33): the declared rate is a key of the table. -/
def Config.cal (cfg : Config) : Bool := (cfg.timingTable.lookup cfg.clkHz).isSome

/-- `T0H_CYC`, `T0L_CYC`, `T1H_CYC`, `T1L_CYC` (R302). -/
def Config.counts (cfg : Config) : Counts :=
  match cfg.timingTable.lookup cfg.clkHz with
  | some c => c
  | none => ⟨bestEffortCycles cfg.t0hNs cfg.clkHz, bestEffortCycles cfg.t0lNs cfg.clkHz,
      bestEffortCycles cfg.t1hNs cfg.clkHz, bestEffortCycles cfg.t1lNs cfg.clkHz⟩

/-- `TH(b)` (R260). -/
def Config.highCycles (cfg : Config) (b : Bool) : Nat := if b then cfg.counts.t1h else cfg.counts.t0h

/-- `TL(b)` (R260). -/
def Config.lowCycles (cfg : Config) (b : Bool) : Nat := if b then cfg.counts.t1l else cfg.counts.t0l

/-- `W1_CYC` (R307). -/
def Config.w1 (cfg : Config) : Nat := cfg.counts.t0h

/-- `W2_CYC` (R307). -/
def Config.w2 (cfg : Config) : Nat := cfg.counts.t1h - cfg.counts.t0h

/-- `W3_ONE_CYC` and `W3_ZERO_CYC` (R307). -/
def Config.w3 (cfg : Config) (b : Bool) : Nat := if b then cfg.counts.t1l else cfg.counts.t0l - cfg.w2

end Sys2Proof
end

