-- ==== Sys2Proof/Machine/Operands.lean ====
section
/-!
DEFINITION. Operand forms: the packed colour words (spec 41_pixel_store R184, R192), the raw HSV slot (20_memory
R82), the 24-bit colour register (42_frame_encoder R241, R250) and the index bound (R181).
-/
namespace Sys2Proof

/-- Red of a packed GRB word: bits 23:16 (R184). -/
def packedRed (w : Word32) : Byte := w.extractLsb' 16 8
/-- Green of a packed GRB word: bits 15:8 (R184). -/
def packedGreen (w : Word32) : Byte := w.extractLsb' 8 8
/-- Blue of a packed GRB word: bits 7:0 (R184). -/
def packedBlue (w : Word32) : Byte := w.extractLsb' 0 8

/-- Hue of a packed HSV word: bits 31:16 (R192). -/
def packedHue (w : Word32) : BitVec 16 := w.extractLsb' 16 16
/-- Saturation of a packed HSV word: bits 15:8 (R192). -/
def packedSat (w : Word32) : Byte := w.extractLsb' 8 8
/-- Value of a packed HSV word: bits 7:0 (R192). -/
def packedVal (w : Word32) : Byte := w.extractLsb' 0 8

/-- Hue-low, `hue[7:0]` (R82). -/
def hueLow (hue : BitVec 16) : Byte := hue.extractLsb' 0 8
/-- Hue-high, `hue[15:8]` (R82). -/
def hueHigh (hue : BitVec 16) : Byte := hue.extractLsb' 8 8

/-- The slot bytes `4k`, `4k+1`, `4k+2`, `4k+3` (R82) as one packed HSV word (R192, R241). -/
def rawWord (b0 b1 b2 b3 : Byte) : Word32 := b1 ++ b0 ++ b2 ++ b3

/-- The 24-bit colour of one raw slot under the brightness `g` (R241, R251). -/
def slotColour (cfg : Config) (raw : Word32) (g : Byte) : BitVec 24 :=
  grb (hsvColour cfg (packedHue raw) (packedSat raw) (packedVal raw) g)

/-- Byte `q` of a 24-bit colour in sending order: G, R, B for q = 0, 1, 2 (R250, R262). -/
def colourByte (c : BitVec 24) (q : Nat) : Byte := c.extractLsb' (16 - 8 * q) 8

/-- The index is in range (R181). -/
def Config.hasPixel (cfg : Config) (i : Idx) : Bool := decide (i.toNat < cfg.nEff)

end Sys2Proof
end

