-- ==== Sys2Proof/Machine/State.lean ====
section
/-!
DEFINITION. The state of the block (spec 10_state R30 to R41, 20_memory R80), the reasons a step can stop, and the
state right after reset (70_reset_and_hazards R400). One step of the machine is one rising edge of `clk` (R13).
-/
namespace Sys2Proof.Machine

/-- Why the machine stops. The block itself has no trap and no fault (R361). -/
inductive Fault
  /-- A memory primitive was called outside `0 <= a < size` (R84). Raised by `memRead` and `memWrite`; safe. R84 says
  no command ever does it, and no step from a state that meets `Safety.Inv` does (log 11). -/
  | outOfBounds (x : Store) (a : Nat)
  deriving DecidableEq, Repr

/-- Why an instruction or a configuration has no meaning. -/
inductive Refusal
  /-- An instruction whose arm of `exec` has no meaning yet. Raised by no arm: every command has its meaning; safe. -/
  | notModelled (mnemonic : String)
  /-- A configuration that elaboration refuses (R10). Raised by `elaborate` only, never by `step`; safe. -/
  | illegalConfiguration
  deriving DecidableEq, Repr

/-- A byte map in canonical form: addresses strictly rising, no entry equal to what an unlisted address reads as. -/
abbrev Memory := List Host.Cell

/-- Every byte the block can reach: the three internal stores of an ENGINE-mode block, by offset, and the external
byte memory that a CALLER-mode block shares with the host, by 32-bit address (R84). -/
structure Mem where
  scaled : Memory
  orig   : Memory
  pb     : Memory
  ext    : Memory
  deriving DecidableEq, Repr

/-- `ENC_STATE` (R36). -/
inductive EncState
  | idle
  | xmit
  deriving DecidableEq, Repr

/-- `PHASE` (R36). -/
inductive Phase
  | start
  | high
  | low
  deriving DecidableEq, Repr

/-- What the host does with the command port before an edge (R39, R112; log 5). -/
inductive CmdDrive
  /-- The port stays as it is: a command not yet accepted stays presented. -/
  | keep
  /-- `cmd_valid` is driven low. -/
  | drop
  /-- `cmd_valid` is driven high with this `cmd_word`. -/
  | present (w : Word64)
  deriving DecidableEq, Repr

/-- What the outside world does at one edge (log 4): the level of `rst` at it, the command port, and the external
bytes the host wrote since the edge before, in order (R87). -/
structure EdgeInput where
  rst    : Bool
  cmd    : CmdDrive
  writes : List (Word32 × Byte)
  deriving DecidableEq, Repr

/-- A host that does nothing. -/
def EdgeInput.idle : EdgeInput := ⟨false, .keep, []⟩

/-- The state of the machine. Plain data. -/
structure State where
  /-- The elaboration-time parameters (R8), fixed (log 1). -/
  cfg : Config
  /-- The stores and the external memory (R80, R84). -/
  mem : Mem
  /-- `GBRIGHT` (R32). -/
  gbright : Byte
  /-- `STATUS.RSVD_SEEN` (R33). -/
  rsvdSeen : Bool
  /-- `ENC_STATE` (R36). -/
  encState : EncState
  /-- `BYTE_IX` (R36). -/
  byteIx : BitVec 18
  /-- `BIT_IX` (R36). -/
  bitIx : BitVec 3
  /-- `PHASE` (R36). -/
  phase : Phase
  /-- `CNT` (R36). -/
  cnt : BitVec 16
  /-- `SHREG` (R36). -/
  shreg : Byte
  /-- `GSNAP` (R36). -/
  gsnap : Byte
  /-- `CUR`, as `{G, R, B}` (R37). -/
  cur : BitVec 24
  /-- `NXT` (R37). -/
  nxt : BitVec 24
  /-- `NXT_RAW` (R37), held in the layout of the packed HSV word of R192 (log 13). -/
  nxtRaw : BitVec 32
  /-- `rsp_valid` (R39, R113). -/
  rspValid : Bool
  /-- `rsp_data` (R39, R113). -/
  rspData : Word32
  /-- The level of `rst` in the current cycle (R39). -/
  rst : Bool
  /-- `cmd_valid`, as the host drives it (R39). -/
  cmdValid : Bool
  /-- `cmd_word`, as the host drives it (R39). -/
  cmdWord : Word64
  /-- What the host does at the coming edges, the next first (log 4). -/
  inputs : List EdgeInput
  /-- The external addresses the host wrote during the frame in flight (R88; the model's own, log 8). -/
  raced : List Nat
  /-- How many free draws were made (R88; the model's own, log 8). -/
  draws : Nat
  deriving DecidableEq, Repr

/-- The state right after reset (R400, R41), `rst` released: a block of `Config.default` (log 2) that waits for
commands. The ports the host drives are idle and it has nothing to do yet (log 15). -/
def State.reset : State where
  cfg := Config.default
  mem := ⟨[], [], [], []⟩
  gbright := 255
  rsvdSeen := false
  encState := .idle
  byteIx := 0
  bitIx := 7
  phase := .start
  cnt := 0
  shreg := 0
  gsnap := 0
  cur := 0
  nxt := 0
  nxtRaw := 0
  rspValid := false
  rspData := 0
  rst := false
  cmdValid := false
  cmdWord := 0
  inputs := []
  raced := []
  draws := 0

end Sys2Proof.Machine
end

