-- ==== Sys2Proof/Machine/Ops.lean ====
section
/-!
DEFINITION. The shared operations: the canonical byte map, the memory primitives of spec 20_memory R84, the
pixel-store helpers of 41_pixel_store R182, R183 and R205, the response of 30_encoding R113, and reset
(70_reset_and_hazards R400). The block takes no exception (60_exceptions R361, R362): the one condition a command
word can meet that leaves a record is the reserved word, `recordReserved`.
-/
namespace Sys2Proof.Machine

/-- The outcome of an operation that gives a value or stops. -/
abbrev Res (α : Type) := Host.Outcome α Fault Refusal

/-- Do one operation after another; the first stop is the outcome. -/
def andThen {α β : Type} (r : Res α) (f : α → Res β) : Res β :=
  match r with
  | .next a => f a
  | .fault e => .fault e
  | .refused e => .refused e

/-! ### The byte map -/

/-- The byte at an address; `blank` where none is listed. -/
def Memory.read (blank : Byte) : Memory → Nat → Byte
  | [], _ => blank
  | (k, v) :: t, a => if a = k then v else Memory.read blank t a

/-- The map with one byte changed, in canonical form again. -/
def Memory.write (blank : Byte) (a : Nat) (v : Byte) : Memory → Memory
  | [] => if v = blank then [] else [(a, v)]
  | (k, w) :: t =>
    if a < k then (if v = blank then (k, w) :: t else (a, v) :: (k, w) :: t)
    else if a = k then (if v = blank then t else (a, v) :: t)
    else (k, w) :: Memory.write blank a v t

/-- The canonical form: addresses strictly rising, no entry equal to `blank`. -/
def Memory.wf (blank : Byte) : Memory → Bool
  | [] => true
  | (k, v) :: t => v != blank && t.all (fun c => decide (k < c.1)) && Memory.wf blank t

/-- A byte the block can reach: an offset of an internal store, or an address of the external memory (R84). -/
inductive Loc
  | cell (x : Store) (a : Nat)
  | ext (addr : Nat)
  deriving DecidableEq, Repr

/-- What an unlisted byte reads as: the reset contents of the internal stores, SCALED and ORIG 0 and PB 255 (R400,
R41); in the external memory 0 (log 9, DESIGN CHOICE). -/
def Loc.blank : Loc → Byte
  | .cell .scaled _ => 0
  | .cell .orig _ => 0
  | .cell .pb _ => 255
  | .ext _ => 0

/-- The byte at a location. -/
def Mem.readLoc (m : Mem) : Loc → Byte
  | .cell .scaled a => m.scaled.read (Loc.blank (.cell .scaled a)) a
  | .cell .orig a => m.orig.read (Loc.blank (.cell .orig a)) a
  | .cell .pb a => m.pb.read (Loc.blank (.cell .pb a)) a
  | .ext a => m.ext.read (Loc.blank (.ext a)) a

/-- The memory with the byte at one location changed. -/
def Mem.writeLoc (m : Mem) (l : Loc) (v : Byte) : Mem :=
  match l with
  | .cell .scaled a => { m with scaled := Memory.write (Loc.blank (.cell .scaled a)) a v m.scaled }
  | .cell .orig a => { m with orig := Memory.write (Loc.blank (.cell .orig a)) a v m.orig }
  | .cell .pb a => { m with pb := Memory.write (Loc.blank (.cell .pb a)) a v m.pb }
  | .ext a => { m with ext := Memory.write (Loc.blank (.ext a)) a v m.ext }

/-- Every map is in canonical form. -/
def Mem.wf (m : Mem) : Bool :=
  m.scaled.wf 0 && m.orig.wf 0 && m.pb.wf 255 && m.ext.wf 0

/-- Where offset `a` of store `x` lies (R84). -/
def loc (cfg : Config) (x : Store) (a : Nat) : Loc :=
  match cfg.memMode with
  | .engine => .cell x a
  | .caller => .ext (cfg.base x + a)

/-! ### The memory primitives (R84) -/

/-- The byte at offset `a` of store `x` (R84), as the claims read it. -/
def State.byteAt (s : State) (x : Store) (a : Nat) : Byte := s.mem.readLoc (loc s.cfg x a)

/-- `MemRead(x, a, 1)` (R84). -/
def memRead (x : Store) (a : Nat) (s : State) : Res Byte :=
  if a < s.cfg.size x then .next (s.byteAt x a) else .fault (.outOfBounds x a)

/-- `MemWrite(x, a, 1, v)` (R84). -/
def memWrite (x : Store) (a : Nat) (v : Byte) (s : State) : Res State :=
  if a < s.cfg.size x then .next { s with mem := s.mem.writeLoc (loc s.cfg x a) v }
  else .fault (.outOfBounds x a)

/-- `MemWrite` of successive bytes from offset `a` on, in order. -/
def writeBytes (x : Store) (a : Nat) : List Byte → State → Res State
  | [], s => .next s
  | v :: t, s => andThen (memWrite x a v s) (writeBytes x (a + 1) t)

/-! ### Pixel-store helpers -/

/-- `writeGlobal(i, g, r, b)` (R182). -/
def writeGlobal (i : Nat) (g r b : Byte) (s : State) : Res State :=
  writeBytes .scaled (3 * i) [composeG g s.gbright, composeG r s.gbright, composeG b s.gbright] s

/-- One channel of `recompute` (R183). -/
def recomputeChannel (i c : Nat) (pb g : Byte) (s : State) : Res State :=
  andThen (memRead .orig (3 * i + c) s) fun o => memWrite .scaled (3 * i + c) (composePP o pb g) s

/-- `recompute(i)` (R183). -/
def recompute (i : Nat) (s : State) : Res State :=
  andThen (memRead .pb i s) fun pb =>
  andThen (recomputeChannel i 0 pb s.gbright s) fun s1 =>
  andThen (recomputeChannel i 1 pb s.gbright s1) fun s2 =>
  recomputeChannel i 2 pb s.gbright s2

/-- The per-pixel setters' write of a colour into ORIG, green, red, blue (R83, R185, R186). -/
def writeOrig (i : Nat) (g r b : Byte) (s : State) : Res State :=
  writeBytes .orig (3 * i) [g, r, b] s

/-- `clearPixel(i)` (R205). -/
def clearPixel (i : Nat) (s : State) : Res State :=
  andThen (writeBytes .scaled (s.cfg.bpp * i) (List.replicate s.cfg.bpp 0) s) fun s1 =>
  match s1.cfg.brightMode with
  | .perpix => writeBytes .orig (3 * i) (List.replicate 3 0) s1
  | .global => .next s1

/-- `clearPixel` of the pixels `0 .. k-1`, in order (R205). -/
def clearPixels : Nat → State → Res State
  | 0, s => .next s
  | k + 1, s => andThen (clearPixels k s) (clearPixel k)

/-! ### Registers -/

/-- `respond(v)` (R113): `rsp_valid` rises for this cycle and `rsp_data` takes the answer. -/
def respond (v : Word32) (s : State) : State := { s with rspValid := true, rspData := v }

/-- A byte answer: `rsp_data[7:0]`, the other bits 0 (R113). -/
def respondByte (v : Byte) (s : State) : State := respond (v.setWidth 32) s

/-- Condition X5 (R130, R360): a reserved word was accepted, `sticky(RSVD_SEEN)`. -/
def recordReserved (s : State) : State := { s with rsvdSeen := true }

/-- The stores an edge with `rst` leaves: ENGINE-mode stores at their reset contents, CALLER-mode memory as it was
(R400). -/
def resetStores (cfg : Config) (m : Mem) : Mem :=
  match cfg.memMode with
  | .engine => { m with scaled := [], orig := [], pb := [] }
  | .caller => m

/-- What an edge with `rst = 1` does (R400). -/
def resetRegs (s : State) : State :=
  { s with
    mem := resetStores s.cfg s.mem
    gbright := 255
    rsvdSeen := false
    encState := .idle
    byteIx := 0
    bitIx := 7
    phase := .start
    cnt := 0
    shreg := 0
    gsnap := 0
    cur := 0
    nxt := 0
    nxtRaw := 0
    rspValid := false
    rspData := 0
    raced := [] }

end Sys2Proof.Machine
end

