-- ==== Sys2Proof/Machine/Flags.lean ====
section
/-!
DEFINITION. The status register and the output signals (spec 10_state R33, R35, R39, R40): the block has no condition
codes and no arithmetic flags.
-/
namespace Sys2Proof.Machine

/-- `STATUS` (R33). -/
def State.status (s : State) : Word32 :=
  0#26 ++ BitVec.ofBool (s.cfg.memMode == .caller) ++ BitVec.ofBool (s.cfg.brightMode == .perpix)
    ++ BitVec.ofBool (s.cfg.colorMode == .hsv) ++ BitVec.ofBool s.cfg.zeroPixel
    ++ BitVec.ofBool s.rsvdSeen ++ BitVec.ofBool s.cfg.cal

/-- `busy` in the current cycle (R39, R262). -/
def State.busy (s : State) : Bool := !s.rst && s.encState == .xmit

/-- `frame_active`, equal to `busy` (R39). -/
def State.frameActive (s : State) : Bool := s.busy

/-- `cmd_ready` in the current cycle (R112). -/
def State.cmdReady (s : State) : Bool := !s.busy && !s.rst

/-- `dout` in the current cycle (R40, R262). -/
def State.dout (s : State) : Bool := !s.rst && s.encState == .xmit && s.phase == .high

end Sys2Proof.Machine
end

