-- ==== Sys2Proof/Machine/Device.lean ====
section
/-!
DEFINITION. The device facade commands: NOP, BEGIN, GETCNT, GETSTAT (spec 44_device).
-/
namespace Sys2Proof.Machine

/-- NOP (R330): no state changes. -/
def execNop (s : State) : Res State := .next s

/-- BEGIN (R331): no register, store or status bit changes. -/
def execBegin (s : State) : Res State := .next s

/-- GETCNT (R332): `respond(zext_32(N_eff))`. -/
def execGetcnt (s : State) : Res State := .next (respond (BitVec.ofNat 32 s.cfg.nEff) s)

/-- GETSTAT (R334): `respond(STATUS)`. -/
def execGetstat (s : State) : Res State := .next (respond s.status s)

end Sys2Proof.Machine
end

