-- ==== Sys2Proof/Machine/FrameEncoder.lean ====
section
/-!
DEFINITION. REFRESH and the frame encoder (spec 42_frame_encoder): acceptance (R241), the fused HSV pipeline (R250,
R251) and the pulse generator's state machine (R262), with the race of 20_memory R88.
-/
namespace Sys2Proof.Machine

/-! ### Reading SCALED during a frame -/

/-- The host wrote this byte of SCALED during the frame in flight (R88). ENGINE-mode stores are out of its reach. -/
def State.isRaced (s : State) (j : Nat) : Bool :=
  match s.cfg.memMode with
  | .engine => false
  | .caller => s.raced.contains (s.cfg.base .scaled + j)

/-- The encoder's read of SCALED byte `j`: the byte, or free draw `d` where the host raced it (R88, U3; log 8). -/
def encRead (j d : Nat) (s : State) : Res Byte :=
  andThen (memRead .scaled j s) fun v => .next (if s.isRaced j then Config.freeByte d else v)

/-- Some byte of pixel k's slot was raced (R88). -/
def State.slotRaced (s : State) (k : Nat) : Bool :=
  s.isRaced (4 * k) || s.isRaced (4 * k + 1) || s.isRaced (4 * k + 2) || s.isRaced (4 * k + 3)

/-- `raw(k)` (R241), as a packed HSV word. -/
def readRaw (k : Nat) (s : State) : Res Word32 :=
  andThen (encRead (4 * k) (4 * s.draws) s) fun b0 =>
  andThen (encRead (4 * k + 1) (4 * s.draws + 1) s) fun b1 =>
  andThen (encRead (4 * k + 2) (4 * s.draws + 2) s) fun b2 =>
  andThen (encRead (4 * k + 3) (4 * s.draws + 3) s) fun b3 =>
  .next (rawWord b0 b1 b2 b3)

/-- `NXT_RAW <- raw(k)` and `NXT` with it (R251, R262). The zero-value clear of R252 is part of the result: a raw
`val` of 0 gives 0 (log 13). A raced slot gives a free colour (R88). -/
def latchNext (k : Nat) (s : State) : Res State :=
  andThen (readRaw k s) fun raw =>
  .next { s with
    nxtRaw := raw
    nxt := if s.slotRaced k then Config.freeColour s.draws else slotColour s.cfg raw s.gsnap
    draws := if s.slotRaced k then s.draws + 1 else s.draws }

/-! ### The pulse generator (R262) -/

/-- The bit of `SHREG` at `BIT_IX`. -/
def State.currentBit (s : State) : Bool := s.shreg.getLsbD s.bitIx.toNat

/-- `emit_bit(b)` (R262). -/
def emitBit (b : Bool) (s : State) : State :=
  { s with phase := .high, cnt := BitVec.ofNat 16 (s.cfg.highCycles b) }

/-- `SHREG <- v; emit_bit(SHREG[7])` (R262). -/
def startByte (v : Byte) (s : State) : State := emitBit (v.getLsbD 7) { s with shreg := v }

/-- `load(j)` in GRB mode (R244, R262). -/
def loadGrb (j : Nat) (s : State) : Res State :=
  andThen (encRead j (4 * s.draws) s) fun v =>
  .next (startByte v { s with draws := if s.isRaced j then s.draws + 1 else s.draws })

/-- `CUR <- NXT` at the edge that starts a pixel after the first (R250, R262). -/
def advanceColour (j : Nat) (s : State) : State :=
  if j % 3 = 0 ∧ 1 ≤ j / 3 then { s with cur := s.nxt } else s

/-- The latch of the next pixel at the edge that starts a pixel's first bit-frame (R251, R262). -/
def latchIfNeeded (j : Nat) (s : State) : Res State :=
  if j % 3 = 0 ∧ j / 3 + 1 < s.cfg.nEff then latchNext (j / 3 + 1) s else .next s

/-- `load(j)` in HSV mode (R250, R251, R262). -/
def loadHsv (j : Nat) (s : State) : Res State :=
  andThen (latchIfNeeded j (advanceColour j s)) fun s1 => .next (startByte (colourByte s1.cur (j % 3)) s1)

/-- `load(j)` (R262). -/
def load (j : Nat) (s : State) : Res State :=
  let s1 := { s with byteIx := BitVec.ofNat 18 j, bitIx := 7 }
  match s.cfg.colorMode with
  | .grb => loadGrb j s1
  | .hsv => loadHsv j s1

/-- `CNT <- CNT - 1` (R306). -/
def countDown (s : State) : State := { s with cnt := s.cnt - 1 }

/-- The end of the LOW phase: the next bit, the next byte, or the end of the frame (R262, R264). -/
def endLow (s : State) : Res State :=
  if 0 < s.bitIx.toNat then
    .next (emitBit (s.shreg.getLsbD (s.bitIx.toNat - 1)) { s with bitIx := s.bitIx - 1 })
  else if s.byteIx.toNat + 1 < 3 * s.cfg.nEff then load (s.byteIx.toNat + 1) s
  else .next { s with encState := .idle }

/-- One edge of a frame in flight (R262). -/
def tick (s : State) : Res State :=
  if 1 < s.cnt.toNat then .next (countDown s)
  else
    match s.phase with
    | .start => load 0 s
    | .high => .next { s with phase := .low, cnt := BitVec.ofNat 16 (s.cfg.lowCycles s.currentBit) }
    | .low => endLow s

/-! ### REFRESH -/

/-- The encoder registers a REFRESH sets (R241). A frame starts with no byte raced (R88). -/
def startFrame (s : State) : State :=
  { s with
    encState := .xmit
    phase := .start
    cnt := BitVec.ofNat 16 s.cfg.startLat
    byteIx := 0
    bitIx := 7
    gsnap := s.gbright
    raced := [] }

/-- REFRESH (R240, R241, R335): no pixels, no frame; else the encoder starts, in HSV mode with pixel 0's colour. -/
def execRefresh (s : State) : Res State :=
  if s.cfg.nEff = 0 then .next s
  else
    match s.cfg.colorMode with
    | .grb => .next (startFrame s)
    | .hsv =>
      andThen (readRaw 0 (startFrame s)) fun raw =>
      .next { startFrame s with cur := slotColour s.cfg raw s.gbright }

end Sys2Proof.Machine
end

