-- ==== Sys2Proof/Machine/PixelStore.lean ====
section
/-!
DEFINITION. The pixel-store commands (spec 41_pixel_store). The zero-pixel state (R180) makes every index out of
range and every store empty, since `N_eff` is 0 there; SETGB checks it by itself (R210).
-/
namespace Sys2Proof.Machine

/-- A GRB setter (R185, R186): no-op in the wrong mode or out of range; GLOBAL writes the scaled bytes; PERPIX writes
ORIG, the brightness if one is supplied, and recomputes. -/
def setGrb (i : Nat) (g r b : Byte) (pb : Option Byte) (s : State) : Res State :=
  if s.cfg.colorMode ≠ .grb ∨ s.cfg.nEff ≤ i then .next s
  else
    match s.cfg.brightMode with
    | .global => writeGlobal i g r b s
    | .perpix =>
      andThen (writeOrig i g r b s) fun s1 =>
      match pb with
      | some v => andThen (memWrite .pb i v s1) (recompute i)
      | none => recompute i s1

/-- An HSV setter (R190, R191): no-op in the wrong mode or out of range, else the four raw bytes of the slot. -/
def setHsv (i : Nat) (hue : BitVec 16) (sat val : Byte) (s : State) : Res State :=
  if s.cfg.colorMode ≠ .hsv ∨ s.cfg.nEff ≤ i then .next s
  else writeBytes .scaled (4 * i) [hueLow hue, hueHigh hue, sat, val] s

/-- SETGRB (R185): a brightness is supplied when P = 1. -/
def execSetgrb (i : Idx) (p : Bool) (pb g r b : Byte) (s : State) : Res State :=
  setGrb i.toNat g r b (if p then some pb else none) s

/-- SETGRBP (R186): the packed form carries no brightness. -/
def execSetgrbp (i : Idx) (w : Word32) (s : State) : Res State :=
  setGrb i.toNat (packedGreen w) (packedRed w) (packedBlue w) none s

/-- SETHSV (R190). -/
def execSethsv (i : Idx) (hue : BitVec 16) (sat val : Byte) (s : State) : Res State :=
  setHsv i.toNat hue sat val s

/-- SETHSVP (R191). -/
def execSethsvp (i : Idx) (w : Word32) (s : State) : Res State :=
  setHsv i.toNat (packedHue w) (packedSat w) (packedVal w) s

/-- SETPB (R200). -/
def execSetpb (i : Idx) (v : Byte) (s : State) : Res State :=
  if s.cfg.brightMode ≠ .perpix ∨ s.cfg.nEff ≤ i.toNat then .next s
  else andThen (memWrite .pb i.toNat v s) (recompute i.toNat)

/-- GETPB (R201). -/
def execGetpb (i : Idx) (s : State) : Res State :=
  if s.cfg.brightMode = .perpix ∧ i.toNat < s.cfg.nEff then
    andThen (memRead .pb i.toNat s) fun v => .next (respondByte v s)
  else .next (respond 0 s)

/-- CLRALL (R205). -/
def execClrall (s : State) : Res State := clearPixels s.cfg.nEff s

/-- CLRONE (R206). -/
def execClrone (i : Idx) (s : State) : Res State :=
  if i.toNat < s.cfg.nEff then clearPixel i.toNat s else .next s

/-- SETGB (R210). -/
def execSetgb (v : Byte) (s : State) : Res State :=
  if s.cfg.zeroPixel then .next s else .next { s with gbright := v }

/-- RDBUF (R220). -/
def execRdbuf (a : Word32) (s : State) : Res State :=
  if a.toNat < s.cfg.size .scaled then
    andThen (memRead .scaled a.toNat s) fun v => .next (respondByte v s)
  else .next (respond 0 s)

end Sys2Proof.Machine
end

