-- ==== Sys2Proof/Machine/Dispatch.lean ====
section
/-!
DEFINITION. Dispatch (spec 44_device R335): one arm per command.
-/
namespace Sys2Proof.Machine

/-- The effect of an accepted command on the state, in its acceptance cycle (R89). -/
def exec (i : Instr) (s : State) : Host.Outcome State Fault Refusal :=
  match i with
  | .nop => Sys2Proof.Machine.execNop s
  | .beginCmd => Sys2Proof.Machine.execBegin s
  | .setgrb ix p pb g r b => Sys2Proof.Machine.execSetgrb ix p pb g r b s
  | .setgrbp ix w => Sys2Proof.Machine.execSetgrbp ix w s
  | .sethsv ix hue sat val => Sys2Proof.Machine.execSethsv ix hue sat val s
  | .sethsvp ix w => Sys2Proof.Machine.execSethsvp ix w s
  | .setpb ix v => Sys2Proof.Machine.execSetpb ix v s
  | .getpb ix => Sys2Proof.Machine.execGetpb ix s
  | .clrall => Sys2Proof.Machine.execClrall s
  | .clrone ix => Sys2Proof.Machine.execClrone ix s
  | .setgb v => Sys2Proof.Machine.execSetgb v s
  | .getcnt => Sys2Proof.Machine.execGetcnt s
  | .rdbuf a => Sys2Proof.Machine.execRdbuf a s
  | .refresh => Sys2Proof.Machine.execRefresh s
  | .getstat => Sys2Proof.Machine.execGetstat s

end Sys2Proof.Machine
end

