-- ==== Sys2Proof/Machine/HostPort.lean ====
section
/-!
DEFINITION. What the outside world does at an edge (spec 10_state R39, 20_memory R87 and R88, 30_encoding R112;
logs 4 to 6): host writes to external bytes, the level of `rst`, and the command port.
-/
namespace Sys2Proof.Machine

/-- One byte the host writes to the external memory (R87); during a frame the address is remembered as raced (R88). -/
def hostWrite (s : State) (e : Word32 × Byte) : State :=
  { s with
    mem := s.mem.writeLoc (.ext e.1.toNat) e.2
    raced := if s.encState = .xmit ∧ e.1.toNat ∉ s.raced then e.1.toNat :: s.raced else s.raced }

/-- The host's writes since the edge before, in order (R87). -/
def hostWrites (es : List (Word32 × Byte)) (s : State) : State := es.foldl hostWrite s

/-- The command port as the host drives it. A command not yet accepted stays presented (R112; log 5). -/
def drivePort (d : CmdDrive) (s : State) : State :=
  match d with
  | .keep => s
  | .drop => { s with cmdValid := false }
  | .present w => { s with cmdValid := true, cmdWord := w }

/-- What the host does at the next edge; nothing once its list is empty (log 4). -/
def State.nextInput (s : State) : EdgeInput := s.inputs.headD EdgeInput.idle

/-- The state the edge sees: inputs taken, host writes made, and `rsp_valid` low again (R113). -/
def sample (s : State) : State :=
  let e := s.nextInput
  let s1 := drivePort e.cmd (hostWrites e.writes s)
  { s1 with rst := e.rst, rspValid := false, inputs := s.inputs.tail }

end Sys2Proof.Machine
end

