-- ==== Sys2Proof/Machine/Command.lean ====
section
/-!
DEFINITION. The command unit (spec 30_encoding R112, R130, 44_device R335): taking the presented word, and the fetch
word of the host's question.
-/
namespace Sys2Proof.Machine

/-- The port after an acceptance: the host's command is taken and `cmd_valid` is low until the next one (log 5). -/
def takeCommand (s : State) : State := { s with cmdValid := false }

/-- An accepted word: the command it decodes to runs; a reserved word is a no-op that records itself (R130; log 7). -/
def runCommand (s : State) : Res State :=
  match decode s.cmdWord with
  | .ok i => exec i (takeCommand s)
  | .error _ => .next (recordReserved (takeCommand s))

/-- An edge with no frame in flight and no reset: a presented command is accepted (R112). -/
def idleEdge (s : State) : Res State := if s.cmdValid then runCommand s else .next s

/-- `s` with the host presenting the word at the next edge and the port ready to accept it (log 16). -/
def presentWord (w : Word64) (s : State) : State :=
  { s with encState := .idle, inputs := ⟨false, .present w, []⟩ :: s.inputs }

end Sys2Proof.Machine
end

