-- ==== Sys2Proof/Machine/Step.lean ====
section
/-!
DEFINITION. One step of the machine is one rising edge of `clk` (spec 00_scope R13).
-/
namespace Sys2Proof.Machine

/-- One rising edge: reset wins (R363, R400); a frame in flight advances and holds the port (R112, R262); otherwise a
presented command is accepted (R112). -/
def step (s : State) : Host.Outcome State Fault Refusal :=
  let s1 := sample s
  if s1.rst then .next (resetRegs s1)
  else
    match s1.encState with
    | .xmit => tick s1
    | .idle => idleEdge s1

/-- `s` with the word stored where the next step takes its command: presented on the command port (log 16). -/
def State.withFetchWord (s : State) (nbits w : Nat) : State := presentWord (BitVec.ofNat 64 (w % 2 ^ nbits)) s

end Sys2Proof.Machine
end

