-- ==== Sys2Proof/Machine/Elaborate.lean ====
section
/-!
DEFINITION. Elaboration: which configurations are legal (spec 00_scope R8, R10, 43_timing_profile R305, 40_color_model
R155), and the block that a legal one builds (70_reset_and_hazards R401).
-/
namespace Sys2Proof

/-- The parameters are in their ranges: R10, item 2, and the range R8 gives CLK_HZ (log 21). -/
def Config.rangesLegal (cfg : Config) : Bool :=
  decide (cfg.n ≤ 65535) && decide (1 ≤ cfg.clkHz) && decide (cfg.clkHz ≤ 1000000000)

/-- Not HSV with PERPIX (R10, item 1). -/
def Config.modesLegal (cfg : Config) : Bool := !(cfg.colorMode == .hsv && cfg.brightMode == .perpix)

/-- A count that the 16-bit `CNT` can hold and that is not 0 (R263, R305). -/
def countLegal (c : Nat) : Bool := decide (1 ≤ c) && decide (c ≤ 65535)

/-- The timing counts are legal (R305). -/
def Config.timingLegal (cfg : Config) : Bool :=
  countLegal cfg.counts.t0h && countLegal cfg.counts.t0l && countLegal cfg.counts.t1h && countLegal cfg.counts.t1l
    && countLegal cfg.startLat
    && decide (cfg.counts.t0h < cfg.counts.t1h)
    && decide (cfg.counts.t1h - cfg.counts.t0h < cfg.counts.t0l)

/-- Two stores' address ranges share no byte. An empty range shares none. -/
def Config.disjointStores (cfg : Config) (x y : Store) : Bool :=
  cfg.size x == 0 || cfg.size y == 0
    || decide (cfg.base x + cfg.size x ≤ cfg.base y) || decide (cfg.base y + cfg.size y ≤ cfg.base x)

/-- CALLER-mode stores end by 2^32 and do not overlap (R10, item 4). -/
def Config.storesPlaced (cfg : Config) : Bool :=
  match cfg.memMode with
  | .engine => true
  | .caller =>
    decide (cfg.base .scaled + cfg.size .scaled ≤ 2 ^ 32) && decide (cfg.base .orig + cfg.size .orig ≤ 2 ^ 32)
      && decide (cfg.base .pb + cfg.size .pb ≤ 2 ^ 32)
      && cfg.disjointStores .scaled .orig && cfg.disjointStores .scaled .pb && cfg.disjointStores .orig .pb

/-- The sector function has the property of R155, item 2: at full saturation and value one channel is 255 whatever
the hue. Items 1 and 3 hold of every `hsvToRgb` (log 3, log 21). -/
def Config.sectorFnLegal (cfg : Config) : Bool :=
  (List.range 1536).all fun h => (hsvToRgb cfg (BitVec.ofNat 16 h) 255 255).maxChannel == 255

/-- A configuration elaboration accepts (R10). -/
def Config.legal (cfg : Config) : Bool :=
  cfg.rangesLegal && cfg.modesLegal && cfg.timingLegal && cfg.storesPlaced && cfg.sectorFnLegal

end Sys2Proof

namespace Sys2Proof.Machine

/-- The block of a configuration after its first reset (R401), over the external bytes the host had written by then,
in order (R403; log 9). -/
def built (cfg : Config) (ext : List (Word32 × Byte)) : State := hostWrites ext { State.reset with cfg := cfg }

/-- Elaboration (R10): a block, or a refusal. -/
def elaborate (cfg : Config) (ext : List (Word32 × Byte)) : Res State :=
  if cfg.legal then .next (built cfg ext) else .refused .illegalConfiguration

end Sys2Proof.Machine
end

