-- ==== Sys2Proof/Machine/Frame.lean ====
section
/-!
DEFINITION. The frame at the byte and bit level and the waveform it must have (spec 42_frame_encoder R242, R243, R256,
R260, R261, R270): what the encoder of R262 is compared with. No step uses these.
-/
namespace Sys2Proof.Machine

/-- `raw(k)` as the stores hold it (R241). -/
def State.rawSlot (s : State) (k : Nat) : Word32 :=
  rawWord (s.byteAt .scaled (4 * k)) (s.byteAt .scaled (4 * k + 1)) (s.byteAt .scaled (4 * k + 2))
    (s.byteAt .scaled (4 * k + 3))

/-- `F[j]` of R242 for the brightness `g`, which HSV mode samples at acceptance. -/
def State.frameByte (s : State) (g : Byte) (j : Nat) : Byte :=
  match s.cfg.colorMode with
  | .grb => s.byteAt .scaled j
  | .hsv => colourByte (slotColour s.cfg (s.rawSlot (j / 3)) g) (j % 3)

/-- The frame's bytes (R242). -/
def State.frameBytes (s : State) (g : Byte) : List Byte := (List.range (3 * s.cfg.nEff)).map (s.frameByte g)

/-- A byte's bits, the most significant first (R243). -/
def bitsOfByte (v : Byte) : List Bool :=
  [v.getLsbD 7, v.getLsbD 6, v.getLsbD 5, v.getLsbD 4, v.getLsbD 3, v.getLsbD 2, v.getLsbD 1, v.getLsbD 0]

/-- The frame's bits (R243). -/
def State.frameBits (s : State) (g : Byte) : List Bool := (s.frameBytes g).flatMap bitsOfByte

/-- The line during one bit-frame, a value a cycle (R260). -/
def bitWave (cfg : Config) (b : Bool) : List Bool :=
  List.replicate (cfg.highCycles b) true ++ List.replicate (cfg.lowCycles b) false

/-- The line during one bit-frame of the HSV path, by its three sub-windows (R256). -/
def subWindowWave (cfg : Config) (b : Bool) : List Bool :=
  List.replicate cfg.w1 true ++ List.replicate cfg.w2 b ++ List.replicate (cfg.w3 b) false

/-- The line from the acceptance cycle to the last cycle of the frame (R261). -/
def frameWave (cfg : Config) (bits : List Bool) : List Bool :=
  List.replicate cfg.startLat false ++ bits.flatMap (bitWave cfg)

/-- `e - a` of R270: START_LAT, and P1 cycles for each 1-bit, P0 for each 0-bit. -/
def frameCycles (cfg : Config) (bits : List Bool) : Nat :=
  cfg.startLat + bits.count true * (cfg.counts.t1h + cfg.counts.t1l)
    + bits.count false * (cfg.counts.t0h + cfg.counts.t0l)

/-- The state after `k` more edges, if none stops. -/
def after (k : Nat) (s : State) : Res State := Sys2Proof.core.run k s

end Sys2Proof.Machine
end

