-- ==== Sys2Proof/Safety.lean ====
section
/-!
DEFINITION. What counts as a good state and a well-behaved host, in the terms the claims use.
-/
namespace Sys2Proof.Safety
open Sys2Proof.Machine

/-! ### Good states -/

/-- An internal store lists no offset at or beyond its size (R80, R84). -/
def storeInBounds (size : Nat) (m : Memory) : Prop := ∀ c ∈ m, c.1 < size

/-- The invariant of every reachable state: a legal configuration, canonical maps, no byte beyond a store or beyond
the 32-bit external space, and an encoder whose position is inside the frame. -/
structure Inv (s : State) : Prop where
  /-- Elaboration accepted the configuration (R10). -/
  legal : s.cfg.legal = true
  /-- Every byte map is in canonical form. -/
  memWf : s.mem.wf = true
  /-- The internal stores hold no byte beyond their sizes (R84). -/
  inBounds : s.cfg.memMode = .engine →
    storeInBounds (s.cfg.size .scaled) s.mem.scaled ∧ storeInBounds (s.cfg.size .orig) s.mem.orig ∧
      storeInBounds (s.cfg.size .pb) s.mem.pb
  /-- A CALLER-mode block has no internal store (R84). -/
  noInternal : s.cfg.memMode = .caller → s.mem.scaled = [] ∧ s.mem.orig = [] ∧ s.mem.pb = []
  /-- External addresses have 32 bits (R84). -/
  extBounds : storeInBounds (2 ^ 32) s.mem.ext
  /-- During a frame there are pixels, BYTE_IX is one of the frame's bytes, no phase has zero length (R36, R263), and
  the start phase stands at the first bit. -/
  frame : s.encState = .xmit →
    0 < s.cfg.nEff ∧ s.byteIx.toNat < 3 * s.cfg.nEff ∧ 1 ≤ s.cnt.toNat ∧
      (s.phase = .start → s.byteIx = 0 ∧ s.bitIx = 7)
  /-- In the zero-pixel state GBRIGHT keeps its reset value (R180). -/
  zeroPixel : s.cfg.zeroPixel = true → s.gbright = 255

/-- R38 and R211 in PERPIX mode, without the ghost: each pixel's SCALED bytes are its ORIG bytes scaled by its PB byte
and by one global brightness, the one of its last recompute. -/
def PixelsScaled (s : State) : Prop :=
  s.cfg.brightMode = .perpix → ∀ i < s.cfg.nEff, ∃ g : Byte, ∀ c < 3,
    s.byteAt .scaled (3 * i + c) = composePP (s.byteAt .orig (3 * i + c)) (s.byteAt .pb i) g

/-- At the next edge the host writes no byte of a CALLER-mode store. -/
def WritesNoStoreByte (s : State) : Prop :=
  ∀ e ∈ s.nextInput.writes, ∀ x a, a < s.cfg.size x → e.1.toNat ≠ s.cfg.base x + a

/-! ### Frames: what an operation leaves alone -/

/-- `t` is `s` in everything but the memory. -/
def SameRegs (s t : State) : Prop := { t with mem := s.mem } = s

/-- The locations of `k` successive bytes of a store from offset `a` on. -/
def bytesFrom (s : State) (x : Store) (a k : Nat) : List Loc := (List.range k).map fun c => loc s.cfg x (a + c)

/-- Every byte outside these locations reads as before. -/
def UnchangedOutside (ls : List Loc) (s t : State) : Prop :=
  ∀ l, l ∉ ls → t.mem.readLoc l = s.mem.readLoc l

/-- The read commands (R113). -/
def isRead : Instr → Bool
  | .nop => false
  | .beginCmd => false
  | .setgrb .. => false
  | .setgrbp .. => false
  | .sethsv .. => false
  | .sethsvp .. => false
  | .setpb .. => false
  | .getpb _ => true
  | .clrall => false
  | .clrone _ => false
  | .setgb _ => false
  | .getcnt => true
  | .rdbuf _ => true
  | .refresh => false
  | .getstat => true

/-- A command is accepted at the next edge: no frame in flight, `rst` low, `cmd_valid` high (R112). -/
def Accepts (s : State) : Prop :=
  s.encState = .idle ∧ s.nextInput.rst = false ∧ (sample s).cmdValid = true

/-! ### Well-behaved hosts -/

/-- An edge at which the host neither resets the block nor writes external bytes. It may do anything on the command
port. -/
def EdgeQuiet (e : EdgeInput) : Prop := e.rst = false ∧ e.writes = []

/-- The host does so at every coming edge. -/
def QuietHost (s : State) : Prop := ∀ e ∈ s.inputs, EdgeQuiet e

/-- The host resets the block at none of the coming edges. It may write external bytes and do anything on the command
port. -/
def NoReset (s : State) : Prop := ∀ e ∈ s.inputs, e.rst = false

/-- The block waits for a REFRESH: no frame in flight, not in reset, and a host that stays quiet. -/
def ReadyToSend (s : State) : Prop := s.encState = .idle ∧ s.rst = false ∧ QuietHost s

/-- The host presents no reserved word (R130, U1): such a program is outside what a model should rely on. -/
def issuesNoReserved (es : List EdgeInput) : Bool :=
  es.all fun e =>
    match e.cmd with
    | .present w => (decode w).isOk
    | .keep => true
    | .drop => true

/-- The host kept the line idle for the latch time: `gap` cycles between busy falling and the next REFRESH's acceptance
(R413). The block does not enforce it. -/
def latchKept (cfg : Config) (gap : Nat) : Bool :=
  decide (cfg.tLatchNs * cfg.clkHz ≤ (cfg.startLat + gap) * 1000000000)

end Sys2Proof.Safety
end

