-- ==== Sys2Proof/Certificates/Slice0/Obligations.lean ====
section
/-!
DEFINITION. The statements for the provers, in the order of OBLIGATIONS.json. Each docstring names the rule of the spec
a statement formalises, or the log entry of a choice it rests on.
-/
open Sys2Proof Sys2Proof.Machine Sys2Proof.Safety

/-! ### Encoding -/

/-- Decoding an encoded command gives it back, whatever its operands (R115). -/
def Obligations.DecodeInvertsEncode : Prop := ∀ i : Instr, decode (encode i) = .ok i

/-- A word that decodes to a command is that command's encoding: no bit of a word is dropped, the ignored ones
included (R131). -/
def Obligations.EncodeInvertsDecode : Prop := ∀ (w : Word64) (i : Instr), decode w = .ok i → encode i = w

/-- R132: every word is exactly one of the table's commands, or reserved and none of them; it is reserved for its
opcode exactly when `OP = 0xF`. -/
def Obligations.DecodingIsTotalAndUnambiguous : Prop :=
  ∀ w : Word64,
    ((∃ i, decode w = .ok i ∧
        ∀ (k : Nat) (row : Word64 × Word64), opcodeRows[k]? = some row → (rowMatches w row = true ↔ k = rowOf i)) ∨
      (∃ e, decode w = .error e) ∧ ∀ row ∈ opcodeRows, rowMatches w row = false) ∧
    (decode w = .error .opcodeF ↔ fieldOp w = 0xF)

/-- R142: the worked encodings: each line assembles to the word, and the word decodes to the command. -/
def Obligations.WorkedEncodingsDecode : Prop :=
  ∀ e ∈ ([
      (.setgrb 0 100 150 200 none, 0x20000000006496C8, .setgrb 0 false 0 100 150 200),
      (.setgrb 1 10 20 30 (some 128), 0x28000180000A141E, .setgrb 1 true 128 10 20 30),
      (.setgrbp 2 0x00FF8000, 0x3000020000FF8000, .setgrbp 2 0x00FF8000),
      (.sethsv 3 512 255 255, 0x400003000200FFFF, .sethsv 3 512 255 255),
      (.sethsvp 0 0x0200FFFF, 0x500000000200FFFF, .sethsvp 0 0x0200FFFF),
      (.setpb 5 64, 0x6000054000000000, .setpb 5 64),
      (.getpb 5, 0x7000050000000000, .getpb 5),
      (.clrall, 0x8000000000000000, .clrall),
      (.clrone 7, 0x9000070000000000, .clrone 7),
      (.setgb 128, 0xA000008000000000, .setgb 128),
      (.getcnt, 0xB000000000000000, .getcnt),
      (.rdbuf 0x10, 0xC000000000000010, .rdbuf 0x10),
      (.refresh, 0xD000000000000000, .refresh),
      (.getstat, 0xE000000000000000, .getstat),
      (.nop, 0x0000000000000000, .nop),
      (.beginCmd, 0x1000000000000000, .beginCmd)] : List (AsmLine × Word64 × Instr)),
    e.1.assemble = some [e.2.1] ∧ decode e.2.1 = .ok e.2.2

/-- R141: each pseudo-instruction assembles to its expansion. -/
def Obligations.PseudoInstructionsExpand : Prop :=
  (∀ v, (AsmLine.setbrightness v).assemble = (AsmLine.setgb v).assemble) ∧
  (∀ i r g b, (AsmLine.setrgb i r g b).assemble = (AsmLine.setgrb i g r b none).assemble) ∧
  AsmLine.clear.assemble = AsmLine.clrall.assemble ∧
  AsmLine.showCmd.assemble = AsmLine.refresh.assemble ∧
  AsmLine.blank.assemble = some [encode .clrall, encode .refresh] ∧
  AsmLine.waitidle.assemble = some []

/-! ### The step -/

/-- R112, R335: with no frame in flight and no reset, a presented word that decodes to a command runs that command. That
`cmd_valid` drops at the acceptance is the model's choice, log 5. The second clause, about the host's question
(`withFetchWord`), is the model's choice as a whole, log 16: it is such a step. -/
def Obligations.StepRunsTheDecodedCommand : Prop :=
  (∀ (s : State) (i : Instr), Accepts s → decode (sample s).cmdWord = .ok i →
    step s = exec i { sample s with cmdValid := false }) ∧
  (∀ (s : State) (w : Nat) (i : Instr), w < 2 ^ 64 → decode (BitVec.ofNat 64 w) = .ok i →
    step (s.withFetchWord 64 w) = exec i { s with
      encState := .idle, rst := false, cmdValid := false, cmdWord := BitVec.ofNat 64 w, rspValid := false })

/-- R130's effect: an accepted reserved word sets RSVD_SEEN and changes no other register or store. Two things in it are
the model's choice: that it runs the word where the rule also says that a model should refuse the program (log 7), and
that `cmd_valid` drops at the acceptance as at any other (log 5). -/
def Obligations.ReservedWordOnlyRecordsItself : Prop :=
  ∀ (s : State) (e : Reserved), Accepts s → decode (sample s).cmdWord = .error e →
    step s = .next { sample s with cmdValid := false, rsvdSeen := true } ∧
    (sample s).rspValid = false ∧ (sample s).rspData = s.rspData

/-- R112 and R266 for one edge of a frame: the command port is left as the host drives it, whatever it presents, and
no store byte, GBRIGHT, STATUS bit or answer changes; only the host's own writes show in the memory. What the host does
at the edge stands in the model's list `inputs`, log 4. -/
def Obligations.FrameEdgeHoldsThePortAndTheStores : Prop :=
  ∀ s t : State, s.encState = .xmit → s.nextInput.rst = false → step s = .next t →
    t.cmdValid = (sample s).cmdValid ∧ t.cmdWord = (sample s).cmdWord ∧ t.mem = (sample s).mem ∧
    t.gbright = s.gbright ∧ t.rsvdSeen = s.rsvdSeen ∧ t.rspData = s.rspData ∧ t.rspValid = false ∧
    t.inputs = s.inputs.tail ∧ t.status = s.status

/-- R113: a read command raises `rsp_valid` for the cycle of its acceptance edge and sets `rsp_data`, a byte answer in
its low byte; every other edge leaves `rsp_valid` low and `rsp_data` as it was. -/
def Obligations.ResponsesOnlyFromReadCommands : Prop :=
  ∀ s t : State, s.nextInput.rst = false → step s = .next t →
    (∀ i, Accepts s → decode (sample s).cmdWord = .ok i → isRead i = true →
      t.rspValid = true ∧ ((∃ j, i = .getpb j) ∨ (∃ a, i = .rdbuf a) → t.rspData.toNat < 256)) ∧
    ((∀ i, Accepts s → decode (sample s).cmdWord = .ok i → isRead i = false) →
      t.rspValid = false ∧ t.rspData = s.rspData)

/-- R400: what an edge with `rst = 1` leaves, a frame in flight or not. -/
def Obligations.ResetEdgeSetsEveryRegister : Prop :=
  ∀ s : State, s.nextInput.rst = true → ∃ t, step s = .next t ∧
    t.encState = .idle ∧ t.phase = .start ∧ t.cnt = 0 ∧ t.byteIx = 0 ∧ t.bitIx = 7 ∧ t.shreg = 0 ∧ t.gsnap = 0 ∧
    t.cur = 0 ∧ t.nxt = 0 ∧ t.nxtRaw = 0 ∧ t.gbright = 255 ∧ t.rsvdSeen = false ∧
    t.rspValid = false ∧ t.rspData = 0 ∧
    (s.cfg.memMode = .engine → ∀ a, t.byteAt .scaled a = 0 ∧ t.byteAt .orig a = 0 ∧ t.byteAt .pb a = 255) ∧
    (∀ a, t.mem.readLoc (.ext a) = (sample s).mem.readLoc (.ext a)) ∧
    t.dout = false ∧ t.busy = false ∧ t.frameActive = false ∧ t.cmdReady = false ∧ t.cfg = s.cfg

/-- R41: what elaboration and the first reset leave, for every legal configuration; an external byte is what the host put
there last. -/
def Obligations.ElaboratedBlockHoldsResetValues : Prop :=
  ∀ (cfg : Config) (ext : List (Word32 × Byte)), cfg.legal = true → ∃ t, elaborate cfg ext = .next t ∧
    t.cfg = cfg ∧ t.status = ({ State.reset with cfg := cfg } : State).status ∧
    t.gbright = 255 ∧ t.rsvdSeen = false ∧
    t.encState = .idle ∧ t.phase = .start ∧ t.cnt = 0 ∧ t.byteIx = 0 ∧ t.bitIx = 7 ∧ t.shreg = 0 ∧ t.gsnap = 0 ∧
    t.cur = 0 ∧ t.nxt = 0 ∧ t.nxtRaw = 0 ∧
    t.dout = false ∧ t.busy = false ∧ t.frameActive = false ∧ t.rspValid = false ∧ t.rspData = 0 ∧
    (cfg.memMode = .engine → ∀ a, t.byteAt .scaled a = 0 ∧ t.byteAt .orig a = 0 ∧ t.byteAt .pb a = 255) ∧
    (∀ es a v fs, ext = es ++ (a, v) :: fs → (∀ e ∈ fs, e.1 ≠ a) → t.mem.readLoc (.ext a.toNat) = v)

/-- R10: elaboration refuses each of the four kinds of configuration. -/
def Obligations.ElaborationRefusesIllegalConfigurations : Prop :=
  ∀ (cfg : Config) (ext : List (Word32 × Byte)),
    (cfg.colorMode = .hsv ∧ cfg.brightMode = .perpix → elaborate cfg ext = .refused .illegalConfiguration) ∧
    (65535 < cfg.n → elaborate cfg ext = .refused .illegalConfiguration) ∧
    (¬((∀ c ∈ [cfg.counts.t0h, cfg.counts.t0l, cfg.counts.t1h, cfg.counts.t1l, cfg.startLat], 1 ≤ c ∧ c ≤ 65535) ∧
        cfg.counts.t1h > cfg.counts.t0h ∧ cfg.counts.t0l > cfg.counts.t1h - cfg.counts.t0h) →
      elaborate cfg ext = .refused .illegalConfiguration) ∧
    (cfg.memMode = .caller →
      ((∃ x, 2 ^ 32 < cfg.base x + cfg.size x) ∨
        ∃ x y a b, x ≠ y ∧ a < cfg.size x ∧ b < cfg.size y ∧ cfg.base x + a = cfg.base y + b) →
      elaborate cfg ext = .refused .illegalConfiguration)

/-! ### Invariants -/

/-- The reset state meets the invariant, and so does every block that elaboration builds, whatever the configuration and
whatever the host wrote to the external memory. -/
def Obligations.ResetStateMeetsTheInvariant : Prop :=
  Inv State.reset ∧ ∀ (cfg : Config) (ext : List (Word32 × Byte)) (t : State), elaborate cfg ext = .next t → Inv t

/-- Every step keeps the invariant: legal configuration, canonical byte maps, no byte beyond a store (R84), a position
inside the frame and no phase of zero length (R36, R263). -/
def Obligations.EveryStepKeepsTheInvariant : Prop := ∀ s t : State, Inv s → step s = .next t → Inv t

/-- From a state that meets the invariant every step answers a next state: no memory primitive is called out of bounds
(R84), nothing traps (R361) and nothing is refused. -/
def Obligations.NoStepEverStops : Prop := ∀ s : State, Inv s → ∃ t, step s = .next t

/-- No step changes a parameter of elaboration (R8, R335). -/
def Obligations.ConfigurationNeverChanges : Prop := ∀ s t : State, step s = .next t → t.cfg = s.cfg

/-- Every step keeps the per-pixel relation of R38 and R211: each pixel's SCALED bytes are its ORIG bytes scaled by its PB byte
and one global brightness. In CALLER mode the host may break it by writing a store byte itself, so at this edge
it writes none; it may write any other external byte. -/
def Obligations.EveryStepKeepsPixelsScaled : Prop :=
  ∀ s t : State, Inv s → PixelsScaled s → (s.cfg.memMode = .engine ∨ WritesNoStoreByte s) →
    step s = .next t → PixelsScaled t

/-- The per-pixel relation of R38 holds in every freshly elaborated ENGINE-mode block. -/
def Obligations.ElaboratedPixelsAreScaled : Prop :=
  ∀ (cfg : Config) (ext : List (Word32 × Byte)), cfg.memMode = .engine → PixelsScaled (built cfg ext)

/-- R35: RSVD_SEEN rises exactly by an accepted reserved word and falls exactly by reset; a frame starts exactly by an
accepted REFRESH with pixels and ends exactly by reset or at the end of its last bit; nothing but GETSTAT reads RSVD_SEEN: with another value of it, an edge
at which no GETSTAT is accepted leaves the same state but for RSVD_SEEN itself. -/
def Obligations.FlagsChangeOnlyByTheirOwnEvents : Prop :=
  (∀ s t : State, step s = .next t →
    (s.rsvdSeen = false →
      (t.rsvdSeen = true ↔ Accepts s ∧ ∃ e, decode (sample s).cmdWord = .error e)) ∧
    (s.rsvdSeen = true → (t.rsvdSeen = false ↔ s.nextInput.rst = true)) ∧
    (s.encState = .idle →
      (t.encState = .xmit ↔ Accepts s ∧ decode (sample s).cmdWord = .ok .refresh ∧ 0 < s.cfg.nEff)) ∧
    (s.encState = .xmit →
      (t.encState = .idle ↔ s.nextInput.rst = true ∨
        (s.phase = .low ∧ s.cnt.toNat ≤ 1 ∧ s.bitIx = 0 ∧ 3 * s.cfg.nEff ≤ s.byteIx.toNat + 1)))) ∧
  (∀ (s t : State) (b : Bool), step s = .next t → ¬(Accepts s ∧ decode (sample s).cmdWord = .ok .getstat) →
    ∃ c, step { s with rsvdSeen := b } = .next { t with rsvdSeen := c })

/-! ### Colour -/

/-- R153: the zero-value override, whatever the sector function. -/
def Obligations.ZeroValueIsBlack : Prop :=
  ∀ (cfg : Config) (hue : BitVec 16) (sat : Byte), hsvToRgb cfg hue sat 0 = ⟨0, 0, 0⟩

/-- R155: the three properties of every legal sector function, and the default has them. -/
def Obligations.LegalSectorFunctionsPegAChannel : Prop :=
  (∀ cfg : Config, cfg.legal = true →
    (∀ hue sat val, (hsvToRgb cfg hue sat val).maxChannel ≤ 255) ∧
    (∀ h < 1536, (hsvToRgb cfg (BitVec.ofNat 16 h) 255 255).maxChannel = 255) ∧
    (∀ hue sat, hsvToRgb cfg hue sat 0 = ⟨0, 0, 0⟩)) ∧
  (∀ cfg : Config, cfg.sectorOverrides = [] → cfg.sectorFnLegal = true)

/-- R156: bounds of the default sector function. -/
def Obligations.DefaultChannelsStayBetweenFloorAndTop : Prop :=
  ∀ (cfg : Config) (hue : BitVec 16) (sat val : Byte), cfg.sectorOverrides = [] → 1 ≤ val.toNat →
    let a := sectorArgs hue sat val
    let c := hsvToRgb cfg hue sat val
    1 ≤ a.chroma →
      a.chroma * a.off / 256 ≤ a.chroma - 1 ∧ a.m + a.chroma * a.off / 256 ≤ a.hi ∧ a.lo = a.m ∧ a.m ≤ a.hi ∧
      a.chroma * a.off ≤ 65280 ∧
      (∀ v ∈ [c.r.toNat, c.g.toNat, c.b.toNat], a.lo ≤ v ∧ v ≤ a.hi) ∧ a.hi ≤ 255

/-- R157: the corner cases and the example of `hsvToRgb`, with the default sector function. -/
def Obligations.HsvCornerCases : Prop :=
  ∀ cfg : Config, cfg.sectorOverrides = [] →
    (∀ hue sat, hsvToRgb cfg hue sat 0 = ⟨0, 0, 0⟩) ∧
    (∀ hue val, hsvToRgb cfg hue 0 val = ⟨val, val, val⟩) ∧
    (∀ (hue : BitVec 16) (val : Byte), 1 ≤ val.toNat →
      let a := sectorArgs hue 0 val
      a.chroma = (val.toNat + 1) / 256 ∧ (a.chroma = 1 ↔ val = 255) ∧ (val = 255 → a.m = 255)) ∧
    (∀ hue sat val, hsvToRgb cfg hue sat val = hsvToRgb cfg (BitVec.ofNat 16 (hue.toNat % 1536)) sat val) ∧
    hsvToRgb cfg 255 255 255 = hsvToRgb cfg 256 255 255 ∧
    sectorArgs 128 128 128 = { sector := 0, off := 128, chroma := 65, m := 64, hi := 128 } ∧
    (sectorArgs 128 128 128).up = 96 ∧ hsvToRgb cfg 128 128 128 = ⟨128, 96, 64⟩

/-- R162, with the bounds of R160 and R161: composition truncates, commutes, and full brightness does not pass a channel
through. -/
def Obligations.CompositionCornerCases : Prop :=
  (∀ o pb g, (composePP o pb g).toNat = o.toNat * pb.toNat * g.toNat / 65536 ∧ (composePP o pb g).toNat ≤ 253) ∧
  (∀ o g, (composeG o g).toNat = o.toNat * g.toNat / 256 ∧ (composeG o g).toNat ≤ 254) ∧
  (∀ a b, composePP 0 a b = 0 ∧ composePP a 0 b = 0 ∧ composePP a b 0 = 0 ∧ composeG 0 a = 0 ∧ composeG a 0 = 0) ∧
  (∀ a b c, composePP a b c = composePP b a c ∧ composePP a b c = composePP a c b ∧ composeG a b = composeG b a) ∧
  (∀ o, (composeG o 128).toNat = o.toNat / 2) ∧
  composePP 255 255 255 = 253 ∧ composeG 255 255 = 254 ∧ composePP 200 255 128 = 99 ∧
  composeG 100 128 = 50 ∧ composeG 150 128 = 75 ∧ composeG 200 128 = 100

/-! ### Pixel-store commands -/

/-- R185, R182, R183: SETGRB, in every mode and range. -/
def Obligations.SetgrbWritesOnePixel : Prop :=
  ∀ (i : Idx) (p : Bool) (pb g r b : Byte) (s : State), s.cfg.storesPlaced = true → s.mem.wf = true →
    (s.cfg.colorMode ≠ .grb ∨ s.cfg.nEff ≤ i.toNat → exec (.setgrb i p pb g r b) s = .next s) ∧
    (s.cfg.colorMode = .grb → i.toNat < s.cfg.nEff → s.cfg.brightMode = .global →
      ∃ t, exec (.setgrb i p pb g r b) s = .next t ∧ SameRegs s t ∧
        UnchangedOutside (bytesFrom s .scaled (3 * i.toNat) 3) s t ∧
        t.byteAt .scaled (3 * i.toNat) = composeG g s.gbright ∧
        t.byteAt .scaled (3 * i.toNat + 1) = composeG r s.gbright ∧
        t.byteAt .scaled (3 * i.toNat + 2) = composeG b s.gbright) ∧
    (s.cfg.colorMode = .grb → i.toNat < s.cfg.nEff → s.cfg.brightMode = .perpix →
      ∃ t, exec (.setgrb i p pb g r b) s = .next t ∧ SameRegs s t ∧
        UnchangedOutside (bytesFrom s .scaled (3 * i.toNat) 3 ++ bytesFrom s .orig (3 * i.toNat) 3 ++
          (if p then bytesFrom s .pb i.toNat 1 else [])) s t ∧
        t.byteAt .orig (3 * i.toNat) = g ∧ t.byteAt .orig (3 * i.toNat + 1) = r ∧
        t.byteAt .orig (3 * i.toNat + 2) = b ∧
        t.byteAt .pb i.toNat = (if p then pb else s.byteAt .pb i.toNat) ∧
        ∀ c < 3, t.byteAt .scaled (3 * i.toNat + c) =
          composePP (t.byteAt .orig (3 * i.toNat + c)) (t.byteAt .pb i.toNat) s.gbright)

/-- R186, R184: SETGRBP, in every mode and range; red, green and blue are bits 23:16, 15:8 and 7:0, the top byte is
ignored and PB is kept. -/
def Obligations.SetgrbpWritesOnePixel : Prop :=
  ∀ (i : Idx) (w : Word32) (s : State), s.cfg.storesPlaced = true → s.mem.wf = true →
    let r : Byte := w.extractLsb' 16 8
    let g : Byte := w.extractLsb' 8 8
    let b : Byte := w.extractLsb' 0 8
    (s.cfg.colorMode ≠ .grb ∨ s.cfg.nEff ≤ i.toNat → exec (.setgrbp i w) s = .next s) ∧
    (s.cfg.colorMode = .grb → i.toNat < s.cfg.nEff → s.cfg.brightMode = .global →
      ∃ t, exec (.setgrbp i w) s = .next t ∧ SameRegs s t ∧
        UnchangedOutside (bytesFrom s .scaled (3 * i.toNat) 3) s t ∧
        t.byteAt .scaled (3 * i.toNat) = composeG g s.gbright ∧
        t.byteAt .scaled (3 * i.toNat + 1) = composeG r s.gbright ∧
        t.byteAt .scaled (3 * i.toNat + 2) = composeG b s.gbright) ∧
    (s.cfg.colorMode = .grb → i.toNat < s.cfg.nEff → s.cfg.brightMode = .perpix →
      ∃ t, exec (.setgrbp i w) s = .next t ∧ SameRegs s t ∧
        UnchangedOutside (bytesFrom s .scaled (3 * i.toNat) 3 ++ bytesFrom s .orig (3 * i.toNat) 3) s t ∧
        t.byteAt .orig (3 * i.toNat) = g ∧ t.byteAt .orig (3 * i.toNat + 1) = r ∧
        t.byteAt .orig (3 * i.toNat + 2) = b ∧
        ∀ c < 3, t.byteAt .scaled (3 * i.toNat + c) =
          composePP (t.byteAt .orig (3 * i.toNat + c)) (s.byteAt .pb i.toNat) s.gbright)

/-- R187: SETGRB and SETGRBP twice leave the bytes that once leaves. -/
def Obligations.SettingTwiceIsSettingOnce : Prop :=
  ∀ (c : Instr) (s t : State), (∃ i p pb g r b, c = .setgrb i p pb g r b) ∨ (∃ i w, c = .setgrbp i w) →
    s.cfg.storesPlaced = true → s.mem.wf = true → exec c s = .next t →
    ∃ u, exec c t = .next u ∧ SameRegs t u ∧ ∀ l, u.mem.readLoc l = t.mem.readLoc l

/-- R190: SETHSV, in every mode and range: the raw bytes, unscaled and unreduced. -/
def Obligations.SethsvWritesTheRawSlot : Prop :=
  ∀ (i : Idx) (hue : BitVec 16) (sat val : Byte) (s : State), s.cfg.storesPlaced = true → s.mem.wf = true →
    (s.cfg.colorMode ≠ .hsv ∨ s.cfg.nEff ≤ i.toNat → exec (.sethsv i hue sat val) s = .next s) ∧
    (s.cfg.colorMode = .hsv → i.toNat < s.cfg.nEff →
      ∃ t, exec (.sethsv i hue sat val) s = .next t ∧ SameRegs s t ∧
        UnchangedOutside (bytesFrom s .scaled (4 * i.toNat) 4) s t ∧
        t.byteAt .scaled (4 * i.toNat) = hue.extractLsb' 0 8 ∧
        t.byteAt .scaled (4 * i.toNat + 1) = hue.extractLsb' 8 8 ∧
        t.byteAt .scaled (4 * i.toNat + 2) = sat ∧ t.byteAt .scaled (4 * i.toNat + 3) = val)

/-- R191, R192: SETHSVP, in every mode and range, with the bytes of the packed word. -/
def Obligations.SethsvpWritesTheRawSlot : Prop :=
  ∀ (i : Idx) (w : Word32) (s : State), s.cfg.storesPlaced = true → s.mem.wf = true →
    (s.cfg.colorMode ≠ .hsv ∨ s.cfg.nEff ≤ i.toNat → exec (.sethsvp i w) s = .next s) ∧
    (s.cfg.colorMode = .hsv → i.toNat < s.cfg.nEff →
      ∃ t, exec (.sethsvp i w) s = .next t ∧ SameRegs s t ∧
        UnchangedOutside (bytesFrom s .scaled (4 * i.toNat) 4) s t ∧
        t.byteAt .scaled (4 * i.toNat) = w.extractLsb' 16 8 ∧
        t.byteAt .scaled (4 * i.toNat + 1) = w.extractLsb' 24 8 ∧
        t.byteAt .scaled (4 * i.toNat + 2) = w.extractLsb' 8 8 ∧
        t.byteAt .scaled (4 * i.toNat + 3) = w.extractLsb' 0 8)

/-- R200: SETPB, in every mode and range. A legal block is not HSV with PERPIX (R10), so GRB mode is a premise of the
writing clause. -/
def Obligations.SetpbWritesOneBrightness : Prop :=
  ∀ (i : Idx) (v : Byte) (s : State), s.cfg.modesLegal = true → s.cfg.storesPlaced = true → s.mem.wf = true →
    (s.cfg.brightMode ≠ .perpix ∨ s.cfg.nEff ≤ i.toNat → exec (.setpb i v) s = .next s) ∧
    (s.cfg.brightMode = .perpix → i.toNat < s.cfg.nEff →
      ∃ t, exec (.setpb i v) s = .next t ∧ SameRegs s t ∧
        UnchangedOutside (bytesFrom s .scaled (3 * i.toNat) 3 ++ bytesFrom s .pb i.toNat 1) s t ∧
        t.byteAt .pb i.toNat = v ∧
        ∀ c < 3, t.byteAt .scaled (3 * i.toNat + c) = composePP (s.byteAt .orig (3 * i.toNat + c)) v s.gbright)

/-- R201: GETPB answers the brightness byte, or 0 out of range or without a PB store. -/
def Obligations.GetpbAnswersTheBrightness : Prop :=
  ∀ (i : Idx) (s : State), exec (.getpb i) s = .next { s with
    rspValid := true
    rspData := if s.cfg.brightMode = .perpix ∧ i.toNat < s.cfg.nEff then (s.byteAt .pb i.toNat).setWidth 32 else 0 }

/-- R205: CLRALL zeroes every SCALED byte and, in PERPIX mode, every ORIG byte; PB and all else are kept. -/
def Obligations.ClrallZeroesTheColours : Prop :=
  ∀ s : State, s.cfg.storesPlaced = true → s.mem.wf = true →
    ∃ t, exec .clrall s = .next t ∧ SameRegs s t ∧
      UnchangedOutside (bytesFrom s .scaled 0 (s.cfg.size .scaled) ++ bytesFrom s .orig 0 (s.cfg.size .orig)) s t ∧
      (∀ a < s.cfg.size .scaled, t.byteAt .scaled a = 0) ∧ (∀ a < s.cfg.size .orig, t.byteAt .orig a = 0)

/-- R206: CLRONE zeroes one pixel's SCALED bytes and, in PERPIX mode, its ORIG bytes; out of range it is a no-op. -/
def Obligations.ClroneZeroesOnePixel : Prop :=
  ∀ (i : Idx) (s : State), s.cfg.storesPlaced = true → s.mem.wf = true →
    (s.cfg.nEff ≤ i.toNat → exec (.clrone i) s = .next s) ∧
    (i.toNat < s.cfg.nEff →
      ∃ t, exec (.clrone i) s = .next t ∧ SameRegs s t ∧
        UnchangedOutside (bytesFrom s .scaled (s.cfg.bpp * i.toNat) s.cfg.bpp ++
          (if s.cfg.brightMode = .perpix then bytesFrom s .orig (3 * i.toNat) 3 else [])) s t ∧
        (∀ c < s.cfg.bpp, t.byteAt .scaled (s.cfg.bpp * i.toNat + c) = 0) ∧
        (s.cfg.brightMode = .perpix → ∀ c < 3, t.byteAt .orig (3 * i.toNat + c) = 0))

/-- R210: SETGB sets GBRIGHT and nothing else, in the zero-pixel state nothing at all. -/
def Obligations.SetgbSetsGbrightOnly : Prop :=
  ∀ (v : Byte) (s : State),
    exec (.setgb v) s = .next { s with gbright := if s.cfg.zeroPixel = true then s.gbright else v }

/-- R220: RDBUF answers one SCALED byte, or 0 at or beyond SCALED_SIZE. -/
def Obligations.RdbufAnswersOneByte : Prop :=
  ∀ (a : Word32) (s : State), exec (.rdbuf a) s = .next { s with
    rspValid := true
    rspData := if a.toNat < s.cfg.size .scaled then (s.byteAt .scaled a.toNat).setWidth 32 else 0 }

/-- R181: an index out of range changes no state and a read answers 0. -/
def Obligations.OutOfRangeIndexIsANoOp : Prop :=
  ∀ (i : Idx) (s : State), s.cfg.nEff ≤ i.toNat →
    (∀ p pb g r b, exec (.setgrb i p pb g r b) s = .next s) ∧ (∀ w, exec (.setgrbp i w) s = .next s) ∧
    (∀ hue sat val, exec (.sethsv i hue sat val) s = .next s) ∧ (∀ w, exec (.sethsvp i w) s = .next s) ∧
    (∀ v, exec (.setpb i v) s = .next s) ∧ exec (.clrone i) s = .next s ∧
    exec (.getpb i) s = .next { s with rspValid := true, rspData := 0 }

/-- A command writes store bytes only: in CALLER mode no external byte outside the three ranges changes (R84, R336). -/
def Obligations.CommandsWriteOnlyStoreBytes : Prop :=
  ∀ (i : Instr) (s t : State) (l : Loc), exec i s = .next t →
    (∀ x a, a < s.cfg.size x → l ≠ loc s.cfg x a) → t.mem.readLoc l = s.mem.readLoc l

/-! ### Device commands -/

/-- R330, R331: NOP and BEGIN change nothing. -/
def Obligations.NopAndBeginChangeNothing : Prop :=
  ∀ s : State, exec .nop s = .next s ∧ exec .beginCmd s = .next s

/-- R332: GETCNT answers N_eff. -/
def Obligations.GetcntAnswersThePixelCount : Prop :=
  ∀ s : State, exec .getcnt s = .next { s with rspValid := true, rspData := BitVec.ofNat 32 s.cfg.nEff } ∧
    (s.cfg.zeroPixel = true → s.cfg.nEff = 0) ∧ (s.cfg.zeroPixel = false → s.cfg.nEff = s.cfg.n)

/-- R334, R33: GETSTAT answers STATUS, bit by bit, and clears nothing. -/
def Obligations.GetstatAnswersTheStatusBits : Prop :=
  ∀ s : State, ∃ st : Word32, exec .getstat s = .next { s with rspValid := true, rspData := st } ∧
    (st.getLsbD 0 = true ↔ ∃ c, (s.cfg.clkHz, c) ∈ s.cfg.timingTable) ∧ st.getLsbD 1 = s.rsvdSeen ∧
    (st.getLsbD 2 = true ↔ s.cfg.memMode = .engine ∧ s.cfg.allocOk = false) ∧
    (st.getLsbD 3 = true ↔ s.cfg.colorMode = .hsv) ∧ (st.getLsbD 4 = true ↔ s.cfg.brightMode = .perpix) ∧
    (st.getLsbD 5 = true ↔ s.cfg.memMode = .caller) ∧ ∀ k, 6 ≤ k → st.getLsbD k = false

/-- R333: the zero-pixel facade. -/
def Obligations.ZeroPixelBlockIsInert : Prop :=
  ∀ s : State, s.cfg.zeroPixel = true →
    (∀ i, isRead i = false → exec i s = .next s) ∧
    (∀ i, exec (.getpb i) s = .next { s with rspValid := true, rspData := 0 }) ∧
    (∀ a, exec (.rdbuf a) s = .next { s with rspValid := true, rspData := 0 }) ∧
    exec .getcnt s = .next { s with rspValid := true, rspData := 0 } ∧
    ∃ st : Word32, exec .getstat s = .next { s with rspValid := true, rspData := st } ∧ st.getLsbD 2 = true

/-! ### The frame encoder -/

/-- R40: the line is high exactly in the high phase of a bit-frame, and low idle and in reset. -/
def Obligations.LineIsHighExactlyInTheHighPhase : Prop :=
  ∀ s : State, s.dout = true ↔ s.rst = false ∧ s.encState = .xmit ∧ s.phase = .high


/-- R241: accepting a REFRESH. `raced` is the model's own field (log 8): a frame starts with no byte raced. -/
def Obligations.RefreshStartsAFrame : Prop :=
  ∀ s : State,
    (s.cfg.nEff = 0 → exec .refresh s = .next s) ∧
    (0 < s.cfg.nEff → ∃ t, exec .refresh s = .next t ∧
      t = { s with
        encState := .xmit, phase := .start, cnt := BitVec.ofNat 16 s.cfg.startLat, byteIx := 0, bitIx := 7
        gsnap := s.gbright, raced := []
        cur := match s.cfg.colorMode with
          | .grb => s.cur
          | .hsv => grb (hsvColour s.cfg (s.byteAt .scaled 1 ++ s.byteAt .scaled 0) (s.byteAt .scaled 2)
              (s.byteAt .scaled 3) s.gbright) } ∧
      (s.rst = false → t.busy = true))

/-- R306: a delay of D cycles. A phase whose `CNT` is D lasts exactly D cycles; then the start phase gives way to the
high phase of the first bit, the high phase to the low phase, and the low phase to the next bit's high phase or the end
of the frame. The host does not reset, and whatever it writes or presents meanwhile neither lengthens nor shortens the
delay (R265). -/
def Obligations.DelayLastsExactlyItsCount : Prop :=
  ∀ s : State, s.encState = .xmit → 1 ≤ s.cnt.toNat → 0 < s.cfg.nEff → NoReset s →
    (∀ k < s.cnt.toNat, ∃ t, after k s = .next t ∧ t.cnt.toNat = s.cnt.toNat - k ∧ t.phase = s.phase ∧
      t.encState = .xmit ∧ t.byteIx = s.byteIx ∧ t.bitIx = s.bitIx ∧ t.shreg = s.shreg) ∧
    ∃ u, after s.cnt.toNat s = .next u ∧
      match s.phase with
      | .start => u.phase = .high ∧ u.byteIx = 0 ∧ u.bitIx = 7
      | .high => u.phase = .low ∧ u.bitIx = s.bitIx ∧ u.byteIx = s.byteIx
      | .low => u.encState = .idle ∨ (u.encState = .xmit ∧ u.phase = .high)

/-- R260: the line during one bit-frame, from the cycle in which its high phase starts, under every host that does not
reset (R265). -/
def Obligations.BitFrameIsHighThenLow : Prop :=
  ∀ s : State, s.encState = .xmit → s.rst = false → s.phase = .high → s.cfg.timingLegal = true →
    s.cnt.toNat = s.cfg.highCycles s.currentBit → NoReset s →
    ∀ k < s.cfg.highCycles s.currentBit + s.cfg.lowCycles s.currentBit,
      ∃ t, after k s = .next t ∧ t.dout = decide (k < s.cfg.highCycles s.currentBit)

/-- R242, R243, R261: an accepted REFRESH drives the line, cycle by cycle from its acceptance, with the waveform of the
frame's bits, busy all the while and whatever the host presents on the command port; then the line is low, the port is
ready, and the stores, GBRIGHT and STATUS are as they were. Both colour modes, every configuration. -/
def Obligations.FrameDrivesItsWaveform : Prop :=
  ∀ s t : State, Inv s → ReadyToSend s → 0 < s.cfg.nEff → exec .refresh s = .next t →
    let bits := s.frameBits s.gbright
    (frameWave s.cfg bits).length = frameCycles s.cfg bits ∧
    (∀ (k : Nat) (b : Bool), (frameWave s.cfg bits)[k]? = some b →
      ∃ u, after k t = .next u ∧ u.dout = b ∧ u.busy = true) ∧
    ∃ u, after (frameCycles s.cfg bits) t = .next u ∧ u.dout = false ∧ u.busy = false ∧ u.cmdReady = true ∧
      u.mem = s.mem ∧ u.gbright = s.gbright ∧ u.status = s.status

/-- R254: the fused HSV path drives the line as the direct path would from a buffer that holds the converted colours,
with the same counts. -/
def Obligations.FusedPathEqualsDirectPath : Prop :=
  ∀ s d ts td : State, Inv s → Inv d → ReadyToSend s → ReadyToSend d →
    s.cfg.colorMode = .hsv → d.cfg.colorMode = .grb → 0 < s.cfg.nEff → d.cfg.nEff = s.cfg.nEff →
    d.cfg.counts = s.cfg.counts → d.cfg.startLat = s.cfg.startLat →
    (∀ k < s.cfg.nEff, ∀ q < 3, d.byteAt .scaled (3 * k + q) =
      colourByte (slotColour s.cfg (s.rawSlot k) s.gbright) q) →
    exec .refresh s = .next ts → exec .refresh d = .next td →
    ∀ k ≤ frameCycles s.cfg (s.frameBits s.gbright),
      ∃ us ud, after k ts = .next us ∧ after k td = .next ud ∧ us.dout = ud.dout ∧ us.busy = ud.busy

/-- R267: the frame is a function of the stores, GSNAP and the configuration alone. -/
def Obligations.EqualStoresSendEqualFrames : Prop :=
  ∀ s d ts td : State, Inv s → Inv d → ReadyToSend s → ReadyToSend d → d.cfg = s.cfg → d.gbright = s.gbright →
    0 < s.cfg.nEff → (∀ a < s.cfg.size .scaled, d.byteAt .scaled a = s.byteAt .scaled a) →
    exec .refresh s = .next ts → exec .refresh d = .next td →
    ∀ k ≤ frameCycles s.cfg (s.frameBits s.gbright),
      ∃ us ud, after k ts = .next us ∧ after k td = .next ud ∧ us.dout = ud.dout ∧ us.busy = ud.busy

/-- R251, with R252's clear: the load of pixel k's first byte takes the colour that was being computed and latches the
next pixel's raw bytes and colour, which is 0 where the raw value byte is 0; for the last pixel nothing is latched. The
host raced no byte of the slot (R88); `NXT_RAW`'s layout is log 13. -/
def Obligations.NextColourIsLatchedAtThePixelBoundary : Prop :=
  (∀ (k : Nat) (s : State), s.cfg.colorMode = .hsv → k + 1 < s.cfg.nEff → s.slotRaced (k + 1) = false →
    ∃ t, load (3 * k) s = .next t ∧
      t.cur = (if k = 0 then s.cur else s.nxt) ∧ t.shreg = t.cur.extractLsb' 16 8 ∧
      t.nxtRaw = s.rawSlot (k + 1) ∧
      t.nxt = grb (hsvColour s.cfg (s.byteAt .scaled (4 * (k + 1) + 1) ++ s.byteAt .scaled (4 * (k + 1)))
        (s.byteAt .scaled (4 * (k + 1) + 2)) (s.byteAt .scaled (4 * (k + 1) + 3)) s.gsnap) ∧
      (s.byteAt .scaled (4 * (k + 1) + 3) = 0 → t.nxt = 0)) ∧
  (∀ (k : Nat) (s : State), s.cfg.colorMode = .hsv → k + 1 = s.cfg.nEff →
    ∃ t, load (3 * k) s = .next t ∧ t.cur = (if k = 0 then s.cur else s.nxt) ∧
      t.nxtRaw = s.nxtRaw ∧ t.nxt = s.nxt)

/-- R88. In GRB mode a byte the host wrote during the frame is sent as a free draw, and every other byte as the store
holds it. In HSV mode a pixel one of whose bytes the host wrote before its slot is latched has a free draw for its whole
colour; the colour already computed is sent as it is. A host write during a frame marks the byte. The free draws, their
counter and the marks are log 8. -/
def Obligations.RacedByteIsAFreeDraw : Prop :=
  (∀ (j : Nat) (s : State), s.cfg.colorMode = .grb → j < s.cfg.size .scaled →
    ∃ t, load j s = .next t ∧
      t.shreg = (if s.isRaced j = true then Config.freeByte (4 * s.draws) else s.byteAt .scaled j) ∧
      t.draws = (if s.isRaced j = true then s.draws + 1 else s.draws) ∧ t.mem = s.mem) ∧
  (∀ (k : Nat) (s : State), s.cfg.colorMode = .hsv → k + 1 < s.cfg.nEff → s.slotRaced (k + 1) = true →
    ∃ t, load (3 * k) s = .next t ∧
      t.nxt = Config.freeColour s.draws ∧ t.draws = s.draws + 1 ∧
      t.cur = (if k = 0 then s.cur else s.nxt) ∧ t.shreg = t.cur.extractLsb' 16 8 ∧ t.mem = s.mem) ∧
  (∀ (s : State) (k q : Nat), q < 4 → s.isRaced (4 * k + q) = true → s.slotRaced k = true) ∧
  (∀ (s : State) (a : Word32) (v : Byte) (j : Nat), s.cfg.memMode = .caller → s.encState = .xmit →
    a.toNat = s.cfg.base .scaled + j → (hostWrite s (a, v)).isRaced j = true)

/-- R87: after the host's writes before an edge, a store byte holds at that edge what the host wrote to it last; a byte
it did not write, GBRIGHT and RSVD_SEEN are as before. -/
def Obligations.HostWriteIsSeenAtTheNextEdge : Prop :=
  ∀ s : State, s.mem.wf = true →
    (∀ (x : Store) (a : Nat) (es fs : List (Word32 × Byte)) (e : Word32 × Byte), s.cfg.memMode = .caller →
      s.nextInput.writes = es ++ e :: fs → (∀ f ∈ fs, f.1 ≠ e.1) → e.1.toNat = s.cfg.base x + a →
      (sample s).byteAt x a = e.2) ∧
    UnchangedOutside (s.nextInput.writes.map fun e => .ext e.1.toNat) s (sample s) ∧
    (sample s).gbright = s.gbright ∧ (sample s).rsvdSeen = s.rsvdSeen

/-! ### Timing -/

/-- R302: the counts are the table's for a rate that is a key, and the best-effort formula's otherwise, which CAL tells
apart. -/
def Obligations.CountsComeFromTheTableOrTheFormula : Prop :=
  (∀ (cfg : Config) (c : Counts), cfg.timingTable.lookup cfg.clkHz = some c → cfg.counts = c ∧ cfg.cal = true) ∧
  ∀ cfg : Config, (∀ e ∈ cfg.timingTable, e.1 ≠ cfg.clkHz) → cfg.cal = false ∧
    cfg.counts = ⟨max 1 ((cfg.t0hNs * cfg.clkHz + 1000000000 - 1) / 1000000000),
      max 1 ((cfg.t0lNs * cfg.clkHz + 1000000000 - 1) / 1000000000),
      max 1 ((cfg.t1hNs * cfg.clkHz + 1000000000 - 1) / 1000000000),
      max 1 ((cfg.t1lNs * cfg.clkHz + 1000000000 - 1) / 1000000000)⟩


/-- R303: every entry of the default table is the formula of R302 applied to the nominal durations. -/
def Obligations.DefaultTableIsTheFormula : Prop :=
  Config.defaultTimingTable =
    [(40000000, ⟨9, 40, 32, 14⟩), (48000000, ⟨11, 48, 39, 17⟩), (80000000, ⟨18, 80, 64, 28⟩)] ∧
  ∀ e ∈ Config.defaultTimingTable, e.2 = ⟨max 1 ((220 * e.1 + 1000000000 - 1) / 1000000000),
    max 1 ((1000 * e.1 + 1000000000 - 1) / 1000000000), max 1 ((800 * e.1 + 1000000000 - 1) / 1000000000),
    max 1 ((350 * e.1 + 1000000000 - 1) / 1000000000)⟩

/-- R256: with legal counts the three sub-windows of the HSV path give the bit-frame of R260. -/
def Obligations.SubWindowsGiveTheBitFrame : Prop :=
  ∀ (cfg : Config) (b : Bool), cfg.timingLegal = true → subWindowWave cfg b = bitWave cfg b

/-- R421: bounds of a frame's duration, and the figures at 80 MHz. -/
def Obligations.FrameDurationIsBounded : Prop :=
  (∀ (s : State) (g : Byte),
    let c := s.cfg.counts
    let p1 := c.t1h + c.t1l
    let p0 := c.t0h + c.t0l
    s.cfg.startLat + 24 * s.cfg.nEff * min p1 p0 ≤ frameCycles s.cfg (s.frameBits g) ∧
    frameCycles s.cfg (s.frameBits g) ≤ s.cfg.startLat + 24 * s.cfg.nEff * max p1 p0) ∧
  (let c := Config.default.counts
   c.t1h + c.t1l = 92 ∧ c.t0h + c.t0l = 98 ∧ 1 + 24 * 60 * 92 = 132481 ∧ 1 + 24 * 60 * 98 = 141121)

/-! ### Edges at which no command is accepted, and the host's part of an edge -/

/-- What the host's part of an edge leaves alone: of the state, only the external bytes the host wrote, the marks of its
writes during a frame, `rst`, the command port, `rsp_valid` (low again, R113) and the list of inputs change. Every block
register (R32, R36, R37), STATUS and internal store is as before. The list of inputs is log 4, the port's level log 5,
the marks log 8. -/
def Obligations.SamplingTakesTheHostsActionsOnly : Prop :=
  ∀ s : State,
    sample s = { s with
      mem := (sample s).mem, raced := (sample s).raced, rst := s.nextInput.rst, cmdValid := (sample s).cmdValid
      cmdWord := (sample s).cmdWord, rspValid := false, inputs := s.inputs.tail } ∧
    (sample s).mem.scaled = s.mem.scaled ∧ (sample s).mem.orig = s.mem.orig ∧ (sample s).mem.pb = s.mem.pb ∧
    (sample s).status = s.status ∧
    (s.nextInput.writes = [] → (sample s).mem = s.mem) ∧
    (s.nextInput.writes = [] ∨ s.encState = .idle → (sample s).raced = s.raced) ∧
    match s.nextInput.cmd with
    | .keep => (sample s).cmdValid = s.cmdValid ∧ (sample s).cmdWord = s.cmdWord
    | .drop => (sample s).cmdValid = false ∧ (sample s).cmdWord = s.cmdWord
    | .present w => (sample s).cmdValid = true ∧ (sample s).cmdWord = w

/-- R30, R112: an edge with no frame in flight, `rst` low and no command presented does nothing but take the host's
actions (log 4): the block stays idle with every register, store byte and answer as it was, and `rsp_valid` is low. -/
def Obligations.IdleEdgeChangesNothing : Prop :=
  ∀ s : State, s.encState = .idle → s.nextInput.rst = false → (sample s).cmdValid = false →
    step s = .next (sample s) ∧
    (sample s).encState = .idle ∧ (sample s).gbright = s.gbright ∧ (sample s).rsvdSeen = s.rsvdSeen ∧
    (sample s).rspValid = false ∧ (sample s).rspData = s.rspData ∧ (sample s).cfg = s.cfg ∧
    UnchangedOutside (s.nextInput.writes.map fun e => .ext e.1.toNat) s (sample s)

/-- R265: an accepted frame runs to its end under every host that does not reset, one that writes the stores during the
frame included: `busy` stays high until the frame is over, and that is within the bounds of R421. Bytes the host raced
are free draws (log 8), so only the bounds are the same for every host. -/
def Obligations.FrameRunsToItsEnd : Prop :=
  ∀ s t : State, Inv s → s.encState = .idle → s.rst = false → NoReset s → 0 < s.cfg.nEff →
    exec .refresh s = .next t →
    let p1 := s.cfg.counts.t1h + s.cfg.counts.t1l
    let p0 := s.cfg.counts.t0h + s.cfg.counts.t0l
    ∃ d, s.cfg.startLat + 24 * s.cfg.nEff * min p1 p0 ≤ d ∧ d ≤ s.cfg.startLat + 24 * s.cfg.nEff * max p1 p0 ∧
      (∀ k < d, ∃ u, after k t = .next u ∧ u.busy = true ∧ u.frameActive = true) ∧
      ∃ u, after d t = .next u ∧ u.busy = false ∧ u.dout = false ∧ u.cmdReady = true

/-- An external byte the host never wrote reads 0 in a freshly elaborated block. The value is the model's choice, log 9:
the spec calls such a byte a draw (U4). -/
def Obligations.UnwrittenExternalByteReadsZero : Prop :=
  ∀ (cfg : Config) (ext : List (Word32 × Byte)) (t : State) (a : Nat), elaborate cfg ext = .next t →
    (∀ e ∈ ext, e.1.toNat ≠ a) → t.mem.readLoc (.ext a) = 0
end

