-- ==== Sys2Proof/Laws/Decode.lean ====
section
/-!
SUPPORT. The fields of a packed word, and a word packed from its fields (spec 30_encoding R110).
-/
namespace Sys2Proof.Laws

section pack
variable (op : BitVec 4) (p : BitVec 1) (z : BitVec 3) (idx : Idx) (b8 : Byte) (d : Word32)

/-- The bits of a packed word, field by field (R110). -/
theorem getLsbD_packWord (i : Nat) : (packWord op p z idx b8 d).getLsbD i =
    if i < 32 then d.getLsbD i else if i < 40 then b8.getLsbD (i - 32) else if i < 56 then idx.getLsbD (i - 40)
    else if i < 59 then z.getLsbD (i - 56) else if i < 60 then p.getLsbD (i - 59) else op.getLsbD (i - 60) := by
  change BitVec.getLsbD (w := 4 + 1 + 3 + 16 + 8 + 32) (op ++ p ++ z ++ idx ++ b8 ++ d) i = _
  rw [BitVec.getLsbD_append, BitVec.getLsbD_append, BitVec.getLsbD_append, BitVec.getLsbD_append,
    BitVec.getLsbD_append]
  simp only [Nat.sub_sub, Nat.reduceAdd]
  have h1 : i - 32 < 8 ↔ i < 40 := by omega
  have h2 : i - 40 < 16 ↔ i < 56 := by omega
  have h3 : i - 56 < 3 ↔ i < 59 := by omega
  have h4 : i - 59 < 1 ↔ i < 60 := by omega
  simp only [h1, h2, h3, h4]

@[simp] theorem fieldOp_packWord : fieldOp (packWord op p z idx b8 d) = op := by
  ext i hi
  rw [fieldOp, BitVec.getElem_extractLsb', getLsbD_packWord, if_neg (by omega), if_neg (by omega), if_neg (by omega),
    if_neg (by omega), if_neg (by omega), Nat.add_sub_cancel_left, BitVec.getLsbD_eq_getElem]
@[simp] theorem fieldP_packWord : fieldP (packWord op p z idx b8 d) = p := by
  ext i hi
  rw [fieldP, BitVec.getElem_extractLsb', getLsbD_packWord, if_neg (by omega), if_neg (by omega), if_neg (by omega),
    if_neg (by omega), if_pos (by omega), Nat.add_sub_cancel_left, BitVec.getLsbD_eq_getElem]
@[simp] theorem fieldZ_packWord : fieldZ (packWord op p z idx b8 d) = z := by
  ext i hi
  rw [fieldZ, BitVec.getElem_extractLsb', getLsbD_packWord, if_neg (by omega), if_neg (by omega), if_neg (by omega),
    if_pos (by omega), Nat.add_sub_cancel_left, BitVec.getLsbD_eq_getElem]
@[simp] theorem fieldIdx_packWord : fieldIdx (packWord op p z idx b8 d) = idx := by
  ext i hi
  rw [fieldIdx, BitVec.getElem_extractLsb', getLsbD_packWord, if_neg (by omega), if_neg (by omega), if_pos (by omega),
    Nat.add_sub_cancel_left, BitVec.getLsbD_eq_getElem]
@[simp] theorem fieldB8_packWord : fieldB8 (packWord op p z idx b8 d) = b8 := by
  ext i hi
  rw [fieldB8, BitVec.getElem_extractLsb', getLsbD_packWord, if_neg (by omega), if_pos (by omega),
    Nat.add_sub_cancel_left, BitVec.getLsbD_eq_getElem]
@[simp] theorem fieldD32_packWord : fieldD32 (packWord op p z idx b8 d) = d := by
  ext i hi
  rw [fieldD32, BitVec.getElem_extractLsb', getLsbD_packWord, if_pos (by omega), Nat.zero_add,
    BitVec.getLsbD_eq_getElem]

end pack

/-- A word is packed from its own fields. -/
theorem packWord_fields (w : Word64) :
    packWord (fieldOp w) (fieldP w) (fieldZ w) (fieldIdx w) (fieldB8 w) (fieldD32 w) = w := by
  apply BitVec.eq_of_getLsbD_eq
  intro i hi
  rw [getLsbD_packWord]
  simp only [fieldD32, fieldB8, fieldIdx, fieldZ, fieldP, fieldOp, BitVec.getLsbD_extractLsb']
  repeat' split
  all_goals simp (disch := omega) only [decide_eq_true, Bool.true_and, Nat.add_sub_cancel', Nat.zero_add]

end Sys2Proof.Laws
end

