-- ==== Sys2Proof/Laws/Memory.lean ====
section
/-!
SUPPORT. The laws of the byte maps: reading after writing, the canonical form, and the same for locations.
-/
namespace Sys2Proof.Laws
open Sys2Proof.Machine

/-! ### One map -/

theorem memory_wf_cons {b : Byte} {k : Nat} {v : Byte} {t : Memory} :
    Memory.wf b ((k, v) :: t) = true ↔ v ≠ b ∧ (∀ c ∈ t, k < c.1) ∧ Memory.wf b t = true := by
  simp only [Memory.wf, Bool.and_eq_true, bne_iff_ne, List.all_eq_true, decide_eq_true_eq, and_assoc]

/-- An address below every listed one reads as unlisted. -/
theorem memory_read_below {b : Byte} {t : Memory} {a : Nat} (h : ∀ c ∈ t, a < c.1) : Memory.read b t a = b := by
  induction t with
  | nil => rfl
  | cons c t ih =>
    have hc := h c (by simp)
    simp only [Memory.read]
    rw [if_neg (by omega)]
    exact ih fun d hd => h d (by simp [hd])

/-- A write leaves every other address alone. -/
theorem memory_read_write_ne {b v : Byte} {m : Memory} {a a' : Nat} (h : a' ≠ a) :
    Memory.read b (Memory.write b a v m) a' = Memory.read b m a' := by
  induction m with
  | nil => by_cases hv : v = b <;> simp [Memory.write, Memory.read, hv, h]
  | cons c t ih =>
    obtain ⟨k, w⟩ := c
    simp only [Memory.write]
    split
    · split <;> simp [Memory.read, h]
    · split
      · next h1 h2 => subst h2; split <;> simp [Memory.read, h]
      · simp only [Memory.read, ih]

/-- What is listed after a write was listed before or is the byte written. -/
theorem memory_mem_write {b v : Byte} {m : Memory} {a : Nat} {c : Host.Cell}
    (h : c ∈ Memory.write b a v m) : (c = (a, v) ∧ v ≠ b) ∨ c ∈ m := by
  induction m with
  | nil =>
    simp only [Memory.write] at h
    split at h
    · simp at h
    · next hv => exact .inl ⟨by simpa using h, hv⟩
  | cons d t ih =>
    obtain ⟨k, w⟩ := d
    simp only [Memory.write] at h
    split at h
    · split at h
      · exact .inr h
      · next hv =>
        rcases List.mem_cons.1 h with h | h
        · exact .inl ⟨h, hv⟩
        · exact .inr h
    · split at h
      · split at h
        · exact .inr (List.mem_cons_of_mem _ h)
        · next hv =>
          rcases List.mem_cons.1 h with h | h
          · exact .inl ⟨h, hv⟩
          · exact .inr (List.mem_cons_of_mem _ h)
      · rcases List.mem_cons.1 h with h | h
        · exact .inr (by simp [h])
        · rcases ih h with h | h
          · exact .inl h
          · exact .inr (List.mem_cons_of_mem _ h)

/-- A read gives what was written last. -/
theorem memory_read_write_same {b v : Byte} {m : Memory} {a : Nat} (hm : Memory.wf b m = true) :
    Memory.read b (Memory.write b a v m) a = v := by
  induction m with
  | nil => by_cases hv : v = b <;> simp [Memory.write, Memory.read, hv]
  | cons c t ih =>
    obtain ⟨k, w⟩ := c
    obtain ⟨-, hk, ht⟩ := memory_wf_cons.1 hm
    simp only [Memory.write]
    split
    · next hlt =>
      split
      · next hv =>
        rw [hv]
        apply memory_read_below
        intro d hd
        rcases List.mem_cons.1 hd with rfl | hd
        · exact hlt
        · exact Nat.lt_trans hlt (hk d hd)
      · simp [Memory.read]
    · split
      · next hlt hak =>
        split
        · next hv =>
          rw [hv]
          exact memory_read_below fun d hd => by have := hk d hd; omega
        · simp [Memory.read]
      · next h1 h2 => simp only [Memory.read, if_neg h2, ih ht]

/-- A write keeps the canonical form. -/
theorem memory_wf_write {b v : Byte} {m : Memory} {a : Nat} (hm : Memory.wf b m = true) :
    Memory.wf b (Memory.write b a v m) = true := by
  induction m with
  | nil => by_cases hv : v = b <;> simp [Memory.write, Memory.wf, hv]
  | cons c t ih =>
    obtain ⟨k, w⟩ := c
    obtain ⟨hw, hk, ht⟩ := memory_wf_cons.1 hm
    simp only [Memory.write]
    split
    · next hlt =>
      split
      · exact hm
      · next hv =>
        refine memory_wf_cons.2 ⟨hv, ?_, hm⟩
        intro d hd
        rcases List.mem_cons.1 hd with rfl | hd
        · exact hlt
        · exact Nat.lt_trans hlt (hk d hd)
    · split
      · next hlt hak =>
        split
        · exact ht
        · next hv => exact memory_wf_cons.2 ⟨hv, fun d hd => by have := hk d hd; omega, ht⟩
      · next h1 h2 =>
        refine memory_wf_cons.2 ⟨hw, ?_, ih ht⟩
        intro d hd
        rcases memory_mem_write hd with ⟨rfl, -⟩ | hd
        · show k < a
          omega
        · exact hk d hd

/-- Writing back the byte that is there changes nothing. -/
theorem memory_write_read_self {b : Byte} {m : Memory} {a : Nat} (hm : Memory.wf b m = true) :
    Memory.write b a (Memory.read b m a) m = m := by
  induction m with
  | nil => simp [Memory.write, Memory.read]
  | cons c t ih =>
    obtain ⟨k, w⟩ := c
    obtain ⟨hw, hk, ht⟩ := memory_wf_cons.1 hm
    by_cases hak : a = k
    · subst hak
      simp [Memory.write, Memory.read, hw]
    · by_cases hlt : a < k
      · have hb : Memory.read b t a = b := memory_read_below fun d hd => by have := hk d hd; omega
        simp [Memory.write, Memory.read, hak, hlt, hb]
      · simp [Memory.write, Memory.read, hak, hlt, ih ht]

/-! ### Locations -/

theorem mem_wf_iff {m : Mem} : m.wf = true ↔
    m.scaled.wf 0 = true ∧ m.orig.wf 0 = true ∧ m.pb.wf 255 = true ∧ m.ext.wf 0 = true := by
  simp only [Mem.wf, Bool.and_eq_true, and_assoc]

/-- A read gives what was written last at that location. -/
@[simp] theorem readLoc_writeLoc_same {m : Mem} (hm : m.wf = true) (l : Loc) (v : Byte) :
    (m.writeLoc l v).readLoc l = v := by
  obtain ⟨h1, h2, h3, h4⟩ := mem_wf_iff.1 hm
  rcases l with ⟨_ | _ | _, a⟩ | a
  · exact memory_read_write_same h1
  · exact memory_read_write_same h2
  · exact memory_read_write_same h3
  · exact memory_read_write_same h4

/-- A write leaves every other location alone. -/
theorem readLoc_writeLoc_ne (m : Mem) {l l' : Loc} (v : Byte) (h : l' ≠ l) :
    (m.writeLoc l v).readLoc l' = m.readLoc l' := by
  rcases l with ⟨_ | _ | _, a⟩ | a <;> rcases l' with ⟨_ | _ | _, a'⟩ | a' <;> first
    | rfl
    | exact memory_read_write_ne (by rintro rfl; exact h rfl)

/-- A write keeps the canonical form. -/
theorem mem_wf_writeLoc {m : Mem} (hm : m.wf = true) (l : Loc) (v : Byte) : (m.writeLoc l v).wf = true := by
  obtain ⟨h1, h2, h3, h4⟩ := mem_wf_iff.1 hm
  rcases l with ⟨_ | _ | _, a⟩ | a
  · exact mem_wf_iff.2 ⟨memory_wf_write h1, h2, h3, h4⟩
  · exact mem_wf_iff.2 ⟨h1, memory_wf_write h2, h3, h4⟩
  · exact mem_wf_iff.2 ⟨h1, h2, memory_wf_write h3, h4⟩
  · exact mem_wf_iff.2 ⟨h1, h2, h3, memory_wf_write h4⟩

/-- Writing back the byte that is there changes nothing. -/
theorem writeLoc_readLoc_self {m : Mem} (hm : m.wf = true) (l : Loc) : m.writeLoc l (m.readLoc l) = m := by
  obtain ⟨h1, h2, h3, h4⟩ := mem_wf_iff.1 hm
  rcases l with ⟨_ | _ | _, a⟩ | a
  · simp only [Mem.writeLoc, Mem.readLoc]
    rw [show Loc.blank (.cell .scaled a) = 0 from rfl, memory_write_read_self h1]
  · simp only [Mem.writeLoc, Mem.readLoc]
    rw [show Loc.blank (.cell .orig a) = 0 from rfl, memory_write_read_self h2]
  · simp only [Mem.writeLoc, Mem.readLoc]
    rw [show Loc.blank (.cell .pb a) = 255 from rfl, memory_write_read_self h3]
  · simp only [Mem.writeLoc, Mem.readLoc]
    rw [show Loc.blank (.ext a) = 0 from rfl, memory_write_read_self h4]

/-- Reset leaves canonical maps. -/
theorem mem_wf_resetStores {m : Mem} (hm : m.wf = true) (cfg : Config) : (resetStores cfg m).wf = true := by
  obtain ⟨h1, h2, h3, h4⟩ := mem_wf_iff.1 hm
  unfold resetStores
  split
  · exact mem_wf_iff.2 ⟨rfl, rfl, rfl, h4⟩
  · exact hm

/-- The memory of the reset state is in canonical form. -/
theorem reset_mem_wf : State.reset.mem.wf = true := rfl

end Sys2Proof.Laws
end

