-- ==== Sys2Proof/Laws/State.lean ====
section
/-!
SUPPORT. One lemma per field per named update of the state, true by `rfl`, for `simp`: no later proof unfolds a record
update. `sample` is treated field by field where it does not depend on the input.
-/
namespace Sys2Proof.Laws
open Sys2Proof.Machine

section respond
variable (v : Word32) (s : State)

@[simp] theorem respond_cfg : (respond v s).cfg = s.cfg := rfl
@[simp] theorem respond_mem : (respond v s).mem = s.mem := rfl
@[simp] theorem respond_gbright : (respond v s).gbright = s.gbright := rfl
@[simp] theorem respond_rsvdSeen : (respond v s).rsvdSeen = s.rsvdSeen := rfl
@[simp] theorem respond_encState : (respond v s).encState = s.encState := rfl
@[simp] theorem respond_byteIx : (respond v s).byteIx = s.byteIx := rfl
@[simp] theorem respond_bitIx : (respond v s).bitIx = s.bitIx := rfl
@[simp] theorem respond_phase : (respond v s).phase = s.phase := rfl
@[simp] theorem respond_cnt : (respond v s).cnt = s.cnt := rfl
@[simp] theorem respond_shreg : (respond v s).shreg = s.shreg := rfl
@[simp] theorem respond_gsnap : (respond v s).gsnap = s.gsnap := rfl
@[simp] theorem respond_cur : (respond v s).cur = s.cur := rfl
@[simp] theorem respond_nxt : (respond v s).nxt = s.nxt := rfl
@[simp] theorem respond_nxtRaw : (respond v s).nxtRaw = s.nxtRaw := rfl
@[simp] theorem respond_rspValid : (respond v s).rspValid = true := rfl
@[simp] theorem respond_rspData : (respond v s).rspData = v := rfl
@[simp] theorem respond_rst : (respond v s).rst = s.rst := rfl
@[simp] theorem respond_cmdValid : (respond v s).cmdValid = s.cmdValid := rfl
@[simp] theorem respond_cmdWord : (respond v s).cmdWord = s.cmdWord := rfl
@[simp] theorem respond_inputs : (respond v s).inputs = s.inputs := rfl
@[simp] theorem respond_raced : (respond v s).raced = s.raced := rfl
@[simp] theorem respond_draws : (respond v s).draws = s.draws := rfl

end respond

section recordReserved
variable (s : State)

@[simp] theorem recordReserved_cfg : (recordReserved s).cfg = s.cfg := rfl
@[simp] theorem recordReserved_mem : (recordReserved s).mem = s.mem := rfl
@[simp] theorem recordReserved_gbright : (recordReserved s).gbright = s.gbright := rfl
@[simp] theorem recordReserved_rsvdSeen : (recordReserved s).rsvdSeen = true := rfl
@[simp] theorem recordReserved_encState : (recordReserved s).encState = s.encState := rfl
@[simp] theorem recordReserved_byteIx : (recordReserved s).byteIx = s.byteIx := rfl
@[simp] theorem recordReserved_bitIx : (recordReserved s).bitIx = s.bitIx := rfl
@[simp] theorem recordReserved_phase : (recordReserved s).phase = s.phase := rfl
@[simp] theorem recordReserved_cnt : (recordReserved s).cnt = s.cnt := rfl
@[simp] theorem recordReserved_shreg : (recordReserved s).shreg = s.shreg := rfl
@[simp] theorem recordReserved_gsnap : (recordReserved s).gsnap = s.gsnap := rfl
@[simp] theorem recordReserved_cur : (recordReserved s).cur = s.cur := rfl
@[simp] theorem recordReserved_nxt : (recordReserved s).nxt = s.nxt := rfl
@[simp] theorem recordReserved_nxtRaw : (recordReserved s).nxtRaw = s.nxtRaw := rfl
@[simp] theorem recordReserved_rspValid : (recordReserved s).rspValid = s.rspValid := rfl
@[simp] theorem recordReserved_rspData : (recordReserved s).rspData = s.rspData := rfl
@[simp] theorem recordReserved_rst : (recordReserved s).rst = s.rst := rfl
@[simp] theorem recordReserved_cmdValid : (recordReserved s).cmdValid = s.cmdValid := rfl
@[simp] theorem recordReserved_cmdWord : (recordReserved s).cmdWord = s.cmdWord := rfl
@[simp] theorem recordReserved_inputs : (recordReserved s).inputs = s.inputs := rfl
@[simp] theorem recordReserved_raced : (recordReserved s).raced = s.raced := rfl
@[simp] theorem recordReserved_draws : (recordReserved s).draws = s.draws := rfl

end recordReserved

section resetRegs
variable (s : State)

@[simp] theorem resetRegs_cfg : (resetRegs s).cfg = s.cfg := rfl
@[simp] theorem resetRegs_mem : (resetRegs s).mem = resetStores s.cfg s.mem := rfl
@[simp] theorem resetRegs_gbright : (resetRegs s).gbright = 255 := rfl
@[simp] theorem resetRegs_rsvdSeen : (resetRegs s).rsvdSeen = false := rfl
@[simp] theorem resetRegs_encState : (resetRegs s).encState = .idle := rfl
@[simp] theorem resetRegs_byteIx : (resetRegs s).byteIx = 0 := rfl
@[simp] theorem resetRegs_bitIx : (resetRegs s).bitIx = 7 := rfl
@[simp] theorem resetRegs_phase : (resetRegs s).phase = .start := rfl
@[simp] theorem resetRegs_cnt : (resetRegs s).cnt = 0 := rfl
@[simp] theorem resetRegs_shreg : (resetRegs s).shreg = 0 := rfl
@[simp] theorem resetRegs_gsnap : (resetRegs s).gsnap = 0 := rfl
@[simp] theorem resetRegs_cur : (resetRegs s).cur = 0 := rfl
@[simp] theorem resetRegs_nxt : (resetRegs s).nxt = 0 := rfl
@[simp] theorem resetRegs_nxtRaw : (resetRegs s).nxtRaw = 0 := rfl
@[simp] theorem resetRegs_rspValid : (resetRegs s).rspValid = false := rfl
@[simp] theorem resetRegs_rspData : (resetRegs s).rspData = 0 := rfl
@[simp] theorem resetRegs_rst : (resetRegs s).rst = s.rst := rfl
@[simp] theorem resetRegs_cmdValid : (resetRegs s).cmdValid = s.cmdValid := rfl
@[simp] theorem resetRegs_cmdWord : (resetRegs s).cmdWord = s.cmdWord := rfl
@[simp] theorem resetRegs_inputs : (resetRegs s).inputs = s.inputs := rfl
@[simp] theorem resetRegs_raced : (resetRegs s).raced = [] := rfl
@[simp] theorem resetRegs_draws : (resetRegs s).draws = s.draws := rfl

end resetRegs

section emitBit
variable (b : Bool) (s : State)

@[simp] theorem emitBit_cfg : (emitBit b s).cfg = s.cfg := rfl
@[simp] theorem emitBit_mem : (emitBit b s).mem = s.mem := rfl
@[simp] theorem emitBit_gbright : (emitBit b s).gbright = s.gbright := rfl
@[simp] theorem emitBit_rsvdSeen : (emitBit b s).rsvdSeen = s.rsvdSeen := rfl
@[simp] theorem emitBit_encState : (emitBit b s).encState = s.encState := rfl
@[simp] theorem emitBit_byteIx : (emitBit b s).byteIx = s.byteIx := rfl
@[simp] theorem emitBit_bitIx : (emitBit b s).bitIx = s.bitIx := rfl
@[simp] theorem emitBit_phase : (emitBit b s).phase = .high := rfl
@[simp] theorem emitBit_cnt : (emitBit b s).cnt = BitVec.ofNat 16 (s.cfg.highCycles b) := rfl
@[simp] theorem emitBit_shreg : (emitBit b s).shreg = s.shreg := rfl
@[simp] theorem emitBit_gsnap : (emitBit b s).gsnap = s.gsnap := rfl
@[simp] theorem emitBit_cur : (emitBit b s).cur = s.cur := rfl
@[simp] theorem emitBit_nxt : (emitBit b s).nxt = s.nxt := rfl
@[simp] theorem emitBit_nxtRaw : (emitBit b s).nxtRaw = s.nxtRaw := rfl
@[simp] theorem emitBit_rspValid : (emitBit b s).rspValid = s.rspValid := rfl
@[simp] theorem emitBit_rspData : (emitBit b s).rspData = s.rspData := rfl
@[simp] theorem emitBit_rst : (emitBit b s).rst = s.rst := rfl
@[simp] theorem emitBit_cmdValid : (emitBit b s).cmdValid = s.cmdValid := rfl
@[simp] theorem emitBit_cmdWord : (emitBit b s).cmdWord = s.cmdWord := rfl
@[simp] theorem emitBit_inputs : (emitBit b s).inputs = s.inputs := rfl
@[simp] theorem emitBit_raced : (emitBit b s).raced = s.raced := rfl
@[simp] theorem emitBit_draws : (emitBit b s).draws = s.draws := rfl

end emitBit

section startByte
variable (v : Byte) (s : State)

@[simp] theorem startByte_cfg : (startByte v s).cfg = s.cfg := rfl
@[simp] theorem startByte_mem : (startByte v s).mem = s.mem := rfl
@[simp] theorem startByte_gbright : (startByte v s).gbright = s.gbright := rfl
@[simp] theorem startByte_rsvdSeen : (startByte v s).rsvdSeen = s.rsvdSeen := rfl
@[simp] theorem startByte_encState : (startByte v s).encState = s.encState := rfl
@[simp] theorem startByte_byteIx : (startByte v s).byteIx = s.byteIx := rfl
@[simp] theorem startByte_bitIx : (startByte v s).bitIx = s.bitIx := rfl
@[simp] theorem startByte_phase : (startByte v s).phase = .high := rfl
@[simp] theorem startByte_cnt : (startByte v s).cnt = BitVec.ofNat 16 (s.cfg.highCycles (v.getLsbD 7)) := rfl
@[simp] theorem startByte_shreg : (startByte v s).shreg = v := rfl
@[simp] theorem startByte_gsnap : (startByte v s).gsnap = s.gsnap := rfl
@[simp] theorem startByte_cur : (startByte v s).cur = s.cur := rfl
@[simp] theorem startByte_nxt : (startByte v s).nxt = s.nxt := rfl
@[simp] theorem startByte_nxtRaw : (startByte v s).nxtRaw = s.nxtRaw := rfl
@[simp] theorem startByte_rspValid : (startByte v s).rspValid = s.rspValid := rfl
@[simp] theorem startByte_rspData : (startByte v s).rspData = s.rspData := rfl
@[simp] theorem startByte_rst : (startByte v s).rst = s.rst := rfl
@[simp] theorem startByte_cmdValid : (startByte v s).cmdValid = s.cmdValid := rfl
@[simp] theorem startByte_cmdWord : (startByte v s).cmdWord = s.cmdWord := rfl
@[simp] theorem startByte_inputs : (startByte v s).inputs = s.inputs := rfl
@[simp] theorem startByte_raced : (startByte v s).raced = s.raced := rfl
@[simp] theorem startByte_draws : (startByte v s).draws = s.draws := rfl

end startByte

section countDown
variable (s : State)

@[simp] theorem countDown_cfg : (countDown s).cfg = s.cfg := rfl
@[simp] theorem countDown_mem : (countDown s).mem = s.mem := rfl
@[simp] theorem countDown_gbright : (countDown s).gbright = s.gbright := rfl
@[simp] theorem countDown_rsvdSeen : (countDown s).rsvdSeen = s.rsvdSeen := rfl
@[simp] theorem countDown_encState : (countDown s).encState = s.encState := rfl
@[simp] theorem countDown_byteIx : (countDown s).byteIx = s.byteIx := rfl
@[simp] theorem countDown_bitIx : (countDown s).bitIx = s.bitIx := rfl
@[simp] theorem countDown_phase : (countDown s).phase = s.phase := rfl
@[simp] theorem countDown_cnt : (countDown s).cnt = s.cnt - 1 := rfl
@[simp] theorem countDown_shreg : (countDown s).shreg = s.shreg := rfl
@[simp] theorem countDown_gsnap : (countDown s).gsnap = s.gsnap := rfl
@[simp] theorem countDown_cur : (countDown s).cur = s.cur := rfl
@[simp] theorem countDown_nxt : (countDown s).nxt = s.nxt := rfl
@[simp] theorem countDown_nxtRaw : (countDown s).nxtRaw = s.nxtRaw := rfl
@[simp] theorem countDown_rspValid : (countDown s).rspValid = s.rspValid := rfl
@[simp] theorem countDown_rspData : (countDown s).rspData = s.rspData := rfl
@[simp] theorem countDown_rst : (countDown s).rst = s.rst := rfl
@[simp] theorem countDown_cmdValid : (countDown s).cmdValid = s.cmdValid := rfl
@[simp] theorem countDown_cmdWord : (countDown s).cmdWord = s.cmdWord := rfl
@[simp] theorem countDown_inputs : (countDown s).inputs = s.inputs := rfl
@[simp] theorem countDown_raced : (countDown s).raced = s.raced := rfl
@[simp] theorem countDown_draws : (countDown s).draws = s.draws := rfl

end countDown

section startFrame
variable (s : State)

@[simp] theorem startFrame_cfg : (startFrame s).cfg = s.cfg := rfl
@[simp] theorem startFrame_mem : (startFrame s).mem = s.mem := rfl
@[simp] theorem startFrame_gbright : (startFrame s).gbright = s.gbright := rfl
@[simp] theorem startFrame_rsvdSeen : (startFrame s).rsvdSeen = s.rsvdSeen := rfl
@[simp] theorem startFrame_encState : (startFrame s).encState = .xmit := rfl
@[simp] theorem startFrame_byteIx : (startFrame s).byteIx = 0 := rfl
@[simp] theorem startFrame_bitIx : (startFrame s).bitIx = 7 := rfl
@[simp] theorem startFrame_phase : (startFrame s).phase = .start := rfl
@[simp] theorem startFrame_cnt : (startFrame s).cnt = BitVec.ofNat 16 s.cfg.startLat := rfl
@[simp] theorem startFrame_shreg : (startFrame s).shreg = s.shreg := rfl
@[simp] theorem startFrame_gsnap : (startFrame s).gsnap = s.gbright := rfl
@[simp] theorem startFrame_cur : (startFrame s).cur = s.cur := rfl
@[simp] theorem startFrame_nxt : (startFrame s).nxt = s.nxt := rfl
@[simp] theorem startFrame_nxtRaw : (startFrame s).nxtRaw = s.nxtRaw := rfl
@[simp] theorem startFrame_rspValid : (startFrame s).rspValid = s.rspValid := rfl
@[simp] theorem startFrame_rspData : (startFrame s).rspData = s.rspData := rfl
@[simp] theorem startFrame_rst : (startFrame s).rst = s.rst := rfl
@[simp] theorem startFrame_cmdValid : (startFrame s).cmdValid = s.cmdValid := rfl
@[simp] theorem startFrame_cmdWord : (startFrame s).cmdWord = s.cmdWord := rfl
@[simp] theorem startFrame_inputs : (startFrame s).inputs = s.inputs := rfl
@[simp] theorem startFrame_raced : (startFrame s).raced = [] := rfl
@[simp] theorem startFrame_draws : (startFrame s).draws = s.draws := rfl

end startFrame

section takeCommand
variable (s : State)

@[simp] theorem takeCommand_cfg : (takeCommand s).cfg = s.cfg := rfl
@[simp] theorem takeCommand_mem : (takeCommand s).mem = s.mem := rfl
@[simp] theorem takeCommand_gbright : (takeCommand s).gbright = s.gbright := rfl
@[simp] theorem takeCommand_rsvdSeen : (takeCommand s).rsvdSeen = s.rsvdSeen := rfl
@[simp] theorem takeCommand_encState : (takeCommand s).encState = s.encState := rfl
@[simp] theorem takeCommand_byteIx : (takeCommand s).byteIx = s.byteIx := rfl
@[simp] theorem takeCommand_bitIx : (takeCommand s).bitIx = s.bitIx := rfl
@[simp] theorem takeCommand_phase : (takeCommand s).phase = s.phase := rfl
@[simp] theorem takeCommand_cnt : (takeCommand s).cnt = s.cnt := rfl
@[simp] theorem takeCommand_shreg : (takeCommand s).shreg = s.shreg := rfl
@[simp] theorem takeCommand_gsnap : (takeCommand s).gsnap = s.gsnap := rfl
@[simp] theorem takeCommand_cur : (takeCommand s).cur = s.cur := rfl
@[simp] theorem takeCommand_nxt : (takeCommand s).nxt = s.nxt := rfl
@[simp] theorem takeCommand_nxtRaw : (takeCommand s).nxtRaw = s.nxtRaw := rfl
@[simp] theorem takeCommand_rspValid : (takeCommand s).rspValid = s.rspValid := rfl
@[simp] theorem takeCommand_rspData : (takeCommand s).rspData = s.rspData := rfl
@[simp] theorem takeCommand_rst : (takeCommand s).rst = s.rst := rfl
@[simp] theorem takeCommand_cmdValid : (takeCommand s).cmdValid = false := rfl
@[simp] theorem takeCommand_cmdWord : (takeCommand s).cmdWord = s.cmdWord := rfl
@[simp] theorem takeCommand_inputs : (takeCommand s).inputs = s.inputs := rfl
@[simp] theorem takeCommand_raced : (takeCommand s).raced = s.raced := rfl
@[simp] theorem takeCommand_draws : (takeCommand s).draws = s.draws := rfl

end takeCommand

section presentWord
variable (w : Word64) (s : State)

@[simp] theorem presentWord_cfg : (presentWord w s).cfg = s.cfg := rfl
@[simp] theorem presentWord_mem : (presentWord w s).mem = s.mem := rfl
@[simp] theorem presentWord_gbright : (presentWord w s).gbright = s.gbright := rfl
@[simp] theorem presentWord_rsvdSeen : (presentWord w s).rsvdSeen = s.rsvdSeen := rfl
@[simp] theorem presentWord_encState : (presentWord w s).encState = .idle := rfl
@[simp] theorem presentWord_byteIx : (presentWord w s).byteIx = s.byteIx := rfl
@[simp] theorem presentWord_bitIx : (presentWord w s).bitIx = s.bitIx := rfl
@[simp] theorem presentWord_phase : (presentWord w s).phase = s.phase := rfl
@[simp] theorem presentWord_cnt : (presentWord w s).cnt = s.cnt := rfl
@[simp] theorem presentWord_shreg : (presentWord w s).shreg = s.shreg := rfl
@[simp] theorem presentWord_gsnap : (presentWord w s).gsnap = s.gsnap := rfl
@[simp] theorem presentWord_cur : (presentWord w s).cur = s.cur := rfl
@[simp] theorem presentWord_nxt : (presentWord w s).nxt = s.nxt := rfl
@[simp] theorem presentWord_nxtRaw : (presentWord w s).nxtRaw = s.nxtRaw := rfl
@[simp] theorem presentWord_rspValid : (presentWord w s).rspValid = s.rspValid := rfl
@[simp] theorem presentWord_rspData : (presentWord w s).rspData = s.rspData := rfl
@[simp] theorem presentWord_rst : (presentWord w s).rst = s.rst := rfl
@[simp] theorem presentWord_cmdValid : (presentWord w s).cmdValid = s.cmdValid := rfl
@[simp] theorem presentWord_cmdWord : (presentWord w s).cmdWord = s.cmdWord := rfl
@[simp] theorem presentWord_inputs : (presentWord w s).inputs = ⟨false, .present w, []⟩ :: s.inputs := rfl
@[simp] theorem presentWord_raced : (presentWord w s).raced = s.raced := rfl
@[simp] theorem presentWord_draws : (presentWord w s).draws = s.draws := rfl

end presentWord

section ports
variable (d : CmdDrive) (s : State)

/-- Driving the port changes nothing but the port. -/
theorem drivePort_eq : drivePort d s =
    { s with cmdValid := (drivePort d s).cmdValid, cmdWord := (drivePort d s).cmdWord } := by
  cases d <;> rfl

end ports

section hostWrites
variable (e : Word32 × Byte) (es : List (Word32 × Byte)) (s : State)

/-- The host's writes change the memory and the raced addresses only. -/
theorem hostWrites_eq : hostWrites es s =
    { s with mem := (hostWrites es s).mem, raced := (hostWrites es s).raced } := by
  induction es generalizing s with
  | nil => rfl
  | cons e es ih => exact (ih (hostWrite s e)).trans rfl

@[simp] theorem hostWrites_nil : hostWrites [] s = s := rfl

end hostWrites

section sample
variable (s : State)

/-- What the edge sees differs from the state before in the memory, the raced addresses and the input ports, and
`rsp_valid` is low. -/
theorem sample_eq : sample s =
    { s with mem := (sample s).mem, raced := (sample s).raced, rst := s.nextInput.rst,
             cmdValid := (sample s).cmdValid, cmdWord := (sample s).cmdWord,
             rspValid := false, inputs := s.inputs.tail } := by
  unfold sample
  simp only []
  rw [drivePort_eq, hostWrites_eq]

end sample

section sampleFields
variable (s : State)

@[simp] theorem sample_cfg : (sample s).cfg = s.cfg := by rw [sample_eq]
@[simp] theorem sample_gbright : (sample s).gbright = s.gbright := by rw [sample_eq]
@[simp] theorem sample_rsvdSeen : (sample s).rsvdSeen = s.rsvdSeen := by rw [sample_eq]
@[simp] theorem sample_encState : (sample s).encState = s.encState := by rw [sample_eq]
@[simp] theorem sample_byteIx : (sample s).byteIx = s.byteIx := by rw [sample_eq]
@[simp] theorem sample_bitIx : (sample s).bitIx = s.bitIx := by rw [sample_eq]
@[simp] theorem sample_phase : (sample s).phase = s.phase := by rw [sample_eq]
@[simp] theorem sample_cnt : (sample s).cnt = s.cnt := by rw [sample_eq]
@[simp] theorem sample_shreg : (sample s).shreg = s.shreg := by rw [sample_eq]
@[simp] theorem sample_gsnap : (sample s).gsnap = s.gsnap := by rw [sample_eq]
@[simp] theorem sample_cur : (sample s).cur = s.cur := by rw [sample_eq]
@[simp] theorem sample_nxt : (sample s).nxt = s.nxt := by rw [sample_eq]
@[simp] theorem sample_nxtRaw : (sample s).nxtRaw = s.nxtRaw := by rw [sample_eq]
@[simp] theorem sample_rspData : (sample s).rspData = s.rspData := by rw [sample_eq]
@[simp] theorem sample_draws : (sample s).draws = s.draws := by rw [sample_eq]
@[simp] theorem sample_rst : (sample s).rst = s.nextInput.rst := rfl
@[simp] theorem sample_rspValid : (sample s).rspValid = false := rfl
@[simp] theorem sample_inputs : (sample s).inputs = s.inputs.tail := rfl

end sampleFields

end Sys2Proof.Laws
end

