-- ==== Sys2Proof/Laws/Ops.lean ====
section
/-!
SUPPORT. One law per shared operation: what the memory primitives and the pixel-store helpers can do. `Wrote s t` says
that `t` is `s` after byte writes inside the stores; every helper that answers a next state has done just that.
-/
namespace Sys2Proof.Laws
open Sys2Proof.Machine Sys2Proof.Safety

/-! ### Sequencing -/

@[simp] theorem andThen_next {α β : Type} (a : α) (f : α → Res β) : andThen (.next a) f = f a := rfl
@[simp] theorem andThen_fault {α β : Type} (e : Fault) (f : α → Res β) : andThen (.fault e) f = .fault e := rfl
@[simp] theorem andThen_refused {α β : Type} (e : Refusal) (f : α → Res β) :
    andThen (.refused e) f = .refused e := rfl

/-- Two operations in a row answer a next state when both do. -/
theorem andThen_eq_next {α β : Type} {r : Res α} {f : α → Res β} {b : β} :
    andThen r f = .next b ↔ ∃ a, r = .next a ∧ f a = .next b := by
  cases r <;> simp [andThen]

/-! ### Locations of store bytes -/

/-- Different offsets of one store are different bytes. -/
theorem loc_inj {cfg : Config} {x : Store} {a b : Nat} : loc cfg x a = loc cfg x b ↔ a = b := by
  unfold loc
  split <;> simp

/-- Bytes of different stores are different, where elaboration placed the stores. -/
theorem loc_ne {cfg : Config} (hp : cfg.storesPlaced = true) {x y : Store} (hxy : x ≠ y) {a b : Nat}
    (ha : a < cfg.size x) (hb : b < cfg.size y) : loc cfg x a ≠ loc cfg y b := by
  unfold loc
  cases hm : cfg.memMode with
  | engine => simp [hxy]
  | caller =>
    simp only [Config.storesPlaced, hm, Bool.and_eq_true, decide_eq_true_eq, Config.disjointStores,
      Bool.or_eq_true, beq_iff_eq] at hp
    simp only [ne_eq, Loc.ext.injEq]
    cases x <;> cases y <;> simp only [ne_eq, not_true_eq_false, reduceCtorEq] at hxy ha hb ⊢ <;> omega

theorem mem_bytesFrom {s : State} {x : Store} {a k : Nat} {l : Loc} :
    l ∈ bytesFrom s x a k ↔ ∃ c < k, l = loc s.cfg x (a + c) := by
  simp only [bytesFrom, List.mem_map, List.mem_range]
  exact ⟨fun ⟨c, hc, h⟩ => ⟨c, hc, h.symm⟩, fun ⟨c, hc, h⟩ => ⟨c, hc, h.symm⟩⟩

/-! ### The primitives -/

/-- In bounds, `MemRead` answers the byte (R84). -/
theorem memRead_inBounds {x : Store} {a : Nat} {s : State} (h : a < s.cfg.size x) :
    memRead x a s = .next (s.byteAt x a) := if_pos h

/-- In bounds, `MemWrite` changes the byte (R84). -/
theorem memWrite_inBounds {x : Store} {a : Nat} {s : State} (v : Byte) (h : a < s.cfg.size x) :
    memWrite x a v s = .next { s with mem := s.mem.writeLoc (loc s.cfg x a) v } := if_pos h

/-- What `MemRead` answers (R84). -/
theorem memRead_cases {x : Store} {a : Nat} {s : State} {v : Byte} (h : memRead x a s = .next v) :
    a < s.cfg.size x ∧ v = s.byteAt x a := by
  unfold memRead at h
  split at h
  · next hlt => exact ⟨hlt, by simpa using h.symm⟩
  · simp at h

/-! ### Runs of writes -/

/-- The memory after these byte writes, in order. -/
def applyWrites (es : List (Loc × Byte)) (m : Mem) : Mem := es.foldl (fun m e => m.writeLoc e.1 e.2) m

@[simp] theorem applyWrites_nil (m : Mem) : applyWrites [] m = m := rfl
@[simp] theorem applyWrites_cons (e : Loc × Byte) (es : List (Loc × Byte)) (m : Mem) :
    applyWrites (e :: es) m = applyWrites es (m.writeLoc e.1 e.2) := rfl
theorem applyWrites_append (es fs : List (Loc × Byte)) (m : Mem) :
    applyWrites (es ++ fs) m = applyWrites fs (applyWrites es m) := List.foldl_append

/-- `t` is `s` after some byte writes inside the stores, and nothing else. -/
def Wrote (s t : State) : Prop :=
  ∃ es : List (Loc × Byte), t = { s with mem := applyWrites es s.mem } ∧
    ∀ e ∈ es, ∃ x a, a < s.cfg.size x ∧ e.1 = loc s.cfg x a

theorem Wrote.refl (s : State) : Wrote s s := ⟨[], rfl, by simp⟩

theorem Wrote.trans {s t u : State} (h1 : Wrote s t) (h2 : Wrote t u) : Wrote s u := by
  obtain ⟨es, rfl, h1⟩ := h1
  obtain ⟨fs, rfl, h2⟩ := h2
  refine ⟨es ++ fs, by simp [applyWrites_append], ?_⟩
  intro e he
  rcases List.mem_append.1 he with he | he
  · exact h1 e he
  · exact h2 e he

/-- Everything but the memory is as it was. -/
theorem Wrote.sameRegs {s t : State} (h : Wrote s t) : SameRegs s t := by
  obtain ⟨es, rfl, -⟩ := h
  rfl

theorem Wrote.cfg {s t : State} (h : Wrote s t) : t.cfg = s.cfg := by
  obtain ⟨es, rfl, -⟩ := h
  rfl

theorem mem_wf_applyWrites {m : Mem} (hm : m.wf = true) (es : List (Loc × Byte)) : (applyWrites es m).wf = true := by
  induction es generalizing m with
  | nil => exact hm
  | cons e es ih => exact ih (mem_wf_writeLoc hm _ _)

theorem readLoc_applyWrites_ne (m : Mem) {es : List (Loc × Byte)} {l : Loc} (h : ∀ e ∈ es, e.1 ≠ l) :
    (applyWrites es m).readLoc l = m.readLoc l := by
  induction es generalizing m with
  | nil => rfl
  | cons e es ih =>
    rw [applyWrites_cons, ih _ (fun d hd => h d (by simp [hd])),
      readLoc_writeLoc_ne _ _ (Ne.symm (h e (by simp)))]

/-- The canonical form is kept. -/
theorem Wrote.wf {s t : State} (h : Wrote s t) (hm : s.mem.wf = true) : t.mem.wf = true := by
  obtain ⟨es, rfl, -⟩ := h
  exact mem_wf_applyWrites hm es

/-- A byte that is no store's byte is as it was (R84). -/
theorem Wrote.outside {s t : State} (h : Wrote s t) {l : Loc}
    (hl : ∀ x a, a < s.cfg.size x → l ≠ loc s.cfg x a) : t.mem.readLoc l = s.mem.readLoc l := by
  obtain ⟨es, rfl, hes⟩ := h
  refine readLoc_applyWrites_ne _ fun e he hel => ?_
  obtain ⟨x, a, ha, hea⟩ := hes e he
  exact hl x a ha (hel.symm.trans hea)

theorem memWrite_wrote {x : Store} {a : Nat} {v : Byte} {s t : State} (h : memWrite x a v s = .next t) :
    Wrote s t := by
  unfold memWrite at h
  split at h
  · next ha =>
    injection h with h
    exact ⟨[(loc s.cfg x a, v)], h.symm, by simpa using ⟨x, a, ha, rfl⟩⟩
  · simp at h

theorem writeBytes_wrote {x : Store} {a : Nat} {vs : List Byte} {s t : State}
    (h : writeBytes x a vs s = .next t) : Wrote s t := by
  induction vs generalizing a s with
  | nil =>
    injection h with h
    exact h ▸ Wrote.refl s
  | cons v vs ih =>
    obtain ⟨u, hu, h⟩ := andThen_eq_next.1 h
    exact (memWrite_wrote hu).trans (ih h)

theorem recomputeChannel_wrote {i c : Nat} {pb g : Byte} {s t : State}
    (h : recomputeChannel i c pb g s = .next t) : Wrote s t := by
  obtain ⟨o, -, h⟩ := andThen_eq_next.1 h
  exact memWrite_wrote h

theorem recompute_wrote {i : Nat} {s t : State} (h : recompute i s = .next t) : Wrote s t := by
  obtain ⟨pb, -, h⟩ := andThen_eq_next.1 h
  obtain ⟨s1, h1, h⟩ := andThen_eq_next.1 h
  obtain ⟨s2, h2, h⟩ := andThen_eq_next.1 h
  exact ((recomputeChannel_wrote h1).trans (recomputeChannel_wrote h2)).trans (recomputeChannel_wrote h)

theorem clearPixel_wrote {i : Nat} {s t : State} (h : clearPixel i s = .next t) : Wrote s t := by
  obtain ⟨s1, h1, h⟩ := andThen_eq_next.1 h
  split at h
  · exact (writeBytes_wrote h1).trans (writeBytes_wrote h)
  · injection h with h
    exact h ▸ writeBytes_wrote h1

theorem clearPixels_wrote {k : Nat} {s t : State} (h : clearPixels k s = .next t) : Wrote s t := by
  induction k generalizing t with
  | zero =>
    injection h with h
    exact h ▸ Wrote.refl s
  | succ k ih =>
    obtain ⟨u, hu, h⟩ := andThen_eq_next.1 h
    exact (ih hu).trans (clearPixel_wrote h)

theorem setGrb_wrote {i : Nat} {g r b : Byte} {pb : Option Byte} {s t : State}
    (h : setGrb i g r b pb s = .next t) : Wrote s t := by
  unfold setGrb at h
  split at h
  · injection h with h
    exact h ▸ Wrote.refl s
  · split at h
    · exact writeBytes_wrote h
    · obtain ⟨s1, h1, h⟩ := andThen_eq_next.1 h
      refine (writeBytes_wrote h1).trans ?_
      split at h
      · obtain ⟨s2, h2, h⟩ := andThen_eq_next.1 h
        exact (memWrite_wrote h2).trans (recompute_wrote h)
      · exact recompute_wrote h

theorem setHsv_wrote {i : Nat} {hue : BitVec 16} {sat val : Byte} {s t : State}
    (h : setHsv i hue sat val s = .next t) : Wrote s t := by
  unfold setHsv at h
  split at h
  · injection h with h
    exact h ▸ Wrote.refl s
  · exact writeBytes_wrote h

/-! ### Successive bytes -/

/-- In bounds, `writeBytes` answers a next state: the bytes at `a`, `a+1`, … are the given ones and every other byte
is as it was. -/
theorem writeBytes_spec (x : Store) (a : Nat) (vs : List Byte) (s : State) (h : a + vs.length ≤ s.cfg.size x)
    (hm : s.mem.wf = true) :
    ∃ t, writeBytes x a vs s = .next t ∧ Wrote s t ∧ UnchangedOutside (bytesFrom s x a vs.length) s t ∧
      ∀ c (hc : c < vs.length), t.byteAt x (a + c) = vs[c] := by
  induction vs generalizing a s with
  | nil =>
    exact ⟨s, rfl, Wrote.refl s, fun _ _ => rfl, fun c hc => absurd hc (Nat.not_lt_zero c)⟩
  | cons v vs ih =>
    have hlt : a < s.cfg.size x := by simp only [List.length_cons] at h; omega
    obtain ⟨t, ht, hw, hout, hval⟩ := ih (a + 1) { s with mem := s.mem.writeLoc (loc s.cfg x a) v }
      (by simp only [List.length_cons] at h ⊢; omega) (mem_wf_writeLoc hm _ _)
    have hwr := memWrite_inBounds v hlt
    refine ⟨t, by simp only [writeBytes, hwr, andThen_next, ht], (memWrite_wrote hwr).trans hw, ?_, ?_⟩
    · intro l hl
      have h1 : l ≠ loc s.cfg x a := by
        rintro rfl
        exact hl (mem_bytesFrom.2 ⟨0, by simp, rfl⟩)
      refine (hout l ?_).trans (readLoc_writeLoc_ne _ _ h1)
      intro hl'
      obtain ⟨c, hc, rfl⟩ := mem_bytesFrom.1 hl'
      exact hl (mem_bytesFrom.2 ⟨c + 1, by simpa using hc, by rw [show a + 1 + c = a + (c + 1) by omega]⟩)
    · intro c hc
      cases c with
      | zero =>
        have hcfg : t.cfg = s.cfg := hw.cfg
        have : loc s.cfg x a ∉ bytesFrom { s with mem := s.mem.writeLoc (loc s.cfg x a) v } x (a + 1) vs.length := by
          intro hmem
          obtain ⟨c, -, hc⟩ := mem_bytesFrom.1 hmem
          have := loc_inj.1 hc
          omega
        simp only [State.byteAt, hcfg, Nat.add_zero, List.getElem_cons_zero]
        rw [hout _ this]
        exact readLoc_writeLoc_same hm _ _
      | succ c =>
        have := hval c (by simpa using hc)
        rw [show a + (c + 1) = a + 1 + c by omega]
        simpa using this

/-- `byteAt` of another store, or of another offset, after a run of writes elsewhere. -/
theorem byteAt_unchanged {ls : List Loc} {s t : State} (hcfg : t.cfg = s.cfg) (h : UnchangedOutside ls s t) {y : Store}
    {b : Nat} (hl : loc s.cfg y b ∉ ls) : t.byteAt y b = s.byteAt y b := by
  simp only [State.byteAt, hcfg]
  exact h _ hl

/-- Bytes of one store are no bytes of another. -/
theorem loc_not_mem_bytesFrom_store {s : State} (hp : s.cfg.storesPlaced = true) {x y : Store} (hxy : y ≠ x)
    {a k b : Nat} (hk : a + k ≤ s.cfg.size x) (hb : b < s.cfg.size y) : loc s.cfg y b ∉ bytesFrom s x a k := by
  intro hmem
  obtain ⟨c, hc, he⟩ := mem_bytesFrom.1 hmem
  exact loc_ne hp hxy hb (by omega) he

/-- Offsets outside a run are not in it. -/
theorem loc_not_mem_bytesFrom {s : State} {x : Store} {a k b : Nat} (h : b < a ∨ a + k ≤ b) :
    loc s.cfg x b ∉ bytesFrom s x a k := by
  intro hmem
  obtain ⟨c, hc, he⟩ := mem_bytesFrom.1 hmem
  have := loc_inj.1 he
  omega

/-! ### The recompute (R183) -/

/-- In GRB, PERPIX mode and in range, `recompute(i)` answers a next state: the pixel's SCALED bytes are its ORIG bytes
scaled by its PB byte and `GBRIGHT`, and no other byte changes. -/
theorem recompute_spec (i : Nat) (s : State) (hc : s.cfg.colorMode = .grb) (hb : s.cfg.brightMode = .perpix)
    (hi : i < s.cfg.nEff) (hp : s.cfg.storesPlaced = true) (hm : s.mem.wf = true) :
    ∃ t, recompute i s = .next t ∧ Wrote s t ∧ UnchangedOutside (bytesFrom s .scaled (3 * i) 3) s t ∧
      ∀ c < 3, t.byteAt .scaled (3 * i + c) =
        composePP (s.byteAt .orig (3 * i + c)) (s.byteAt .pb i) s.gbright := by
  have hss : s.cfg.size .scaled = 3 * s.cfg.nEff := by simp [Config.size, Config.bpp, hc]
  have hso : s.cfg.size .orig = 3 * s.cfg.nEff := by simp [Config.size, hb]
  have hsp : s.cfg.size .pb = s.cfg.nEff := by simp [Config.size, hb]
  have step : ∀ (c : Nat) (u : State) (pb g : Byte), c < 3 → u.cfg = s.cfg → u.mem.wf = true →
      ∃ t, recomputeChannel i c pb g u = .next t ∧ Wrote u t ∧
        UnchangedOutside (bytesFrom u .scaled (3 * i + c) 1) u t ∧
        t.byteAt .scaled (3 * i + c) = composePP (u.byteAt .orig (3 * i + c)) pb g := by
    intro c u pb g hc3 hcfg hwf
    have ho : 3 * i + c < u.cfg.size .orig := by rw [hcfg, hso]; omega
    have hs : 3 * i + c < u.cfg.size .scaled := by rw [hcfg, hss]; omega
    obtain ⟨t, ht, hw, hout, hval⟩ := writeBytes_spec .scaled (3 * i + c)
      [composePP (u.byteAt .orig (3 * i + c)) pb g] u (by simpa using hs) hwf
    refine ⟨t, ?_, hw, hout, by simpa using hval 0 (by simp)⟩
    simp only [writeBytes, andThen_eq_next] at ht
    obtain ⟨t', ht', he⟩ := ht
    injection he with he
    subst he
    simp only [recomputeChannel, memRead_inBounds ho, andThen_next, ht']
  have origKept : ∀ (u : State), u.cfg = s.cfg → ∀ c d, c < 3 → d < 3 →
      loc u.cfg .orig (3 * i + d) ∉ bytesFrom u .scaled (3 * i + c) 1 := fun u hu c d hc3 hd3 =>
    loc_not_mem_bytesFrom_store (by rw [hu]; exact hp) (by simp) (by rw [hu, hss]; omega) (by rw [hu, hso]; omega)
  obtain ⟨t0, h0, w0, o0, v0⟩ := step 0 s (s.byteAt .pb i) s.gbright (by omega) rfl hm
  have c0 := w0.cfg
  obtain ⟨t1, h1, w1, o1, v1⟩ := step 1 t0 (s.byteAt .pb i) s.gbright (by omega) c0 (w0.wf hm)
  have c1 := w1.cfg.trans c0
  obtain ⟨t2, h2, w2, o2, v2⟩ := step 2 t1 (s.byteAt .pb i) s.gbright (by omega) c1 (w1.wf (w0.wf hm))
  have c2 := w2.cfg.trans c1
  refine ⟨t2, ?_, (w0.trans w1).trans w2, ?_, ?_⟩
  · simp only [recompute, memRead_inBounds (show i < s.cfg.size .pb by omega), andThen_next, h0, h1, h2]
  · intro l hl
    have hn : ∀ c < 3, ∀ u : State, u.cfg = s.cfg → l ∉ bytesFrom u .scaled (3 * i + c) 1 := by
      intro c hc3 u hu hmem
      obtain ⟨d, hd, he⟩ := mem_bytesFrom.1 hmem
      exact hl (mem_bytesFrom.2 ⟨c, hc3, by rw [he, hu, show 3 * i + c + d = 3 * i + c by omega]⟩)
    rw [o2 l (hn 2 (by omega) t1 c1), o1 l (hn 1 (by omega) t0 c0), o0 l (hn 0 (by omega) s rfl)]
  · have orig0 : ∀ d < 3, t0.byteAt .orig (3 * i + d) = s.byteAt .orig (3 * i + d) := fun d hd =>
      byteAt_unchanged c0 o0 (origKept s rfl 0 d (by omega) hd)
    have orig1 : ∀ d < 3, t1.byteAt .orig (3 * i + d) = s.byteAt .orig (3 * i + d) := fun d hd =>
      (byteAt_unchanged w1.cfg o1 (origKept t0 c0 1 d (by omega) hd)).trans (orig0 d hd)
    intro c hc3
    obtain rfl | rfl | rfl : c = 0 ∨ c = 1 ∨ c = 2 := by omega
    · rw [byteAt_unchanged w2.cfg o2 (loc_not_mem_bytesFrom (by omega)),
        byteAt_unchanged w1.cfg o1 (loc_not_mem_bytesFrom (by omega)), v0]
    · rw [byteAt_unchanged w2.cfg o2 (loc_not_mem_bytesFrom (by omega)), v1, orig0 1 (by omega)]
    · rw [v2, orig1 2 (by omega)]

/-! ### Clearing (R205) -/

/-- In range, `clearPixel(i)` answers a next state: the pixel's SCALED bytes, and in PERPIX mode its ORIG bytes, are 0
and no other byte changes. -/
theorem clearPixel_spec (i : Nat) (s : State) (hi : i < s.cfg.nEff) (hp : s.cfg.storesPlaced = true)
    (hm : s.mem.wf = true) :
    ∃ t, clearPixel i s = .next t ∧ Wrote s t ∧
      UnchangedOutside (bytesFrom s .scaled (s.cfg.bpp * i) s.cfg.bpp ++
        (if s.cfg.brightMode = .perpix then bytesFrom s .orig (3 * i) 3 else [])) s t ∧
      (∀ c < s.cfg.bpp, t.byteAt .scaled (s.cfg.bpp * i + c) = 0) ∧
      (s.cfg.brightMode = .perpix → ∀ c < 3, t.byteAt .orig (3 * i + c) = 0) := by
  have hsz : s.cfg.bpp * i + s.cfg.bpp ≤ s.cfg.size .scaled := by
    have : s.cfg.bpp * (i + 1) ≤ s.cfg.bpp * s.cfg.nEff := Nat.mul_le_mul_left _ hi
    simpa [Config.size, Nat.mul_succ] using this
  obtain ⟨t1, h1, w1, o1, v1⟩ := writeBytes_spec .scaled (s.cfg.bpp * i) (List.replicate s.cfg.bpp 0) s
    (by simpa using hsz) hm
  simp only [List.length_replicate] at o1 v1
  have c1 := w1.cfg
  cases hb : s.cfg.brightMode with
  | global =>
    refine ⟨t1, ?_, w1, by simpa using o1, ?_, by simp⟩
    · simp only [clearPixel, h1, andThen_next, c1, hb]
    · intro c hc
      simpa using v1 c hc
  | perpix =>
    have hso : s.cfg.size .orig = 3 * s.cfg.nEff := by simp [Config.size, hb]
    obtain ⟨t2, h2, w2, o2, v2⟩ := writeBytes_spec .orig (3 * i) (List.replicate 3 0) t1
      (by rw [c1, hso]; simp; omega) (w1.wf hm)
    simp only [List.length_replicate] at o2 v2
    refine ⟨t2, ?_, w1.trans w2, ?_, ?_, ?_⟩
    · simp only [clearPixel, h1, andThen_next, c1, hb, h2]
    · intro l hl
      simp only [if_true, List.mem_append, not_or] at hl
      rw [o2 l (by simpa [bytesFrom, c1] using hl.2), o1 l hl.1]
    · intro c hc
      rw [byteAt_unchanged w2.cfg o2 (loc_not_mem_bytesFrom_store (by rw [c1]; exact hp) (by simp)
        (by rw [c1, hso]; omega) (by rw [c1]; omega))]
      simpa using v1 c hc
    · intro _ c hc
      rw [v2 c hc, List.getElem_replicate]

/-! ### Host writes -/

/-- The host's writes keep the canonical form. -/
theorem hostWrites_wf {s : State} (hm : s.mem.wf = true) (es : List (Word32 × Byte)) :
    (hostWrites es s).mem.wf = true := by
  induction es generalizing s with
  | nil => exact hm
  | cons e es ih => exact ih (s := hostWrite s e) (mem_wf_writeLoc hm _ _)

/-- A byte the host did not write reads as before. -/
theorem hostWrites_outside {es : List (Word32 × Byte)} {s : State} {l : Loc} (h : ∀ e ∈ es, l ≠ .ext e.1.toNat) :
    (hostWrites es s).mem.readLoc l = s.mem.readLoc l := by
  induction es generalizing s with
  | nil => rfl
  | cons e es ih =>
    exact (ih fun f hf => h f (List.mem_cons_of_mem _ hf)).trans
      (readLoc_writeLoc_ne _ _ (h e List.mem_cons_self))

/-- A byte the host wrote reads as its last write to it. -/
theorem hostWrites_last {es fs : List (Word32 × Byte)} {e : Word32 × Byte} {s : State} (hm : s.mem.wf = true)
    (h : ∀ f ∈ fs, f.1 ≠ e.1) : (hostWrites (es ++ e :: fs) s).mem.readLoc (.ext e.1.toNat) = e.2 := by
  have hsplit : hostWrites (es ++ e :: fs) s = hostWrites fs (hostWrite (hostWrites es s) e) := by
    simp [hostWrites, List.foldl_append]
  rw [hsplit, hostWrites_outside fun f hf hl => h f hf (BitVec.eq_of_toNat_eq (Loc.ext.inj hl).symm)]
  exact readLoc_writeLoc_same (hostWrites_wf hm es) (.ext e.1.toNat) e.2

/-- The memory an edge sees is the memory after the host's writes. -/
theorem sample_mem (s : State) : (sample s).mem = (hostWrites s.nextInput.writes s).mem := by
  unfold sample
  simp only []
  rw [drivePort_eq]

/-! ### Resetting -/

/-- A reset edge after a reset edge leaves the same state. -/
theorem resetRegs_idem (s : State) : resetRegs (resetRegs s) = resetRegs s := by
  have : resetStores s.cfg (resetStores s.cfg s.mem) = resetStores s.cfg s.mem := by
    unfold resetStores
    split <;> rfl
  simp only [resetRegs, this]

/-- The reset state is what a reset edge leaves of it (R400). -/
theorem resetRegs_reset : resetRegs State.reset = State.reset := rfl

end Sys2Proof.Laws
end

