-- ==== Sys2Proof/Laws/Encoder.lean ====
section
/-!
SUPPORT. The laws of the frame encoder: each edge of a frame by its case, what a byte load does, and what no edge of a
frame touches (spec 42_frame_encoder R262, R266).
-/
namespace Sys2Proof.Laws
open Sys2Proof.Machine Sys2Proof.Safety

/-- `t` is `s` in everything but the encoder and pipeline registers and the count of free draws. -/
def EncoderOnly (s t : State) : Prop :=
  t = { s with encState := t.encState, byteIx := t.byteIx, bitIx := t.bitIx, phase := t.phase, cnt := t.cnt,
               shreg := t.shreg, gsnap := t.gsnap, cur := t.cur, nxt := t.nxt, nxtRaw := t.nxtRaw,
               raced := t.raced, draws := t.draws }

theorem EncoderOnly.trans {s t u : State} (h1 : EncoderOnly s t) (h2 : EncoderOnly t u) : EncoderOnly s u := by
  unfold EncoderOnly at *
  rw [h2, h1]

theorem EncoderOnly.kept {s t : State} (h : EncoderOnly s t) :
    t.cfg = s.cfg ∧ t.mem = s.mem ∧ t.gbright = s.gbright ∧ t.rsvdSeen = s.rsvdSeen ∧ t.rspValid = s.rspValid ∧
      t.rspData = s.rspData ∧ t.rst = s.rst ∧ t.cmdValid = s.cmdValid ∧ t.cmdWord = s.cmdWord ∧
      t.inputs = s.inputs := by
  unfold EncoderOnly at h
  rw [h]
  exact ⟨rfl, rfl, rfl, rfl, rfl, rfl, rfl, rfl, rfl, rfl⟩

/-! ### One edge by its case (R262, R306) -/

theorem tick_counting {s : State} (h : 1 < s.cnt.toNat) : tick s = .next (countDown s) := if_pos h

theorem tick_start {s : State} (h : ¬1 < s.cnt.toNat) (hp : s.phase = .start) : tick s = load 0 s := by
  simp only [tick, if_neg h, hp]

theorem tick_high {s : State} (h : ¬1 < s.cnt.toNat) (hp : s.phase = .high) :
    tick s = .next { s with phase := .low, cnt := BitVec.ofNat 16 (s.cfg.lowCycles s.currentBit) } := by
  simp only [tick, if_neg h, hp]

theorem tick_low {s : State} (h : ¬1 < s.cnt.toNat) (hp : s.phase = .low) : tick s = endLow s := by
  simp only [tick, if_neg h, hp]

/-! ### Reads of SCALED -/

/-- A byte that the host did not race is read as it is (R244, R251). -/
theorem encRead_exact {j d : Nat} {s : State} (h : j < s.cfg.size .scaled) (hr : s.isRaced j = false) :
    encRead j d s = .next (s.byteAt .scaled j) := by
  simp [encRead, memRead_inBounds h, hr]

theorem encRead_next (j d : Nat) {s : State} (h : j < s.cfg.size .scaled) : ∃ v, encRead j d s = .next v :=
  ⟨_, by simp only [encRead, memRead_inBounds h, andThen_next]; rfl⟩

theorem readRaw_next (k : Nat) {s : State} (h : 4 * k + 3 < s.cfg.size .scaled) : ∃ w, readRaw k s = .next w := by
  obtain ⟨v0, h0⟩ := encRead_next (4 * k) (4 * s.draws) (show 4 * k < s.cfg.size .scaled by omega)
  obtain ⟨v1, h1⟩ := encRead_next (4 * k + 1) (4 * s.draws + 1) (show 4 * k + 1 < s.cfg.size .scaled by omega)
  obtain ⟨v2, h2⟩ := encRead_next (4 * k + 2) (4 * s.draws + 2) (show 4 * k + 2 < s.cfg.size .scaled by omega)
  obtain ⟨v3, h3⟩ := encRead_next (4 * k + 3) (4 * s.draws + 3) h
  exact ⟨rawWord v0 v1 v2 v3, by simp only [readRaw, h0, h1, h2, h3, andThen_next]⟩

/-- A slot that the host did not race is read as the store holds it (R241, R251). -/
theorem readRaw_exact {k : Nat} {s : State} (h : 4 * k + 3 < s.cfg.size .scaled) (hr : s.slotRaced k = false) :
    readRaw k s = .next (s.rawSlot k) := by
  simp only [State.slotRaced, Bool.or_eq_false_iff, and_assoc] at hr
  obtain ⟨r0, r1, r2, r3⟩ := hr
  simp only [readRaw, encRead_exact (show 4 * k < s.cfg.size .scaled by omega) r0,
    encRead_exact (show 4 * k + 1 < s.cfg.size .scaled by omega) r1,
    encRead_exact (show 4 * k + 2 < s.cfg.size .scaled by omega) r2, encRead_exact h r3, andThen_next, State.rawSlot]

/-- No byte is raced when the host wrote none (R88). -/
theorem isRaced_nil {s : State} (h : s.raced = []) (j : Nat) : s.isRaced j = false := by
  unfold State.isRaced
  split
  · rfl
  · simp [h]

theorem slotRaced_nil {s : State} (h : s.raced = []) (k : Nat) : s.slotRaced k = false := by
  simp [State.slotRaced, isRaced_nil h]

/-! ### Loading a byte (R262) -/

/-- What a load that answers a next state has done to the position and the pulse generator. -/
structure Loaded (j : Nat) (s t : State) : Prop where
  only : EncoderOnly s t
  encState : t.encState = s.encState
  byteIx : t.byteIx = BitVec.ofNat 18 j
  bitIx : t.bitIx = 7
  phase : t.phase = .high
  cnt : t.cnt = BitVec.ofNat 16 (s.cfg.highCycles (t.shreg.getLsbD 7))
  raced : t.raced = s.raced
  gsnap : t.gsnap = s.gsnap

/-- In GRB mode, for a byte of the store. -/
theorem loadGrb_next {j : Nat} {s : State} (h : j < s.cfg.size .scaled) :
    ∃ v d, encRead j (4 * s.draws) s = .next v ∧ loadGrb j s = .next (startByte v { s with draws := d }) := by
  obtain ⟨v, hv⟩ := encRead_next j (4 * s.draws) h
  exact ⟨v, if s.isRaced j then s.draws + 1 else s.draws, hv, by simp only [loadGrb, hv, andThen_next]⟩

/-- In HSV mode, for a byte of the frame. -/
theorem latchIfNeeded_next (j : Nat) {s : State} (hc : s.cfg.colorMode = .hsv) :
    ∃ t, latchIfNeeded j s = .next t ∧
      t = { s with nxtRaw := t.nxtRaw, nxt := t.nxt, draws := t.draws } := by
  unfold latchIfNeeded
  split
  · next hj =>
    have hsz : s.cfg.size .scaled = 4 * s.cfg.nEff := by simp [Config.size, Config.bpp, hc]
    obtain ⟨w, hw⟩ := readRaw_next (j / 3 + 1) (s := s) (by omega)
    exact ⟨_, by simp only [latchNext, hw, andThen_next]; rfl, rfl⟩
  · exact ⟨s, rfl, rfl⟩

/-- A load of a byte of the frame answers a next state (R262). -/
theorem load_next {j : Nat} {s : State} (h : j < 3 * s.cfg.nEff) : ∃ t, load j s = .next t ∧ Loaded j s t := by
  unfold load
  cases hc : s.cfg.colorMode with
  | grb =>
    have hsz : s.cfg.size .scaled = 3 * s.cfg.nEff := by simp [Config.size, Config.bpp, hc]
    obtain ⟨v, d, -, ht⟩ := loadGrb_next (j := j) (s := { s with byteIx := BitVec.ofNat 18 j, bitIx := 7 })
      (by show j < s.cfg.size .scaled; omega)
    exact ⟨_, ht, ⟨rfl, rfl, rfl, rfl, rfl, rfl, rfl, rfl⟩⟩
  | hsv =>
    have ha : ∀ u : State, (advanceColour j u) = { u with cur := (advanceColour j u).cur } := by
      intro u
      unfold advanceColour
      split <;> rfl
    obtain ⟨t, ht, he⟩ := latchIfNeeded_next j
      (s := advanceColour j { s with byteIx := BitVec.ofNat 18 j, bitIx := 7 }) (by rw [ha]; exact hc)
    refine ⟨startByte (colourByte t.cur (j % 3)) t, by simp only [loadHsv, ht, andThen_next], ?_⟩
    rw [ha] at he
    rw [he]
    exact ⟨rfl, rfl, rfl, rfl, rfl, rfl, rfl, rfl⟩

/-! ### What no edge of a frame touches (R266) -/

theorem latchNext_only {k : Nat} {s t : State} (h : latchNext k s = .next t) : EncoderOnly s t := by
  obtain ⟨w, -, h⟩ := andThen_eq_next.1 h
  injection h with h
  subst h
  rfl

theorem latchIfNeeded_only {j : Nat} {s t : State} (h : latchIfNeeded j s = .next t) : EncoderOnly s t := by
  unfold latchIfNeeded at h
  split at h
  · exact latchNext_only h
  · injection h with h
    subst h
    rfl

theorem load_only {j : Nat} {s t : State} (h : load j s = .next t) : EncoderOnly s t := by
  unfold load at h
  have h0 : EncoderOnly s { s with byteIx := BitVec.ofNat 18 j, bitIx := 7 } := rfl
  simp only [] at h
  split at h
  · obtain ⟨v, -, h⟩ := andThen_eq_next.1 h
    injection h with h
    subst h
    rfl
  · obtain ⟨u, hu, h⟩ := andThen_eq_next.1 h
    injection h with h
    have h1 : EncoderOnly { s with byteIx := BitVec.ofNat 18 j, bitIx := 7 }
        (advanceColour j { s with byteIx := BitVec.ofNat 18 j, bitIx := 7 }) := by
      unfold advanceColour
      split <;> rfl
    refine ((h0.trans h1).trans (latchIfNeeded_only hu)).trans ?_
    subst h
    rfl

/-- An edge of a frame changes encoder and pipeline registers only (R262, R266). -/
theorem tick_only {s t : State} (h : tick s = .next t) : EncoderOnly s t := by
  unfold tick at h
  split at h
  · injection h with h
    subst h
    rfl
  · split at h
    · exact load_only h
    · injection h with h
      subst h
      rfl
    · unfold endLow at h
      split at h
      · injection h with h
        subst h
        rfl
      · split at h
        · exact load_only h
        · injection h with h
          subst h
          rfl

/-- Accepting a REFRESH changes encoder and pipeline registers only (R241). -/
theorem execRefresh_only {s t : State} (h : execRefresh s = .next t) : EncoderOnly s t := by
  unfold execRefresh at h
  split at h
  · injection h with h
    subst h
    rfl
  · split at h
    · injection h with h
      subst h
      rfl
    · obtain ⟨w, -, h⟩ := andThen_eq_next.1 h
      injection h with h
      subst h
      rfl

end Sys2Proof.Laws
end

