-- ==== Sys2Proof/Laws/PerInstr.lean ====
section
/-!
SUPPORT. The family TableRow: the word of a command has the fixed bits of its own row of the
table (spec 30_encoding R115).
-/
namespace Sys2Proof.Laws

/-- Bit by bit, what a mask leaves of a packed word. -/
theorem packWord_and (op op' : BitVec 4) (p p' : BitVec 1) (z z' : BitVec 3) (i i' : Idx) (b b' : Byte)
    (d d' : Word32) : packWord op p z i b d &&& packWord op' p' z' i' b' d' =
      packWord (op &&& op') (p &&& p') (z &&& z') (i &&& i') (b &&& b') (d &&& d') := by
  apply BitVec.eq_of_getLsbD_eq
  intro k hk
  simp only [BitVec.getLsbD_and, getLsbD_packWord]
  repeat' split
  all_goals rfl

/-- A mask of zeros leaves nothing of a field. -/
theorem and_zero_field {n : Nat} (x : BitVec n) : x &&& (0 : BitVec n) = 0 := BitVec.and_zero

/-- The command's word matches the table's row of the command. -/
def TableRow.Statement (i : Instr) : Prop :=
  ∃ row, opcodeRows[rowOf i]? = some row ∧ rowMatches (encode i) row = true

theorem TableRow.nop : TableRow.Statement .nop := ⟨_, rfl, by decide⟩
theorem TableRow.beginCmd : TableRow.Statement .beginCmd := ⟨_, rfl, by decide⟩

theorem TableRow.setgrb (i : Idx) (p : Bool) (pb g r b : Byte) : TableRow.Statement (.setgrb i p pb g r b) := by
  refine ⟨_, rfl, ?_⟩
  rw [rowMatches, show (0xF7000000FF000000 : Word64) = packWord 0xF 0 7 0 0 0xFF000000 from by decide, encode,
    packWord_and, beq_iff_eq,
    show (0#8 ++ g ++ r ++ b : BitVec (8 + 8 + 8 + 8)) &&& 0xFF000000 = (0 : Word32) from ?_]
  · simp only [and_zero_field]
    decide
  · apply BitVec.eq_of_getLsbD_eq
    intro k hk
    rw [BitVec.getLsbD_and, BitVec.getLsbD_append, BitVec.getLsbD_append, BitVec.getLsbD_append]
    simp only [BitVec.getLsbD_zero]
    by_cases h : k < 24
    · have : BitVec.getLsbD (0xFF000000 : Word32) k = false := by
        have : ∀ n : Fin 24, BitVec.getLsbD (0xFF000000 : Word32) n = false := by decide
        exact this ⟨k, h⟩
      rw [this, Bool.and_false]
      exact BitVec.getLsbD_zero.symm
    · rw [if_neg (by omega), if_neg (by omega), if_neg (by omega)]
      simp

theorem TableRow.setgrbp (i : Idx) (w : Word32) : TableRow.Statement (.setgrbp i w) := by
  refine ⟨_, rfl, ?_⟩
  rw [rowMatches, show (0xFF0000FF00000000 : Word64) = packWord 0xF 1 7 0 0xFF 0 from by decide, encode,
    packWord_and, beq_iff_eq]
  simp only [and_zero_field]
  decide

theorem TableRow.sethsv (i : Idx) (hue : BitVec 16) (sat val : Byte) : TableRow.Statement (.sethsv i hue sat val) := by
  refine ⟨_, rfl, ?_⟩
  rw [rowMatches, show (0xFF0000FF00000000 : Word64) = packWord 0xF 1 7 0 0xFF 0 from by decide, encode,
    packWord_and, beq_iff_eq]
  simp only [and_zero_field]
  decide

theorem TableRow.sethsvp (i : Idx) (w : Word32) : TableRow.Statement (.sethsvp i w) := by
  refine ⟨_, rfl, ?_⟩
  rw [rowMatches, show (0xFF0000FF00000000 : Word64) = packWord 0xF 1 7 0 0xFF 0 from by decide, encode,
    packWord_and, beq_iff_eq]
  simp only [and_zero_field]
  decide

theorem TableRow.setpb (i : Idx) (v : Byte) : TableRow.Statement (.setpb i v) := by
  refine ⟨_, rfl, ?_⟩
  rw [rowMatches, show (0xFF000000FFFFFFFF : Word64) = packWord 0xF 1 7 0 0 0xFFFFFFFF from by decide, encode,
    packWord_and, beq_iff_eq]
  simp only [and_zero_field]
  decide

theorem TableRow.getpb (i : Idx) : TableRow.Statement (.getpb i) := by
  refine ⟨_, rfl, ?_⟩
  rw [rowMatches, show (0xFF0000FFFFFFFFFF : Word64) = packWord 0xF 1 7 0 0xFF 0xFFFFFFFF from by decide, encode,
    packWord_and, beq_iff_eq]
  simp only [and_zero_field]
  decide

theorem TableRow.clrall : TableRow.Statement .clrall := ⟨_, rfl, by decide⟩

theorem TableRow.clrone (i : Idx) : TableRow.Statement (.clrone i) := by
  refine ⟨_, rfl, ?_⟩
  rw [rowMatches, show (0xFF0000FFFFFFFFFF : Word64) = packWord 0xF 1 7 0 0xFF 0xFFFFFFFF from by decide, encode,
    packWord_and, beq_iff_eq]
  simp only [and_zero_field]
  decide

theorem TableRow.setgb (v : Byte) : TableRow.Statement (.setgb v) := by
  refine ⟨_, rfl, ?_⟩
  rw [rowMatches, show (0xFFFFFF00FFFFFFFF : Word64) = packWord 0xF 1 7 0xFFFF 0 0xFFFFFFFF from by decide, encode,
    packWord_and, beq_iff_eq]
  simp only [and_zero_field]
  decide

theorem TableRow.getcnt : TableRow.Statement .getcnt := ⟨_, rfl, by decide⟩

theorem TableRow.rdbuf (a : Word32) : TableRow.Statement (.rdbuf a) := by
  refine ⟨_, rfl, ?_⟩
  rw [rowMatches, show (0xFFFFFFFF00000000 : Word64) = packWord 0xF 1 7 0xFFFF 0xFF 0 from by decide, encode,
    packWord_and, beq_iff_eq]
  simp only [and_zero_field]
  decide

theorem TableRow.refresh : TableRow.Statement .refresh := ⟨_, rfl, by decide⟩
theorem TableRow.getstat : TableRow.Statement .getstat := ⟨_, rfl, by decide⟩

end Sys2Proof.Laws
end

