-- ==== Sys2Proof/Tests/Slice0.lean ====
section
/-!
SUPPORT. Tests. Expected values are those of spec/95_test_vectors (the vector's number stands at each test), of the
worked examples of the rules, or hand calculation from them. Then the witnesses: for each statement of
Certificates/Slice0/Obligations.lean with hypotheses, states and operands that meet them, clause by clause.
-/
namespace Sys2Proof.Tests
open Sys2Proof.Machine Sys2Proof.Safety

/-! ### Small states -/

/-- A reset block of a configuration. -/
def blockOf (cfg : Config) : State := { State.reset with cfg := cfg }

def cfgPerpix : Config := { Config.default with brightMode := .perpix, n := 2 }
def cfgHsv : Config := { Config.default with colorMode := .hsv }
def cfgZero : Config := { Config.default with n := 8, allocOk := false }
def cfgCaller : Config :=
  { cfgPerpix with memMode := .caller, baseScaled := 0xFFFFFFFA, baseOrig := 0x2000, basePb := 0x2006 }

def sGlobal : State := { blockOf Config.default with gbright := 128 }
def sPerpix : State := { blockOf cfgPerpix with gbright := 128 }
def sHsv : State := blockOf cfgHsv
def sZero : State := blockOf cfgZero
def sCaller : State := blockOf cfgCaller

/-- The state with the word presented at the next edge. -/
def given (w : Word64) (s : State) : State := { s with inputs := [⟨false, .present w, []⟩] }

/-- The outcome is a next state of which the check holds. -/
def nextWith (r : Res State) (p : State → Bool) : Bool :=
  match r with
  | .next t => p t
  | .fault _ => false
  | .refused _ => false

/-- The first `k` bytes of a store. -/
def bytes (s : State) (x : Store) (k : Nat) : List Nat := (List.range k).map fun a => (s.byteAt x a).toNat

/-! ### Decoding: words written out from R115, L2.1 -/

theorem test_decode_nop : decode 0x0000000000000000 = .ok .nop := by rfl
theorem test_decode_begin : decode 0x1000000000000000 = .ok .beginCmd := by rfl
theorem test_decode_setgrb : decode 0x20000000006496C8 = .ok (.setgrb 0 false 0 100 150 200) := by rfl
theorem test_decode_setgrb_pb : decode 0x28000180000A141E = .ok (.setgrb 1 true 128 10 20 30) := by rfl
theorem test_decode_setgrb_ignored_b8 : decode 0x2000001200000000 = .ok (.setgrb 0 false 0x12 0 0 0) := by rfl
theorem test_decode_setgrbp : decode 0x30000000FFFF0000 = .ok (.setgrbp 0 0xFFFF0000) := by rfl
theorem test_decode_sethsv : decode 0x400003000200FFFF = .ok (.sethsv 3 512 255 255) := by rfl
theorem test_decode_sethsvp : decode 0x500000000200FFFF = .ok (.sethsvp 0 0x0200FFFF) := by rfl
theorem test_decode_setpb : decode 0x6000054000000000 = .ok (.setpb 5 64) := by rfl
theorem test_decode_getpb : decode 0x7000050000000000 = .ok (.getpb 5) := by rfl
theorem test_decode_clrall : decode 0x8000000000000000 = .ok .clrall := by rfl
theorem test_decode_clrone : decode 0x9000070000000000 = .ok (.clrone 7) := by rfl
theorem test_decode_setgb : decode 0xA000008000000000 = .ok (.setgb 128) := by rfl
theorem test_decode_getcnt : decode 0xB000000000000000 = .ok .getcnt := by rfl
theorem test_decode_rdbuf : decode 0xC0000000FFFFFFFF = .ok (.rdbuf 0xFFFFFFFF) := by rfl
theorem test_decode_refresh : decode 0xD000000000000000 = .ok .refresh := by rfl
theorem test_decode_getstat : decode 0xE000000000000000 = .ok .getstat := by rfl

/-- The reserved words of L2.1. -/
theorem test_decode_reserved :
    ([0xF000000000000000, 0xFFFFFFFFFFFFFFFF, 0x2100000000000000, 0x4100000000000000, 0x0000000000000001,
      0x3800000000000000, 0x3000000100000000, 0x2000000001000000, 0xD000000000000001, 0x1000010000000000,
      0xC000000100000000, 0xA000010000000000, 0x9000000100000000, 0x6000000000000001] : List Word64).all
      (fun w => !(decode w).isOk) = true := by decide
theorem test_decode_reserved_by_name :
    decode 0x3800000000000000 = .error (.mustBeZero "SETGRBP") ∧ decode 0xF000000000000000 = .error .opcodeF :=
  ⟨by rfl, by rfl⟩
theorem test_decodeTableWord_short : decodeTableWord 32 0 = some .nop := by rfl

/-! ### Assembly: each check of WellFormed refuses an ill-formed line (R140) -/

theorem test_asm_setgrb : (AsmLine.setgrb 1 10 20 30 (some 128)).assemble = some [0x28000180000A141E] := by rfl
theorem test_asm_refuses_index : (AsmLine.getpb 65536).wf = false ∧ (AsmLine.clrone 65536).wf = false := by decide
theorem test_asm_refuses_setgrb :
    (AsmLine.setgrb 65536 0 0 0 none).wf = false ∧ (AsmLine.setgrb 0 256 0 0 none).wf = false ∧
    (AsmLine.setgrb 0 0 256 0 none).wf = false ∧ (AsmLine.setgrb 0 0 0 256 none).wf = false ∧
    (AsmLine.setgrb 0 0 0 0 (some 256)).wf = false := by decide
theorem test_asm_refuses_packed :
    (AsmLine.setgrbp 65536 0).wf = false ∧ (AsmLine.setgrbp 0 4294967296).wf = false ∧
    (AsmLine.sethsvp 65536 0).wf = false ∧ (AsmLine.sethsvp 0 4294967296).wf = false := by decide
theorem test_asm_refuses_sethsv :
    (AsmLine.sethsv 65536 0 0 0).wf = false ∧ (AsmLine.sethsv 0 65536 0 0).wf = false ∧
    (AsmLine.sethsv 0 0 256 0).wf = false ∧ (AsmLine.sethsv 0 0 0 256).wf = false := by decide
theorem test_asm_refuses_brightness :
    (AsmLine.setpb 65536 0).wf = false ∧ (AsmLine.setpb 0 256).wf = false ∧ (AsmLine.setgb 256).wf = false ∧
    (AsmLine.setbrightness 256).wf = false := by decide
theorem test_asm_refuses_offset : (AsmLine.rdbuf 4294967296).assemble = none := by rfl
theorem test_asm_refuses_setrgb :
    (AsmLine.setrgb 65536 0 0 0).wf = false ∧ (AsmLine.setrgb 0 256 0 0).wf = false ∧
    (AsmLine.setrgb 0 0 256 0).wf = false ∧ (AsmLine.setrgb 0 0 0 256).wf = false := by decide

/-! ### Colour: L2.2, L2.3 -/

theorem test_hsv_ramp_down : hsvToRgb cfgHsv 384 255 255 = ⟨127, 255, 0⟩ := by decide
theorem test_hsv_capped : hsvToRgb cfgHsv 1279 128 200 = ⟨200, 100, 200⟩ := by decide
theorem test_hsv_last_sector : hsvToRgb cfgHsv 1408 255 255 = ⟨255, 0, 127⟩ := by decide
theorem test_hsv_wrap : hsvToRgb cfgHsv 65535 255 255 = ⟨0, 0, 255⟩ := by decide
theorem test_hsv_note_row : hsvToRgb cfgHsv 100 200 50 = ⟨50, 26, 11⟩ := by decide
theorem test_hsv_chroma_zero : hsvToRgb cfgHsv 1000 10 10 = ⟨10, 10, 10⟩ := by decide
theorem test_compose_corrected : composePP 200 255 128 = 99 := by decide
theorem test_compose_global : composeG 255 255 = 254 := by decide

/-! ### Timing: L2.11 -/

theorem test_counts_16MHz : { Config.default with clkHz := 16000000 }.counts = ⟨4, 16, 13, 6⟩ := by
  decide +kernel
theorem test_counts_1250kHz_refused : { Config.default with clkHz := 1250000 }.timingLegal = false := by
  decide +kernel

/-! ### One step each: L2.4 to L2.13 -/

theorem test_setgrb_global :
    nextWith (step (given 0x20000000006496C8 sGlobal)) (fun t => bytes t .scaled 3 == [50, 75, 100]) = true := by decide
theorem test_setgrb_perpix : nextWith (step (given 0x28000180000A141E sPerpix))
    (fun t => bytes t .scaled 6 == [0, 0, 0, 2, 5, 7] && bytes t .pb 2 == [255, 128]) = true := by decide
theorem test_setgrbp_perpix :
    nextWith (exec (.setgrbp 1 0xFF804020)
        { blockOf cfgPerpix with mem := { State.reset.mem with pb := [(1, 128)] } })
      (fun t => bytes t .orig 6 == [0, 0, 0, 64, 128, 32] && bytes t .scaled 6 == [0, 0, 0, 31, 63, 15]) = true := by
  decide
theorem test_setgrb_out_of_range :
    nextWith (step (given 0x2000030000010203 sGlobal)) (fun t => t.mem == State.reset.mem) = true := by decide
theorem test_sethsv : nextWith (exec (.sethsv 2 65535 1 2) sHsv)
    (fun t => bytes t .scaled 12 == [0, 0, 0, 0, 0, 0, 0, 0, 255, 255, 1, 2]) = true := by decide
theorem test_sethsvp : nextWith (exec (.sethsvp 2 0x0400FFFF) sHsv)
    (fun t => bytes t .scaled 12 == [0, 0, 0, 0, 0, 0, 0, 0, 0, 4, 255, 255]) = true := by decide
theorem test_setpb : nextWith (exec (.setpb 0 128)
      { sPerpix with mem := { sPerpix.mem with orig := [(0, 200), (1, 200), (2, 200)] } })
    (fun t => bytes t .scaled 3 == [50, 50, 50]) = true := by decide
theorem test_getpb : nextWith (step (given 0x7000010000000000 sPerpix))
    (fun t => t.rspValid && t.rspData == 255) = true := by decide
theorem test_clrone : nextWith (exec (.clrone 1)
      { sGlobal with mem := { sGlobal.mem with scaled := [(0, 50), (1, 75), (2, 100), (3, 64), (4, 127)] } })
    (fun t => t.mem.scaled == [(0, 50), (1, 75), (2, 100)]) = true := by decide
theorem test_clrall_keeps_pb : nextWith (exec .clrall
      { sPerpix with mem := { sPerpix.mem with scaled := [(0, 50)], orig := [(5, 200)], pb := [(0, 128)] } })
    (fun t => t.mem == ⟨[], [], [(0, 128)], []⟩) = true := by decide
theorem test_setgb_zero_pixel : nextWith (step (given 0xA000000700000000 sZero)) (fun t => t.gbright == 255) = true := by
  decide
theorem test_getcnt : nextWith (step (given 0xB000000000000000 sGlobal)) (fun t => t.rspData == 3) = true := by decide
theorem test_rdbuf_raw_slot : nextWith (exec (.rdbuf 5)
      { sHsv with mem := { sHsv.mem with scaled := [(5, 2), (6, 255)] } }) (fun t => t.rspData == 2) = true := by decide
theorem test_getstat : nextWith (step (given 0xE000000000000000 State.reset)) (fun t => t.rspData == 1) = true := by
  decide
theorem test_getstat_caller_perpix :
    nextWith (exec .getstat { sCaller with rsvdSeen := true }) (fun t => t.rspData == 0x33) = true := by decide
theorem test_reserved_word : nextWith (step (given 0x2100000000000000 State.reset))
    (fun t => t.rsvdSeen && !t.rspValid) = true := by decide
theorem test_refresh_starts : nextWith (step (given 0xD000000000000000 State.reset))
    (fun t => t.busy && !t.dout && t.cnt == 1) = true := by decide
theorem test_first_bit : nextWith (tick (startFrame
      { sGlobal with mem := { sGlobal.mem with scaled := [(0, 0xA5)] } }))
    (fun t => t.dout && t.cnt == 64 && t.shreg == 0xA5 && t.bitIx == 7) = true := by decide
theorem test_hsv_latches_next : nextWith (tick (startFrame
      { sHsv with mem := { sHsv.mem with scaled := [(5, 4), (6, 255), (7, 255)] } }))
    (fun t => t.nxt == 0x0000FE && t.nxtRaw == 0x0400FFFF) = true := by decide
theorem test_end_of_frame : nextWith (step
      { sGlobal with encState := .xmit, phase := .low, cnt := 1, byteIx := 8, bitIx := 0 }) (fun t => !t.busy && t.cmdReady) = true := by decide
theorem test_command_held : nextWith (step { given 0xA000000700000000 sGlobal with encState := .xmit, cnt := 9 })
    (fun t => t.cmdValid && t.gbright == 128 && t.cnt == 8) = true := by decide
theorem test_reset_aborts_frame : nextWith (step
      { sGlobal with encState := .xmit, phase := .high, cnt := 9, inputs := [⟨true, .keep, []⟩] }) (fun t => !t.dout && !t.busy && t.gbright == 255) = true := by decide
theorem test_caller_store : nextWith (exec (.setgrb 1 true 128 10 20 30) { sCaller with gbright := 128 })
    (fun t => t.mem.ext == [(0x2003, 10), (0x2004, 20), (0x2005, 30), (0x2007, 128), (0xFFFFFFFD, 2), (0xFFFFFFFE, 5),
      (0xFFFFFFFF, 7)]) = true := by decide

/-! ### Witnesses: states and operands that meet the hypotheses of each statement, clause by clause -/

/-- A check that holds of a next state shows that there is one. -/
theorem exists_next {r : Res State} {p : State → Bool} (h : nextWith r p = true) : ∃ t, r = .next t ∧ p t = true := by
  cases r with
  | next t => exact ⟨t, rfl, h⟩
  | fault e => cases h
  | refused e => cases h

theorem legal_perpix : cfgPerpix.legal = true := by decide +kernel
theorem legal_hsv : cfgHsv.legal = true := by decide +kernel
theorem legal_zero : cfgZero.legal = true := by decide +kernel
theorem legal_caller : cfgCaller.legal = true := by decide +kernel

/-- A frame in flight at the last bit-frame of its last byte. -/
def sSending : State :=
  { blockOf cfgPerpix with encState := .xmit, phase := .high, cnt := 18, byteIx := 5, bitIx := 0 }

/-- The last low cycle of a frame. -/
def sLastLow : State := { sSending with phase := .low, cnt := 1 }

theorem inv_blockOf {cfg : Config} (h : cfg.legal = true) : Inv (blockOf cfg) where
  legal := h
  memWf := by rfl
  inBounds _ := ⟨fun c hc => by simp [blockOf, State.reset] at hc, fun c hc => by simp [blockOf, State.reset] at hc,
    fun c hc => by simp [blockOf, State.reset] at hc⟩
  noInternal _ := ⟨rfl, rfl, rfl⟩
  extBounds c hc := by simp [blockOf, State.reset] at hc
  frame h := by simp [blockOf, State.reset] at h
  zeroPixel _ := rfl

theorem inv_sSending : Inv sSending :=
  { inv_blockOf legal_perpix with frame := fun _ => by decide, zeroPixel := fun _ => rfl }

theorem quiet_blockOf (cfg : Config) : QuietHost (blockOf cfg) := by
  intro e he
  simp [blockOf, State.reset] at he

theorem ready_blockOf (cfg : Config) : ReadyToSend (blockOf cfg) := ⟨rfl, rfl, quiet_blockOf cfg⟩

theorem witness_EncodeInvertsDecode : decode 0x2000001200000000 = .ok (.setgrb 0 false 0x12 0 0 0) := by rfl

theorem witness_StepRunsTheDecodedCommand :
    Accepts (given 0xE000000000000000 sPerpix) ∧
    decode (sample (given 0xE000000000000000 sPerpix)).cmdWord = .ok .getstat ∧
    0xE000000000000000 < 2 ^ 64 ∧ decode (BitVec.ofNat 64 0xE000000000000000) = .ok .getstat :=
  ⟨⟨rfl, rfl, rfl⟩, by rfl, by decide, by rfl⟩

theorem witness_ReservedWordOnlyRecordsItself :
    Accepts (given 1 sGlobal) ∧ decode (sample (given 1 sGlobal)).cmdWord = .error (.mustBeZero "NOP") :=
  ⟨⟨rfl, rfl, rfl⟩, by rfl⟩

theorem witness_FrameEdgeHoldsThePortAndTheStores :
    sSending.encState = .xmit ∧ sSending.nextInput.rst = false ∧ ∃ t, step sSending = .next t := by
  obtain ⟨t, h, -⟩ := exists_next (r := step sSending) (p := fun _ => true) (by decide)
  exact ⟨rfl, rfl, t, h⟩

theorem witness_ResponsesOnlyFromReadCommands :
    (let s := given 0x7000010000000000 sPerpix
     s.nextInput.rst = false ∧ (∃ t, step s = .next t) ∧ Accepts s ∧ decode (sample s).cmdWord = .ok (.getpb 1)) ∧
    (sPerpix.nextInput.rst = false ∧ (∃ t, step sPerpix = .next t) ∧
      ∀ i, Accepts sPerpix → decode (sample sPerpix).cmdWord = .ok i → isRead i = false) := by
  obtain ⟨t, h, -⟩ := exists_next (r := step (given 0x7000010000000000 sPerpix)) (p := fun _ => true) (by decide)
  refine ⟨⟨rfl, ⟨t, h⟩, ⟨rfl, rfl, rfl⟩, by rfl⟩, rfl, ⟨_, rfl⟩, fun i h => ?_⟩
  exact absurd h.2.2 (by decide)

theorem witness_ResetEdgeSetsEveryRegister :
    ({ sSending with inputs := [⟨true, .keep, []⟩] } : State).nextInput.rst = true ∧
    ({ sCaller with inputs := [⟨true, .keep, [(0x2000, 7)]⟩] } : State).nextInput.rst = true ∧
    sSending.cfg.memMode = .engine := ⟨rfl, rfl, rfl⟩

theorem witness_ElaboratedBlockHoldsResetValues :
    cfgPerpix.legal = true ∧ cfgPerpix.memMode = .engine ∧ cfgCaller.legal = true ∧
    ([(0x2000, 7), (0x2000, 9), (0x2001, 4)] : List (Word32 × Byte)) = [(0x2000, 7)] ++ (0x2000, 9) :: [(0x2001, 4)] ∧
    ∀ e ∈ ([(0x2001, 4)] : List (Word32 × Byte)), e.1 ≠ 0x2000 :=
  ⟨legal_perpix, rfl, legal_caller, rfl, by simp⟩

/-- A CALLER-mode block is built over the bytes the host wrote. -/
theorem exists_elaborated :
    elaborate cfgCaller [(0x2000, 7)] = .next (built cfgCaller [(0x2000, 7)]) := if_pos legal_caller

theorem witness_ResetStateMeetsTheInvariant : ∃ t, elaborate cfgCaller [(0x2000, 7)] = .next t :=
  ⟨_, exists_elaborated⟩

theorem witness_UnwrittenExternalByteReadsZero :
    (∃ t, elaborate cfgCaller [(0x2000, 7)] = .next t) ∧
    ∀ e ∈ ([(0x2000, 7)] : List (Word32 × Byte)), e.1.toNat ≠ 0x2001 :=
  ⟨⟨_, exists_elaborated⟩, by simp⟩

theorem witness_ElaborationRefusesIllegalConfigurations :
    (cfgHsv.colorMode = .hsv ∧ { cfgHsv with brightMode := .perpix }.brightMode = .perpix) ∧
    65535 < { Config.default with n := 65536 }.n ∧
    ¬({ Config.default with clkHz := 1250000 }.counts.t1h > { Config.default with clkHz := 1250000 }.counts.t0h) ∧
    (2 ^ 32 < { cfgCaller with baseScaled := 0xFFFFFFFB }.base .scaled
        + { cfgCaller with baseScaled := 0xFFFFFFFB }.size .scaled) ∧
    (let c := { cfgCaller with basePb := 0x2005 }
     5 < c.size .orig ∧ 0 < c.size .pb ∧ c.base .orig + 5 = c.base .pb + 0) := by decide +kernel

theorem witness_EveryStepKeepsTheInvariant : Inv sSending ∧ ∃ t, step sSending = .next t :=
  ⟨inv_sSending, witness_FrameEdgeHoldsThePortAndTheStores.2.2⟩

theorem witness_EveryStepKeepsPixelsScaled :
    Inv sSending ∧ PixelsScaled sSending ∧ sSending.cfg.memMode = .engine ∧ ∃ t, step sSending = .next t := by
  refine ⟨inv_sSending, ?_, rfl, witness_FrameEdgeHoldsThePortAndTheStores.2.2⟩
  have h : ∀ i < 2, ∀ c < 3, sSending.byteAt .scaled (3 * i + c) =
      composePP (sSending.byteAt .orig (3 * i + c)) (sSending.byteAt .pb i) 0 := by decide
  intro _ i hi
  exact ⟨0, h i hi⟩

/-- A CALLER-mode block whose host writes the byte after its last PB byte at the next edge. -/
def sWritesBeside : State := { sCaller with inputs := [⟨false, .keep, [(0x2008, 7)]⟩] }

theorem inv_sWritesBeside : Inv sWritesBeside :=
  { inv_blockOf legal_caller with frame := fun h => by simp [sWritesBeside, sCaller, blockOf, State.reset] at h }

theorem witness_EveryStepKeepsPixelsScaled_caller :
    Inv sWritesBeside ∧ PixelsScaled sWritesBeside ∧ WritesNoStoreByte sWritesBeside ∧
    ∃ t, step sWritesBeside = .next t := by
  refine ⟨inv_sWritesBeside, ?_, ?_, _, rfl⟩
  · have h : ∀ i < 2, ∀ c < 3, sWritesBeside.byteAt .scaled (3 * i + c) =
        composePP (sWritesBeside.byteAt .orig (3 * i + c)) (sWritesBeside.byteAt .pb i) 0 := by decide
    exact fun _ i hi => ⟨0, h i hi⟩
  · have h : ∀ x : Store, sWritesBeside.cfg.base x + sWritesBeside.cfg.size x ≤ 0x2008 ∨
        0x2008 < sWritesBeside.cfg.base x := by
      intro x
      cases x <;> decide
    intro e he x a ha
    have hw : sWritesBeside.nextInput.writes = [(0x2008, 7)] := rfl
    rw [hw, List.mem_singleton] at he
    have hv : e.1.toNat = 0x2008 := by rw [he]; rfl
    have hx := h x
    omega

theorem witness_FlagsChangeOnlyByTheirOwnEvents :
    nextWith (step (given 1 sGlobal)) (fun t => !sGlobal.rsvdSeen && t.rsvdSeen) = true ∧
    nextWith (step { sGlobal with rsvdSeen := true, inputs := [⟨true, .keep, []⟩] }) (fun t => !t.rsvdSeen) = true ∧
    nextWith (step (given 0xD000000000000000 sGlobal)) (fun t => t.encState == .xmit) = true ∧
    nextWith (step sLastLow) (fun t => t.encState == .idle) = true ∧
    nextWith (step (given 0xB000000000000000 sGlobal)) (fun _ => true) = true ∧
    decode (sample (given 0xB000000000000000 sGlobal)).cmdWord = .ok .getcnt :=
  ⟨by decide, by decide, by decide, by decide, by decide, by rfl⟩

theorem witness_LegalSectorFunctionsPegAChannel :
    cfgHsv.legal = true ∧ 1535 < 1536 ∧ cfgHsv.sectorOverrides = [] := ⟨legal_hsv, by decide, rfl⟩

theorem witness_DefaultChannelsStayBetweenFloorAndTop :
    cfgHsv.sectorOverrides = [] ∧ 1 ≤ (1 : Byte).toNat ∧ 1 ≤ (sectorArgs 1535 255 1).chroma := by decide

theorem witness_setters_no_op :
    sHsv.cfg.storesPlaced = true ∧ sHsv.mem.wf = true ∧ sHsv.cfg.colorMode ≠ .grb ∧
    sPerpix.cfg.storesPlaced = true ∧ sPerpix.mem.wf = true ∧ sPerpix.cfg.colorMode ≠ .hsv ∧
    sPerpix.cfg.nEff ≤ (2 : Idx).toNat ∧ sGlobal.cfg.brightMode ≠ .perpix := by decide

theorem witness_grb_setters_global :
    sGlobal.cfg.storesPlaced = true ∧ sGlobal.mem.wf = true ∧ sGlobal.cfg.colorMode = .grb ∧
    (2 : Idx).toNat < sGlobal.cfg.nEff ∧ sGlobal.cfg.brightMode = .global := by decide

theorem witness_grb_setters_perpix :
    sCaller.cfg.storesPlaced = true ∧ sCaller.cfg.modesLegal = true ∧ sCaller.mem.wf = true ∧
    sCaller.cfg.colorMode = .grb ∧ (1 : Idx).toNat < sCaller.cfg.nEff ∧ sCaller.cfg.brightMode = .perpix := by decide

theorem witness_SettingTwiceIsSettingOnce :
    sPerpix.cfg.storesPlaced = true ∧ sPerpix.mem.wf = true ∧
    (∃ t, exec (.setgrb 1 true 128 10 20 30) sPerpix = .next t) ∧ ∃ t, exec (.setgrbp 1 7) sPerpix = .next t := by
  obtain ⟨t, h, -⟩ := exists_next (r := exec (.setgrb 1 true 128 10 20 30) sPerpix) (p := fun _ => true) (by decide)
  obtain ⟨u, k, -⟩ := exists_next (r := exec (.setgrbp 1 7) sPerpix) (p := fun _ => true) (by decide)
  exact ⟨by decide, by decide, ⟨t, h⟩, u, k⟩

theorem witness_hsv_setters :
    sHsv.cfg.storesPlaced = true ∧ sHsv.mem.wf = true ∧ sHsv.cfg.colorMode = .hsv ∧
    (2 : Idx).toNat < sHsv.cfg.nEff := by decide

theorem witness_ClroneZeroesOnePixel :
    sHsv.cfg.storesPlaced = true ∧ sHsv.mem.wf = true ∧ sHsv.cfg.nEff ≤ (3 : Idx).toNat ∧
    (2 : Idx).toNat < sHsv.cfg.nEff ∧ sCaller.cfg.brightMode = .perpix := by decide

theorem witness_CommandsWriteOnlyStoreBytes :
    (∃ t, exec (.setgrb 1 true 128 10 20 30) sCaller = .next t) ∧
    ∀ x a, a < sCaller.cfg.size x → Loc.ext 0x2008 ≠ loc sCaller.cfg x a := by
  obtain ⟨t, h, -⟩ := exists_next (r := exec (.setgrb 1 true 128 10 20 30) sCaller) (p := fun _ => true) (by decide)
  refine ⟨⟨t, h⟩, fun x a ha => ?_⟩
  have hl : loc sCaller.cfg x a = .ext (sCaller.cfg.base x + a) := rfl
  rw [hl, ne_eq, Loc.ext.injEq]
  cases x with
  | scaled =>
    have hb : sCaller.cfg.base .scaled = 0xFFFFFFFA := by decide
    omega
  | orig =>
    have hs : sCaller.cfg.size .orig = 6 := by decide
    have hb : sCaller.cfg.base .orig = 0x2000 := by decide
    omega
  | pb =>
    have hs : sCaller.cfg.size .pb = 2 := by decide
    have hb : sCaller.cfg.base .pb = 0x2006 := by decide
    omega

theorem witness_GetcntAndZeroPixel : sZero.cfg.zeroPixel = true ∧ sGlobal.cfg.zeroPixel = false := by decide

theorem witness_RefreshStartsAFrame :
    sZero.cfg.nEff = 0 ∧ 0 < sHsv.cfg.nEff ∧ 0 < sGlobal.cfg.nEff ∧ sHsv.rst = false := by decide

theorem noReset_blockOf (cfg : Config) : NoReset (blockOf cfg) := fun e he => (quiet_blockOf cfg e he).1

/-- A CALLER-mode frame in its high phase whose host writes a SCALED byte at the next edge. -/
def sWrittenTo : State :=
  { sCaller with
    encState := .xmit, phase := .high, cnt := 18, byteIx := 4, inputs := [⟨false, .present 1, [(0xFFFFFFFF, 9)]⟩] }

theorem noReset_sWrittenTo : NoReset sWrittenTo := by
  intro e he
  rw [show sWrittenTo.inputs = [⟨false, .present 1, [(0xFFFFFFFF, 9)]⟩] from rfl, List.mem_singleton] at he
  rw [he]

theorem witness_DelayLastsExactlyItsCount :
    sWrittenTo.encState = .xmit ∧ 1 ≤ sWrittenTo.cnt.toNat ∧ 0 < sWrittenTo.cfg.nEff ∧ NoReset sWrittenTo ∧
    NoReset sLastLow ∧ 1 ≤ sLastLow.cnt.toNat ∧ NoReset (startFrame sHsv) ∧ 1 ≤ (startFrame sHsv).cnt.toNat :=
  ⟨rfl, by decide, by decide, noReset_sWrittenTo, noReset_blockOf cfgPerpix, by decide, noReset_blockOf cfgHsv,
    by decide⟩

theorem witness_BitFrameIsHighThenLow :
    sWrittenTo.encState = .xmit ∧ sWrittenTo.rst = false ∧ sWrittenTo.phase = .high ∧
    sWrittenTo.cfg.timingLegal = true ∧ sWrittenTo.cnt.toNat = sWrittenTo.cfg.highCycles sWrittenTo.currentBit ∧
    NoReset sWrittenTo :=
  ⟨rfl, rfl, rfl, by decide, by decide, noReset_sWrittenTo⟩

theorem witness_FrameRunsToItsEnd :
    Inv sWritesBeside ∧ sWritesBeside.encState = .idle ∧ sWritesBeside.rst = false ∧ NoReset sWritesBeside ∧
    0 < sWritesBeside.cfg.nEff ∧ ∃ t, exec .refresh sWritesBeside = .next t := by
  obtain ⟨t, h, -⟩ := exists_next (r := exec .refresh sWritesBeside) (p := fun _ => true) (by decide)
  refine ⟨inv_sWritesBeside, rfl, rfl, ?_, by decide, t, h⟩
  intro e he
  rw [show sWritesBeside.inputs = [⟨false, .keep, [(0x2008, 7)]⟩] from rfl, List.mem_singleton] at he
  rw [he]

theorem witness_FrameDrivesItsWaveform :
    Inv (blockOf cfgPerpix) ∧ ReadyToSend (blockOf cfgPerpix) ∧ 0 < (blockOf cfgPerpix).cfg.nEff ∧
    ∃ t, exec .refresh (blockOf cfgPerpix) = .next t :=
  ⟨inv_blockOf legal_perpix, ready_blockOf cfgPerpix, by decide, _, rfl⟩

/-- A GRB block with the pixels and counts of `sHsv`, whose slots are all black. -/
def sDirect : State := { blockOf { cfgPerpix with n := 3 } with gbright := 9 }

theorem legal_direct : ({ cfgPerpix with n := 3 } : Config).legal = true := by decide +kernel

theorem inv_sDirect : Inv sDirect where
  legal := legal_direct
  memWf := by rfl
  inBounds h := (inv_blockOf legal_direct).inBounds h
  noInternal _ := ⟨rfl, rfl, rfl⟩
  extBounds := (inv_blockOf legal_direct).extBounds
  frame h := by simp [sDirect, blockOf, State.reset] at h
  zeroPixel h := absurd h (by decide)

theorem witness_FusedPathEqualsDirectPath :
    Inv sHsv ∧ Inv sDirect ∧ ReadyToSend sHsv ∧ ReadyToSend sDirect ∧ sHsv.cfg.colorMode = .hsv ∧
    sDirect.cfg.colorMode = .grb ∧ 0 < sHsv.cfg.nEff ∧ sDirect.cfg.nEff = sHsv.cfg.nEff ∧
    sDirect.cfg.counts = sHsv.cfg.counts ∧ sDirect.cfg.startLat = sHsv.cfg.startLat ∧
    (∀ k < sHsv.cfg.nEff, ∀ q < 3, sDirect.byteAt .scaled (3 * k + q) =
      colourByte (slotColour sHsv.cfg (sHsv.rawSlot k) sHsv.gbright) q) ∧
    (∃ t, exec .refresh sHsv = .next t) ∧ ∃ t, exec .refresh sDirect = .next t := by
  obtain ⟨t, h, -⟩ := exists_next (r := exec .refresh sHsv) (p := fun _ => true) (by decide)
  obtain ⟨u, k, -⟩ := exists_next (r := exec .refresh sDirect) (p := fun _ => true) (by decide)
  exact ⟨inv_blockOf legal_hsv, inv_sDirect, ready_blockOf cfgHsv, ready_blockOf { cfgPerpix with n := 3 }, rfl, rfl,
    by decide, by decide, rfl, rfl, by decide, ⟨t, h⟩, u, k⟩

/-- The state `sHsv` with another history. -/
def sHsvLater : State := { sHsv with rsvdSeen := true, shreg := 5, rspData := 7 }

theorem inv_sHsvLater : Inv sHsvLater where
  legal := legal_hsv
  memWf := by rfl
  inBounds h := (inv_blockOf legal_hsv).inBounds h
  noInternal _ := ⟨rfl, rfl, rfl⟩
  extBounds := (inv_blockOf legal_hsv).extBounds
  frame h := by simp [sHsvLater, sHsv, blockOf, State.reset] at h
  zeroPixel _ := rfl

theorem witness_EqualStoresSendEqualFrames :
    Inv sHsv ∧ Inv sHsvLater ∧ ReadyToSend sHsv ∧ ReadyToSend sHsvLater ∧ sHsvLater.cfg = sHsv.cfg ∧
    sHsvLater.gbright = sHsv.gbright ∧ 0 < sHsv.cfg.nEff ∧
    (∀ a < sHsv.cfg.size .scaled, sHsvLater.byteAt .scaled a = sHsv.byteAt .scaled a) ∧
    (∃ t, exec .refresh sHsv = .next t) ∧ ∃ t, exec .refresh sHsvLater = .next t := by
  obtain ⟨t, h, -⟩ := exists_next (r := exec .refresh sHsv) (p := fun _ => true) (by decide)
  obtain ⟨u, k, -⟩ := exists_next (r := exec .refresh sHsvLater) (p := fun _ => true) (by decide)
  exact ⟨inv_blockOf legal_hsv, inv_sHsvLater, ready_blockOf cfgHsv, ready_blockOf cfgHsv, rfl, rfl,
    by decide, fun _ _ => rfl, ⟨t, h⟩, u, k⟩

theorem witness_NextColourIsLatchedAtThePixelBoundary :
    sHsv.cfg.colorMode = .hsv ∧ 1 + 1 < sHsv.cfg.nEff ∧ sHsv.slotRaced (1 + 1) = false ∧
    sHsv.byteAt .scaled (4 * (1 + 1) + 3) = 0 ∧ 2 + 1 = sHsv.cfg.nEff := by decide

/-- A CALLER-mode frame in flight whose last SCALED byte the host wrote. -/
def sRaced : State := { sCaller with encState := .xmit, raced := [0xFFFFFFFF] }

/-- A CALLER-mode HSV frame in flight; the host wrote a byte of its second slot. -/
def sRacedHsv : State :=
  { blockOf { cfgHsv with memMode := .caller, baseScaled := 0x1000 } with encState := .xmit, raced := [0x1007] }

theorem witness_RacedByteIsAFreeDraw :
    (sRaced.cfg.colorMode = .grb ∧ 5 < sRaced.cfg.size .scaled ∧ sRaced.isRaced 5 = true ∧ sRaced.isRaced 4 = false) ∧
    (sRacedHsv.cfg.colorMode = .hsv ∧ 0 + 1 < sRacedHsv.cfg.nEff ∧ sRacedHsv.slotRaced (0 + 1) = true ∧
      sRacedHsv.isRaced (4 * 1 + 3) = true ∧ sRacedHsv.slotRaced 2 = false) ∧
    sRaced.cfg.memMode = .caller ∧ sRaced.encState = .xmit ∧
    (0xFFFFFFFE : Word32).toNat = sRaced.cfg.base .scaled + 4 := by decide

theorem witness_HostWriteIsSeenAtTheNextEdge :
    (let s : State := { sCaller with inputs := [⟨false, .keep, [(0x2007, 3), (0x2007, 5), (0x2006, 1)]⟩] }
     s.cfg.memMode = .caller ∧ s.mem.wf = true ∧
     s.nextInput.writes = [(0x2007, 3)] ++ (0x2007, 5) :: [(0x2006, 1)] ∧
     (∀ f ∈ ([(0x2006, 1)] : List (Word32 × Byte)), f.1 ≠ 0x2007) ∧
     (0x2007 : Word32).toNat = s.cfg.base .pb + 1) :=
  ⟨rfl, by rfl, rfl, by simp, by decide⟩

theorem witness_SamplingTakesTheHostsActionsOnly :
    sWrittenTo.nextInput.cmd = .present 1 ∧ sWritesBeside.nextInput.cmd = .keep ∧ sCaller.nextInput.writes = [] ∧
    sWritesBeside.encState = .idle := ⟨rfl, rfl, rfl, rfl⟩

theorem witness_IdleEdgeChangesNothing :
    sWritesBeside.encState = .idle ∧ sWritesBeside.nextInput.rst = false ∧ (sample sWritesBeside).cmdValid = false :=
  ⟨rfl, rfl, rfl⟩

theorem witness_CountsComeFromTheTableOrTheFormula :
    Config.default.timingTable.lookup Config.default.clkHz = some ⟨18, 80, 64, 28⟩ ∧
    ∀ e ∈ { Config.default with clkHz := 16000000 }.timingTable, e.1 ≠ 16000000 :=
  ⟨by rfl, by simp [Config.default, Config.defaultTimingTable]⟩

theorem witness_SubWindowsGiveTheBitFrame : Config.default.timingLegal = true := by decide

end Sys2Proof.Tests
end

section
/-!
SUPPORT. Elaboration (spec 00_scope R10): what each part of a legal configuration says, and that elaboration refuses a
configuration which breaks one of them.
-/
namespace Sys2Proof.Laws
open Sys2Proof.Machine

/-! ### The parts of a legal configuration -/

theorem legal_iff {cfg : Config} : cfg.legal = true ↔
    cfg.rangesLegal = true ∧ cfg.modesLegal = true ∧ cfg.timingLegal = true ∧ cfg.storesPlaced = true ∧
      cfg.sectorFnLegal = true := by
  simp only [Config.legal, Bool.and_eq_true, and_assoc]

theorem rangesLegal_iff {cfg : Config} :
    cfg.rangesLegal = true ↔ cfg.n ≤ 65535 ∧ 1 ≤ cfg.clkHz ∧ cfg.clkHz ≤ 1000000000 := by
  simp only [Config.rangesLegal, Bool.and_eq_true, decide_eq_true_eq, and_assoc]

theorem modesLegal_iff {cfg : Config} :
    cfg.modesLegal = true ↔ ¬(cfg.colorMode = .hsv ∧ cfg.brightMode = .perpix) := by
  simp only [Config.modesLegal, Bool.not_eq_true', ← Bool.not_eq_true, Bool.and_eq_true, beq_iff_eq]

theorem countLegal_iff {c : Nat} : countLegal c = true ↔ 1 ≤ c ∧ c ≤ 65535 := by
  simp only [countLegal, Bool.and_eq_true, decide_eq_true_eq]

theorem timingLegal_iff {cfg : Config} : cfg.timingLegal = true ↔
    (∀ c ∈ [cfg.counts.t0h, cfg.counts.t0l, cfg.counts.t1h, cfg.counts.t1l, cfg.startLat], 1 ≤ c ∧ c ≤ 65535) ∧
      cfg.counts.t1h > cfg.counts.t0h ∧ cfg.counts.t0l > cfg.counts.t1h - cfg.counts.t0h := by
  simp only [Config.timingLegal, Bool.and_eq_true, countLegal_iff, decide_eq_true_eq, List.forall_mem_cons,
    List.not_mem_nil, false_implies, implies_true, and_true, and_assoc, gt_iff_lt]

/-- A placed CALLER-mode store ends inside the 32-bit external space. -/
theorem store_end_le {cfg : Config} (hp : cfg.storesPlaced = true) (hm : cfg.memMode = .caller) (x : Store) :
    cfg.base x + cfg.size x ≤ 2 ^ 32 := by
  simp only [Config.storesPlaced, hm, Bool.and_eq_true, decide_eq_true_eq] at hp
  obtain ⟨⟨⟨⟨⟨hscaled, horig⟩, hpb⟩, -⟩, -⟩, -⟩ := hp
  cases x with
  | scaled => exact hscaled
  | orig => exact horig
  | pb => exact hpb

/-- No external address belongs to two placed CALLER-mode stores. -/
theorem store_address_ne {cfg : Config} (hp : cfg.storesPlaced = true) (hm : cfg.memMode = .caller) {x y : Store}
    (hxy : x ≠ y) {a b : Nat} (ha : a < cfg.size x) (hb : b < cfg.size y) : cfg.base x + a ≠ cfg.base y + b := by
  have h := loc_ne hp hxy ha hb
  simpa only [loc, hm, ne_eq, Loc.ext.injEq] using h

/-! ### Elaboration -/

theorem elaborate_eq_refused_iff {cfg : Config} {ext : List (Word32 × Byte)} :
    elaborate cfg ext = .refused .illegalConfiguration ↔ ¬cfg.legal = true := by
  unfold elaborate
  split <;> simp [*]

end Sys2Proof.Laws

namespace Sys2Proof.Proofs
open Sys2Proof.Machine Sys2Proof.Laws

/-- Settles O12: each of the four kinds contradicts one part of `Config.legal`. -/
theorem elaborationRefusesIllegalConfigurations : Obligations.ElaborationRefusesIllegalConfigurations := by
  intro cfg ext
  simp only [elaborate_eq_refused_iff, legal_iff]
  refine ⟨fun hmodes => ?_, fun hn => ?_, fun hcounts => ?_, fun hcaller hstores => ?_⟩
  all_goals rintro ⟨hranges, hmodesLegal, htiming, hplaced, -⟩
  · exact modesLegal_iff.mp hmodesLegal hmodes
  · exact absurd (rangesLegal_iff.mp hranges).1 (Nat.not_le.mpr hn)
  · exact hcounts (timingLegal_iff.mp htiming)
  · obtain ⟨x, hend⟩ | ⟨x, y, a, b, hxy, ha, hb, hshared⟩ := hstores
    · exact absurd (store_end_le hplaced hcaller x) (Nat.not_le.mpr hend)
    · exact store_address_ne hplaced hcaller hxy ha hb hshared

end Sys2Proof.Proofs
end

section
/-!
SUPPORT. One edge by its case (spec 00_scope R13, 30_encoding R112, R130, 70_reset_and_hazards R400), what each case
does to the two flags of 10_state R35, and the block that elaboration builds (R41).
-/
namespace Sys2Proof.Laws
open Sys2Proof.Machine Sys2Proof.Safety

/-! ### What one edge can do -/

/-- The edge that leads from `s` to `t`: one case for each thing an edge can do. -/
inductive Edge (s t : State) : Prop
  /-- `rst` is high (R400). -/
  | reset (hrst : s.nextInput.rst = true) (ht : t = resetRegs (sample s))
  /-- A frame in flight advances (R262). -/
  | frame (hrst : s.nextInput.rst = false) (henc : s.encState = .xmit) (ht : tick (sample s) = .next t)
  /-- No frame is in flight and no command is presented. -/
  | idle (hrst : s.nextInput.rst = false) (henc : s.encState = .idle) (hcmd : (sample s).cmdValid = false)
      (ht : t = sample s)
  /-- A reserved word is accepted (R130). -/
  | reserved (ha : Accepts s) (e : Reserved) (he : decode (sample s).cmdWord = .error e)
      (ht : t = recordReserved (takeCommand (sample s)))
  /-- A command is accepted (R112). -/
  | command (ha : Accepts s) (i : Instr) (hi : decode (sample s).cmdWord = .ok i)
      (ht : exec i (takeCommand (sample s)) = .next t)

theorem step_reset {s : State} (h : s.nextInput.rst = true) : step s = .next (resetRegs (sample s)) := if_pos h

theorem step_frame {s : State} (hrst : s.nextInput.rst = false) (henc : s.encState = .xmit) :
    step s = tick (sample s) := by
  simp only [step, sample_rst, hrst, sample_encState, henc, Bool.false_eq_true, if_false]

theorem step_idle {s : State} (hrst : s.nextInput.rst = false) (henc : s.encState = .idle) :
    step s = idleEdge (sample s) := by
  simp only [step, sample_rst, hrst, sample_encState, henc, Bool.false_eq_true, if_false]

theorem accepts_not_xmit {s : State} (ha : Accepts s) : s.encState ≠ .xmit := by
  obtain ⟨henc, -, -⟩ := ha
  simp [henc]

theorem step_accepted {s : State} (ha : Accepts s) : step s = runCommand (sample s) := by
  obtain ⟨henc, hrst, hcmd⟩ := ha
  rw [step_idle hrst henc, idleEdge, if_pos hcmd]

theorem runCommand_ok {s : State} {i : Instr} (h : decode s.cmdWord = .ok i) :
    runCommand s = exec i (takeCommand s) := by
  simp only [runCommand, h]

theorem runCommand_error {s : State} {e : Reserved} (h : decode s.cmdWord = .error e) :
    runCommand s = .next (recordReserved (takeCommand s)) := by
  simp only [runCommand, h]

/-- A step answers a next state in these cases only, and in each of them it does. -/
theorem step_eq_next_iff {s t : State} : step s = .next t ↔ Edge s t := by
  constructor
  · intro h
    cases hrst : s.nextInput.rst with
    | true =>
      rw [step_reset hrst] at h
      exact .reset hrst (by simpa using h.symm)
    | false =>
      cases henc : s.encState with
      | xmit => exact .frame hrst henc (step_frame hrst henc ▸ h)
      | idle =>
        cases hcmd : (sample s).cmdValid with
        | false =>
          rw [step_idle hrst henc, idleEdge, hcmd] at h
          exact .idle hrst henc hcmd (by simpa using h.symm)
        | true =>
          have ha : Accepts s := ⟨henc, hrst, hcmd⟩
          rw [step_accepted ha] at h
          cases hd : decode (sample s).cmdWord with
          | ok i => exact .command ha i hd (runCommand_ok hd ▸ h)
          | error e =>
            rw [runCommand_error hd] at h
            exact .reserved ha e hd (by simpa using h.symm)
  · intro h
    cases h with
    | reset hrst ht => rw [step_reset hrst, ht]
    | frame hrst henc ht => rw [step_frame hrst henc, ht]
    | idle hrst henc hcmd ht => rw [step_idle hrst henc, idleEdge, hcmd, ht]; rfl
    | reserved ha e he ht => rw [step_accepted ha, runCommand_error he, ht]
    | command ha i hi ht => rw [step_accepted ha, runCommand_ok hi, ht]

/-! ### What a command can do -/

/-- A command other than REFRESH writes store bytes, or answers, or sets `GBRIGHT`, and does nothing else (R335). -/
theorem exec_cases {i : Instr} {s t : State} (hi : i ≠ .refresh) (h : exec i s = .next t) :
    Wrote s t ∨ (∃ v, t = respond v s) ∨ ∃ v, t = { s with gbright := v } := by
  have same : ∀ {u : State}, (.next u : Res State) = .next t → t = u := fun h => by simpa using h.symm
  cases i with
  | nop => exact .inl (same h ▸ .refl s)
  | beginCmd => exact .inl (same h ▸ .refl s)
  | setgrb ix p pb g r b => exact .inl (setGrb_wrote h)
  | setgrbp ix w =>
    simp only [exec, execSetgrbp] at h
    exact .inl (setGrb_wrote h)
  | sethsv ix hue sat val => exact .inl (setHsv_wrote h)
  | sethsvp ix w => exact .inl (setHsv_wrote h)
  | setpb ix v =>
    simp only [exec, execSetpb] at h
    split at h
    · exact .inl (same h ▸ .refl s)
    · obtain ⟨u, hu, h⟩ := andThen_eq_next.1 h
      exact .inl ((memWrite_wrote hu).trans (recompute_wrote h))
  | getpb ix =>
    simp only [exec, execGetpb] at h
    split at h
    · obtain ⟨v, -, h⟩ := andThen_eq_next.1 h
      exact .inr (.inl ⟨_, same h⟩)
    · exact .inr (.inl ⟨_, same h⟩)
  | clrall => exact .inl (clearPixels_wrote h)
  | clrone ix =>
    simp only [exec, execClrone] at h
    split at h
    · exact .inl (clearPixel_wrote h)
    · exact .inl (same h ▸ .refl s)
  | setgb v =>
    simp only [exec, execSetgb] at h
    split at h
    · exact .inl (same h ▸ .refl s)
    · exact .inr (.inr ⟨v, same h⟩)
  | getcnt => exact .inr (.inl ⟨_, same h⟩)
  | rdbuf a =>
    simp only [exec, execRdbuf] at h
    split at h
    · obtain ⟨v, -, h⟩ := andThen_eq_next.1 h
      exact .inr (.inl ⟨_, same h⟩)
    · exact .inr (.inl ⟨_, same h⟩)
  | refresh => exact absurd rfl hi
  | getstat => exact .inr (.inl ⟨_, same h⟩)

/-! ### What a command does to the flags (R35) -/

theorem exec_encState {i : Instr} {s t : State} (hi : i ≠ .refresh) (h : exec i s = .next t) :
    t.encState = s.encState := by
  rcases exec_cases hi h with ⟨es, rfl, -⟩ | ⟨v, rfl⟩ | ⟨v, rfl⟩ <;> rfl

theorem exec_rsvdSeen {i : Instr} {s t : State} (h : exec i s = .next t) : t.rsvdSeen = s.rsvdSeen := by
  by_cases hi : i = .refresh
  · subst hi
    obtain ⟨-, -, -, hseen, -⟩ := (execRefresh_only h).kept
    exact hseen
  · rcases exec_cases hi h with ⟨es, rfl, -⟩ | ⟨v, rfl⟩ | ⟨v, rfl⟩ <;> rfl

/-- Accepting a REFRESH starts a frame exactly when there are pixels (R241, R335). -/
theorem execRefresh_encState {s t : State} (h : execRefresh s = .next t) :
    t.encState = if s.cfg.nEff = 0 then s.encState else .xmit := by
  unfold execRefresh at h
  split at h
  · next hn =>
    injection h with h
    rw [if_pos hn, h]
  · next hn =>
    rw [if_neg hn]
    split at h
    · injection h with h
      rw [← h, startFrame_encState]
    · obtain ⟨w, -, h⟩ := andThen_eq_next.1 h
      injection h with h
      rw [← h]
      rfl

/-! ### What an edge of a frame does to `ENC_STATE` (R262) -/

theorem latchIfNeeded_encState {j : Nat} {s t : State} (h : latchIfNeeded j s = .next t) :
    t.encState = s.encState := by
  unfold latchIfNeeded at h
  split at h
  · obtain ⟨w, -, h⟩ := andThen_eq_next.1 h
    injection h with h
    rw [← h]
  · injection h with h
    rw [← h]

theorem advanceColour_encState (j : Nat) (s : State) : (advanceColour j s).encState = s.encState := by
  unfold advanceColour
  split <;> rfl

theorem load_encState {j : Nat} {s t : State} (h : load j s = .next t) : t.encState = s.encState := by
  simp only [load] at h
  split at h
  · obtain ⟨v, -, h⟩ := andThen_eq_next.1 h
    injection h with h
    rw [← h, startByte_encState]
  · obtain ⟨u, hu, h⟩ := andThen_eq_next.1 h
    injection h with h
    rw [← h, startByte_encState, latchIfNeeded_encState hu, advanceColour_encState]

/-- The end of a LOW phase ends the frame exactly after the last bit of its last byte (R262, R264). -/
theorem endLow_ends_frame_iff {s t : State} (hx : s.encState = .xmit) (h : endLow s = .next t) :
    t.encState = .idle ↔ s.bitIx = 0 ∧ 3 * s.cfg.nEff ≤ s.byteIx.toNat + 1 := by
  have hbit : s.bitIx = 0 ↔ ¬0 < s.bitIx.toNat := by
    rw [← BitVec.toNat_inj]
    simp
  rw [hbit, ← Nat.not_lt]
  unfold endLow at h
  split at h
  · next hb =>
    injection h with h
    simp [← h, hx, hb]
  · next hb =>
    split at h
    · next hbyte => simp [load_encState h, hx, hbyte]
    · next hbyte =>
      injection h with h
      simp [← h, hb, hbyte]

/-- An edge of a frame ends it exactly at the last cycle of its last bit's LOW phase (R262). -/
theorem tick_ends_frame_iff {s t : State} (hx : s.encState = .xmit) (h : tick s = .next t) :
    t.encState = .idle ↔
      s.phase = .low ∧ s.cnt.toNat ≤ 1 ∧ s.bitIx = 0 ∧ 3 * s.cfg.nEff ≤ s.byteIx.toNat + 1 := by
  by_cases hc : 1 < s.cnt.toNat
  · rw [tick_counting hc] at h
    injection h with h
    simp [← h, hx, Nat.not_le.mpr hc]
  · have hc' : s.cnt.toNat ≤ 1 := Nat.not_lt.mp hc
    cases hp : s.phase with
    | start =>
      rw [tick_start hc hp] at h
      simp [load_encState h, hx]
    | high =>
      rw [tick_high hc hp] at h
      injection h with h
      simp [← h, hx]
    | low =>
      rw [tick_low hc hp] at h
      simpa [hc'] using endLow_ends_frame_iff hx h

/-! ### What an edge does to the flags (R35) -/

/-- After an edge RSVD_SEEN is set when it was and no reset came, or when a reserved word was accepted. -/
theorem step_rsvdSeen_iff {s t : State} (h : step s = .next t) :
    t.rsvdSeen = true ↔ (s.nextInput.rst = false ∧ s.rsvdSeen = true) ∨
      (Accepts s ∧ ∃ e, decode (sample s).cmdWord = .error e) := by
  cases step_eq_next_iff.1 h with
  | reset hrst ht => simp [ht, hrst, Accepts]
  | frame hrst henc ht =>
    obtain ⟨-, -, -, hseen, -⟩ := (tick_only ht).kept
    simp [hseen, hrst, henc, Accepts]
  | idle hrst henc hcmd ht => simp [ht, hrst, hcmd, Accepts]
  | reserved ha e he ht => simp [ht, ha, he]
  | command ha i hi ht =>
    obtain ⟨-, hrst, -⟩ := ha
    simp [exec_rsvdSeen ht, hrst, hi]

/-- With no frame in flight, an edge starts one exactly by accepting a REFRESH with pixels. -/
theorem step_starts_frame_iff {s t : State} (hidle : s.encState = .idle) (h : step s = .next t) :
    t.encState = .xmit ↔ Accepts s ∧ decode (sample s).cmdWord = .ok .refresh ∧ 0 < s.cfg.nEff := by
  cases step_eq_next_iff.1 h with
  | reset hrst ht => simp [ht, hrst, Accepts]
  | frame hrst henc ht => simp [hidle] at henc
  | idle hrst henc hcmd ht => simp [ht, hidle, hcmd, Accepts]
  | reserved ha e he ht => simp [ht, hidle, he]
  | command ha i hi ht =>
    by_cases hr : i = .refresh
    · subst hr
      rw [execRefresh_encState ht]
      by_cases hn : s.cfg.nEff = 0 <;> simp [hn, ha, hi, hidle, Nat.pos_iff_ne_zero]
    · simp [exec_encState hr ht, hidle, hi, hr]

/-- With a frame in flight, an edge ends it exactly by reset or at the end of its last bit. -/
theorem step_ends_frame_iff {s t : State} (hxmit : s.encState = .xmit) (h : step s = .next t) :
    t.encState = .idle ↔ s.nextInput.rst = true ∨
      (s.phase = .low ∧ s.cnt.toNat ≤ 1 ∧ s.bitIx = 0 ∧ 3 * s.cfg.nEff ≤ s.byteIx.toNat + 1) := by
  cases step_eq_next_iff.1 h with
  | reset hrst ht => simp [ht, hrst]
  | frame hrst henc ht => simpa [hrst] using tick_ends_frame_iff (by simpa using hxmit) ht
  | idle hrst henc hcmd ht => simp [hxmit] at henc
  | reserved ha e he ht => exact absurd hxmit (accepts_not_xmit ha)
  | command ha i hi ht => exact absurd hxmit (accepts_not_xmit ha)

/-! ### The elaborated block (R41) -/

/-- An elaborated block is the reset state of its configuration but for the bytes the host wrote. -/
theorem built_eq (cfg : Config) (ext : List (Word32 × Byte)) : built cfg ext =
    { State.reset with cfg := cfg, mem := (built cfg ext).mem, raced := (built cfg ext).raced } :=
  hostWrites_eq ext { State.reset with cfg := cfg }

/-- The host's writes reach no internal byte, so each reads as after reset. -/
theorem built_cell (cfg : Config) (ext : List (Word32 × Byte)) (x : Store) (a : Nat) :
    (built cfg ext).mem.readLoc (.cell x a) = Loc.blank (.cell x a) := by
  rw [built, hostWrites_outside (by simp)]
  cases x <;> rfl

theorem built_byteAt {cfg : Config} (h : cfg.memMode = .engine) (ext : List (Word32 × Byte)) (x : Store) (a : Nat) :
    (built cfg ext).byteAt x a = Loc.blank (.cell x a) := by
  have hcfg : (built cfg ext).cfg = cfg := by rw [built_eq]
  simp only [State.byteAt, hcfg, loc, h, built_cell]

end Sys2Proof.Laws
end

section
/-!
SUPPORT. Nothing but GETSTAT reads RSVD_SEEN (spec 10_state R35): each operation, on a state with another value of it,
does what it does on the state itself.
-/
namespace Sys2Proof.Laws
open Sys2Proof.Machine Sys2Proof.Safety

/-- `s` with this value of RSVD_SEEN. -/
def withSeen (b : Bool) (s : State) : State := { s with rsvdSeen := b }

/-- The outcome with this value of RSVD_SEEN in its next state. -/
def outcomeWithSeen (b : Bool) (r : Res State) : Res State := andThen r fun t => .next (withSeen b t)

section fields
variable (b : Bool) (s : State)

@[simp] theorem withSeen_cfg : (withSeen b s).cfg = s.cfg := rfl
@[simp] theorem withSeen_gbright : (withSeen b s).gbright = s.gbright := rfl
@[simp] theorem withSeen_encState : (withSeen b s).encState = s.encState := rfl
@[simp] theorem withSeen_byteIx : (withSeen b s).byteIx = s.byteIx := rfl
@[simp] theorem withSeen_phase : (withSeen b s).phase = s.phase := rfl
@[simp] theorem withSeen_cmdValid : (withSeen b s).cmdValid = s.cmdValid := rfl
@[simp] theorem withSeen_cmdWord : (withSeen b s).cmdWord = s.cmdWord := rfl
@[simp] theorem withSeen_nextInput : (withSeen b s).nextInput = s.nextInput := rfl

end fields

/-! ### Sequencing -/

section sequencing
variable {α : Type} (b : Bool)

@[simp] theorem outcomeWithSeen_next (s : State) : outcomeWithSeen b (.next s) = .next (withSeen b s) := rfl

@[simp] theorem outcomeWithSeen_ite (p : Prop) [Decidable p] (r q : Res State) :
    outcomeWithSeen b (if p then r else q) = if p then outcomeWithSeen b r else outcomeWithSeen b q :=
  apply_ite (outcomeWithSeen b) p r q

@[simp] theorem outcomeWithSeen_andThen (r : Res α) (f : α → Res State) :
    outcomeWithSeen b (andThen r f) = andThen r fun a => outcomeWithSeen b (f a) := by
  cases r <;> rfl

@[simp] theorem andThen_outcomeWithSeen (r : Res State) (f : State → Res α) :
    andThen (outcomeWithSeen b r) f = andThen r fun t => f (withSeen b t) := by
  cases r <;> rfl

end sequencing

/-! ### Operations on the stores (R84, R182, R183, R205) -/

section stores
variable (b : Bool) (s : State)

@[simp] theorem memRead_withSeen (x : Store) (a : Nat) : memRead x a (withSeen b s) = memRead x a s := rfl

@[simp] theorem memWrite_withSeen (x : Store) (a : Nat) (v : Byte) :
    memWrite x a v (withSeen b s) = outcomeWithSeen b (memWrite x a v s) := by
  rw [memWrite, memWrite, outcomeWithSeen_ite]
  rfl

@[simp] theorem writeBytes_withSeen (x : Store) (a : Nat) (vs : List Byte) :
    writeBytes x a vs (withSeen b s) = outcomeWithSeen b (writeBytes x a vs s) := by
  induction vs generalizing a s with
  | nil => rfl
  | cons v vs ih => simp [writeBytes, ih]

@[simp] theorem recomputeChannel_withSeen (i c : Nat) (pb g : Byte) :
    recomputeChannel i c pb g (withSeen b s) = outcomeWithSeen b (recomputeChannel i c pb g s) := by
  simp [recomputeChannel]

@[simp] theorem recompute_withSeen (i : Nat) :
    recompute i (withSeen b s) = outcomeWithSeen b (recompute i s) := by
  simp [recompute]

@[simp] theorem clearPixel_withSeen (i : Nat) :
    clearPixel i (withSeen b s) = outcomeWithSeen b (clearPixel i s) := by
  simp only [clearPixel, withSeen_cfg, writeBytes_withSeen, andThen_outcomeWithSeen, outcomeWithSeen_andThen]
  congr
  funext u
  cases u.cfg.brightMode <;> simp

@[simp] theorem clearPixels_withSeen (k : Nat) :
    clearPixels k (withSeen b s) = outcomeWithSeen b (clearPixels k s) := by
  induction k with
  | zero => rfl
  | succ k ih => simp [clearPixels, ih]

@[simp] theorem setGrb_withSeen (i : Nat) (g r bl : Byte) (pb : Option Byte) :
    setGrb i g r bl pb (withSeen b s) = outcomeWithSeen b (setGrb i g r bl pb s) := by
  simp only [setGrb, withSeen_cfg, outcomeWithSeen_ite]
  congr 1
  cases s.cfg.brightMode with
  | global => simp [writeGlobal]
  | perpix => cases pb <;> simp [writeOrig]

@[simp] theorem setHsv_withSeen (i : Nat) (hue : BitVec 16) (sat val : Byte) :
    setHsv i hue sat val (withSeen b s) = outcomeWithSeen b (setHsv i hue sat val s) := by
  simp [setHsv]

end stores

/-! ### The frame encoder (R241, R262) -/

section encoder
variable (b : Bool) (s : State)

@[simp] theorem startFrame_withSeen : startFrame (withSeen b s) = withSeen b (startFrame s) := rfl
@[simp] theorem readRaw_withSeen (k : Nat) : readRaw k (withSeen b s) = readRaw k s := rfl

@[simp] theorem advanceColour_withSeen (j : Nat) :
    advanceColour j (withSeen b s) = withSeen b (advanceColour j s) := by
  unfold advanceColour
  split <;> rfl

@[simp] theorem latchNext_withSeen (k : Nat) :
    latchNext k (withSeen b s) = outcomeWithSeen b (latchNext k s) := by
  simp only [latchNext, readRaw_withSeen, outcomeWithSeen_andThen]
  rfl

@[simp] theorem latchIfNeeded_withSeen (j : Nat) :
    latchIfNeeded j (withSeen b s) = outcomeWithSeen b (latchIfNeeded j s) := by
  simp [latchIfNeeded]

@[simp] theorem loadGrb_withSeen (j : Nat) : loadGrb j (withSeen b s) = outcomeWithSeen b (loadGrb j s) := by
  simp only [loadGrb, outcomeWithSeen_andThen]
  rfl

@[simp] theorem loadHsv_withSeen (j : Nat) : loadHsv j (withSeen b s) = outcomeWithSeen b (loadHsv j s) := by
  simp only [loadHsv, advanceColour_withSeen, latchIfNeeded_withSeen, andThen_outcomeWithSeen,
    outcomeWithSeen_andThen]
  rfl

@[simp] theorem load_withSeen (j : Nat) : load j (withSeen b s) = outcomeWithSeen b (load j s) := by
  cases hc : s.cfg.colorMode with
  | grb =>
    simp only [load, withSeen_cfg, hc]
    exact loadGrb_withSeen b { s with byteIx := BitVec.ofNat 18 j, bitIx := 7 } j
  | hsv =>
    simp only [load, withSeen_cfg, hc]
    exact loadHsv_withSeen b { s with byteIx := BitVec.ofNat 18 j, bitIx := 7 } j

@[simp] theorem endLow_withSeen : endLow (withSeen b s) = outcomeWithSeen b (endLow s) := by
  simp only [endLow, load_withSeen, outcomeWithSeen_ite, withSeen_byteIx]
  rfl

@[simp] theorem tick_withSeen : tick (withSeen b s) = outcomeWithSeen b (tick s) := by
  simp only [tick, withSeen_phase, load_withSeen, endLow_withSeen, outcomeWithSeen_ite]
  cases s.phase <;> rfl

@[simp] theorem execRefresh_withSeen : execRefresh (withSeen b s) = outcomeWithSeen b (execRefresh s) := by
  cases hc : s.cfg.colorMode <;>
    simp only [execRefresh, withSeen_cfg, hc, startFrame_withSeen, readRaw_withSeen, outcomeWithSeen_ite,
      outcomeWithSeen_andThen] <;> rfl

end encoder

/-! ### Commands and the edge (R112, R335) -/

section edge
variable (b : Bool) (s : State)

@[simp] theorem takeCommand_withSeen : takeCommand (withSeen b s) = withSeen b (takeCommand s) := rfl

/-- Every command but GETSTAT does the same whatever RSVD_SEEN is, and leaves that as it is. -/
theorem exec_withSeen {i : Instr} (hi : i ≠ .getstat) :
    exec i (withSeen b s) = outcomeWithSeen b (exec i s) := by
  cases i with
  | nop => rfl
  | beginCmd => rfl
  | setgrb ix p pb g r bl => exact setGrb_withSeen ..
  | setgrbp ix w => simp [exec, execSetgrbp]
  | sethsv ix hue sat val => exact setHsv_withSeen ..
  | sethsvp ix w => exact setHsv_withSeen ..
  | setpb ix v =>
    simp [exec, execSetpb]
  | getpb ix =>
    simp only [exec, execGetpb, memRead_withSeen, outcomeWithSeen_ite, outcomeWithSeen_andThen]
    rfl
  | clrall => exact clearPixels_withSeen ..
  | clrone ix =>
    simp [exec, execClrone]
  | setgb v =>
    simp only [exec, execSetgb, outcomeWithSeen_ite]
    rfl
  | getcnt => rfl
  | rdbuf a =>
    simp only [exec, execRdbuf, memRead_withSeen, outcomeWithSeen_ite, outcomeWithSeen_andThen]
    rfl
  | refresh => exact execRefresh_withSeen b s
  | getstat => exact absurd rfl hi

theorem hostWrites_withSeen (es : List (Word32 × Byte)) :
    hostWrites es (withSeen b s) = withSeen b (hostWrites es s) := by
  induction es generalizing s with
  | nil => rfl
  | cons e es ih => exact ih (hostWrite s e)

theorem drivePort_withSeen (d : CmdDrive) : drivePort d (withSeen b s) = withSeen b (drivePort d s) := by
  cases d <;> rfl

@[simp] theorem sample_withSeen : sample (withSeen b s) = withSeen b (sample s) := by
  simp only [sample, withSeen_nextInput, hostWrites_withSeen, drivePort_withSeen]
  rfl

@[simp] theorem accepts_withSeen : Accepts (withSeen b s) ↔ Accepts s := by
  simp [Accepts]

/-- An edge that accepts no GETSTAT leaves the same state but for RSVD_SEEN, whatever RSVD_SEEN was. -/
theorem step_withSeen {s t : State} (h : step s = .next t)
    (hget : ¬(Accepts s ∧ decode (sample s).cmdWord = .ok .getstat)) :
    ∃ c, step (withSeen b s) = .next (withSeen c t) := by
  simp only [step_eq_next_iff]
  cases step_eq_next_iff.1 h with
  | reset hrst ht => exact ⟨false, .reset hrst (by rw [ht, sample_withSeen]; rfl)⟩
  | frame hrst henc ht => exact ⟨b, .frame hrst henc (by simp [ht])⟩
  | idle hrst henc hcmd ht => exact ⟨b, .idle hrst henc (by simpa using hcmd) (by simp [ht])⟩
  | reserved ha e he ht =>
    exact ⟨true, .reserved ((accepts_withSeen b s).2 ha) e (by simpa using he) (by rw [ht, sample_withSeen]; rfl)⟩
  | command ha i hi ht =>
    have hne : i ≠ .getstat := by
      rintro rfl
      exact hget ⟨ha, hi⟩
    exact ⟨b, .command ((accepts_withSeen b s).2 ha) i (by simpa using hi) (by simp [exec_withSeen b _ hne, ht])⟩

end edge

end Sys2Proof.Laws

namespace Sys2Proof.Proofs
open Sys2Proof.Machine Sys2Proof.Laws

/-- Settles O11: the host's writes before the first reset change external bytes only. -/
theorem elaboratedBlockHoldsResetValues : Obligations.ElaboratedBlockHoldsResetValues := by
  intro cfg ext hlegal
  have hengine : cfg.memMode = .engine → ∀ a, (built cfg ext).byteAt .scaled a = 0 ∧
      (built cfg ext).byteAt .orig a = 0 ∧ (built cfg ext).byteAt .pb a = 255 := fun hm a =>
    ⟨built_byteAt hm ext .scaled a, built_byteAt hm ext .orig a, built_byteAt hm ext .pb a⟩
  have hlast : ∀ es a v fs, ext = es ++ (a, v) :: fs → (∀ e ∈ fs, e.1 ≠ a) →
      (built cfg ext).mem.readLoc (.ext a.toNat) = v := by
    rintro es a v fs rfl hfs
    exact hostWrites_last (e := (a, v)) reset_mem_wf hfs
  refine ⟨built cfg ext, if_pos hlegal, ?_⟩
  rw [built_eq] at hengine hlast ⊢
  exact ⟨rfl, rfl, rfl, rfl, rfl, rfl, rfl, rfl, rfl, rfl, rfl, rfl, rfl, rfl, rfl, rfl, rfl, rfl, rfl,
    hengine, hlast⟩

/-- Settles O19: each flag by the case of the edge, and every operation but GETSTAT's is blind to RSVD_SEEN. -/
theorem flagsChangeOnlyByTheirOwnEvents : Obligations.FlagsChangeOnlyByTheirOwnEvents := by
  refine ⟨fun s t h => ⟨fun hlow => ?_, fun hhigh => ?_, fun hidle => step_starts_frame_iff hidle h,
    fun hxmit => step_ends_frame_iff hxmit h⟩, fun s t b h hget => step_withSeen b h hget⟩
  · simp [step_rsvdSeen_iff h, hlow]
  · rw [← Bool.not_eq_true, step_rsvdSeen_iff h]
    cases hrst : s.nextInput.rst <;> simp [hhigh, hrst, Safety.Accepts]

/-- Settles O42: the three factors of `dout`. -/
theorem lineIsHighExactlyInTheHighPhase : Obligations.LineIsHighExactlyInTheHighPhase := by
  intro s
  simp only [State.dout, Bool.and_eq_true, Bool.not_eq_true', beq_iff_eq, and_assoc]

end Sys2Proof.Proofs
end

section
/-!
SUPPORT. A word against the rows of the table, field by field (spec 30_encoding R110, R115), the decoder by its opcode
(R130, R132), and the assembly of lines that stand for the same commands (R140, R141).
-/
namespace Sys2Proof.Laws

/-! ### Matching a row, field by field (R110, R115) -/

theorem word_eq_iff_fields {w v : Word64} : w = v ↔
    fieldOp w = fieldOp v ∧ fieldP w = fieldP v ∧ fieldZ w = fieldZ v ∧ fieldIdx w = fieldIdx v ∧
      fieldB8 w = fieldB8 v ∧ fieldD32 w = fieldD32 v := by
  refine ⟨by rintro rfl; simp, fun ⟨hop, hp, hz, hidx, hb8, hd⟩ => ?_⟩
  rw [← packWord_fields w, hop, hp, hz, hidx, hb8, hd, packWord_fields]

theorem rowMatches_iff_fields {w : Word64} {row : Word64 × Word64} : rowMatches w row = true ↔
    fieldOp w &&& fieldOp row.1 = fieldOp row.2 ∧ fieldP w &&& fieldP row.1 = fieldP row.2 ∧
      fieldZ w &&& fieldZ row.1 = fieldZ row.2 ∧ fieldIdx w &&& fieldIdx row.1 = fieldIdx row.2 ∧
      fieldB8 w &&& fieldB8 row.1 = fieldB8 row.2 ∧ fieldD32 w &&& fieldD32 row.1 = fieldD32 row.2 := by
  simp only [rowMatches, beq_iff_eq, word_eq_iff_fields, fieldOp, fieldP, fieldZ, fieldIdx, fieldB8, fieldD32,
    BitVec.extractLsb'_and]

theorem and_full_mask {n : Nat} {x m : BitVec n} (hm : m = BitVec.allOnes n) : x &&& m = x := by
  rw [hm, BitVec.and_allOnes]

/-- SETGRB's mask keeps the byte of D32 that its row marks "0". -/
theorem and_topByteMask_eq_zero_iff {d : Word32} : d &&& 0xFF000000#32 = 0#32 ↔ d.extractLsb' 24 8 = 0#8 := by
  have hsplit : d.extractLsb' 24 8 ++ d.extractLsb' 0 24 = d := by
    exact (BitVec.extractLsb'_append_extractLsb'_eq_extractLsb' rfl).trans BitVec.extractLsb'_eq_self
  have hmask : d &&& 0xFF000000#32 = d.extractLsb' 24 8 ++ 0#24 := by
    conv_lhs => rw [← hsplit, show 0xFF000000#32 = BitVec.allOnes 8 ++ 0#24 from rfl, BitVec.and_append,
      BitVec.and_allOnes, BitVec.and_zero]
  rw [hmask, show 0#32 = 0#8 ++ 0#24 from rfl, BitVec.append_left_inj]

/-! ### Decoding by the opcode (R130, R132) -/

/-- How a word is read: its opcode is the unused one, or its opcode names a row of the table, and the decoder's check
of the fields marked "0" comes to the same as matching that row. -/
inductive DecodeCase (w : Word64) : Prop
  | opcodeF (hop : fieldOp w = 0xF) (hdec : decode w = .error .opcodeF)
  | row (mnemonic : String) (i : Instr) (row : Word64 × Word64) (hrow : opcodeRows[rowOf i]? = some row)
      (hop : (fieldOp w).toNat = rowOf i) (hdec : decode w = unlessReserved mnemonic (rowMatches w row) i)

theorem DecodeCase.of_check {w : Word64} {mnemonic : String} {zeros : Bool} {i : Instr} {row : Word64 × Word64}
    (hdec : decode w = unlessReserved mnemonic zeros i) (hrow : opcodeRows[rowOf i]? = some row)
    (hop : (fieldOp w).toNat = rowOf i) (hzeros : rowMatches w row = true ↔ zeros = true) : DecodeCase w :=
  .row mnemonic i row hrow hop (by rw [hdec, Bool.eq_iff_iff.mpr hzeros])

theorem decodeCase (w : Word64) : DecodeCase w := by
  have hlt := (fieldOp w).isLt
  generalize hk : (fieldOp w).toNat = k at hlt
  have hop : fieldOp w = BitVec.ofNat 4 k := by rw [← hk, BitVec.ofNat_toNat, BitVec.setWidth_eq]
  obtain rfl | hlt : k = 15 ∨ k < 15 := by omega
  · exact .opcodeF hop (by unfold decode; rw [hk]; rfl)
  · interval_cases k
    all_goals
      refine .of_check (by unfold decode; rw [hk]; rfl) (by rfl) (by exact hk) ?_
      rw [rowMatches_iff_fields, hop]
      simp (disch := decide) [and_full_mask, and_topByteMask_eq_zero_iff, fieldOp, fieldP, fieldZ, fieldIdx, fieldB8,
        fieldD32, and_assoc]

/-- Each row fixes OP to its own place in the table, so a word can match one row only. -/
theorem fieldOp_of_rowMatches {w : Word64} {k : Nat} {row : Word64 × Word64} (hrow : opcodeRows[k]? = some row)
    (hmatch : rowMatches w row = true) : (fieldOp w).toNat = k := by
  have htable : ∀ e ∈ opcodeRows.zipIdx, fieldOp e.1.1 = BitVec.allOnes 4 ∧ (fieldOp e.1.2).toNat = e.2 := by
    decide
  obtain ⟨hmask, hop⟩ := htable (row, k) (List.mem_zipIdx_iff_getElem?.mpr hrow)
  obtain ⟨hfield, -⟩ := rowMatches_iff_fields.mp hmatch
  rwa [← hfield, hmask, BitVec.and_allOnes] at hop

/-- The table has no row at the unused opcode. -/
theorem row_ne_opcodeF {k : Nat} {row : Word64 × Word64} (hrow : opcodeRows[k]? = some row) : k ≠ 0xF := by
  rintro rfl
  cases hrow

@[simp] theorem unlessReserved_eq_ok_iff {mnemonic : String} {zeros : Bool} {i j : Instr} :
    unlessReserved mnemonic zeros i = .ok j ↔ zeros = true ∧ i = j := by
  cases zeros <;> simp [unlessReserved]

@[simp] theorem unlessReserved_ne_opcodeF {mnemonic : String} {zeros : Bool} {i : Instr} :
    unlessReserved mnemonic zeros i ≠ .error .opcodeF := by
  cases zeros <;> simp [unlessReserved]

/-- A word matches a row of the table exactly when it decodes to a command of that row. -/
theorem rowMatches_iff_decode {w : Word64} {k : Nat} {row : Word64 × Word64} (hrow : opcodeRows[k]? = some row) :
    rowMatches w row = true ↔ ∃ i, decode w = .ok i ∧ rowOf i = k := by
  cases decodeCase w with
  | opcodeF hop hdec =>
    have hne : ¬rowMatches w row = true := fun hmatch =>
      row_ne_opcodeF hrow (by rw [← fieldOp_of_rowMatches hrow hmatch, hop]; rfl)
    simp [hdec, hne]
  | row mnemonic i own hown hop hdec =>
    constructor
    · intro hmatch
      obtain rfl : rowOf i = k := hop.symm.trans (fieldOp_of_rowMatches hrow hmatch)
      obtain rfl : own = row := Option.some.inj (hown.symm.trans hrow)
      exact ⟨i, by simp [hdec, hmatch], rfl⟩
    · rintro ⟨j, hj, rfl⟩
      obtain ⟨hmatch, rfl⟩ := unlessReserved_eq_ok_iff.mp (hdec.symm.trans hj)
      rwa [← Option.some.inj (hown.symm.trans hrow)]

theorem decode_eq_opcodeF_iff {w : Word64} : decode w = .error .opcodeF ↔ fieldOp w = 0xF := by
  cases decodeCase w with
  | opcodeF hop hdec => simp only [hop, hdec]
  | row mnemonic i row hrow hop hdec =>
    have hne : fieldOp w ≠ 0xF := fun h => row_ne_opcodeF hrow (by rw [← hop, h]; rfl)
    simp only [hdec, unlessReserved_ne_opcodeF, hne]

/-! ### Assembly (R140, R141) -/

/-- Lines with the same operand check and the same commands assemble alike. -/
theorem assemble_congr {l l' : AsmLine} (hwf : l.wf = l'.wf) (hexpand : l.expand = l'.expand) :
    l.assemble = l'.assemble := by
  rw [AsmLine.assemble, AsmLine.assemble, hwf, hexpand]

/-- The order of the colour operands does not matter to the check that they fit. -/
theorem wf_setrgb (i r g b : Nat) : (AsmLine.setrgb i r g b).wf = (AsmLine.setgrb i g r b none).wf := by
  simp [AsmLine.wf, Bool.and_right_comm _ (fits 8 r) (fits 8 g)]

end Sys2Proof.Laws

namespace Sys2Proof.Proofs
open Sys2Proof.Laws

/-- Settles O3: a word matches a row exactly when it decodes to a command of that row, whatever `decode` answers. -/
theorem decodingIsTotalAndUnambiguous : Obligations.DecodingIsTotalAndUnambiguous := by
  refine fun w => ⟨?_, decode_eq_opcodeF_iff⟩
  cases hdec : decode w with
  | ok i =>
    refine .inl ⟨i, rfl, fun k row hrow => ?_⟩
    simp [rowMatches_iff_decode hrow, hdec, eq_comm]
  | error e =>
    refine .inr ⟨⟨e, rfl⟩, fun row hmem => ?_⟩
    obtain ⟨k, hrow⟩ := List.mem_iff_getElem?.mp hmem
    simp [← Bool.not_eq_true, rowMatches_iff_decode hrow, hdec]

/-- Settles O4: each of the sixteen lines by evaluation. -/
theorem workedEncodingsDecode : Obligations.WorkedEncodingsDecode := by
  intro e he
  fin_cases he <;> exact ⟨rfl, rfl⟩

/-- Settles O5: each pseudo-instruction has the operand check and the commands of its expansion. -/
theorem pseudoInstructionsExpand : Obligations.PseudoInstructionsExpand :=
  ⟨fun _ => assemble_congr rfl rfl, fun i r g b => assemble_congr (wf_setrgb i r g b) rfl, assemble_congr rfl rfl,
    assemble_congr rfl rfl, rfl, rfl⟩

end Sys2Proof.Proofs
end

section
/-!
SUPPORT. The colour converter and the brightness composition (spec 40_color_model): what the intermediate values of R152
bound, where the default sector function puts a channel (R154 to R157), and the products of R160 and R161 as numbers.
-/
namespace Sys2Proof.Laws

theorem byte_le (b : Byte) : b.toNat ≤ 255 := Nat.le_of_lt_succ b.isLt

/-! ### The intermediate values (R151, R152) -/

section sectorArgs
variable (hue : BitVec 16) (sat val : Byte)

@[simp] theorem sectorArgs_hi : (sectorArgs hue sat val).hi = val.toNat := rfl

theorem sectorArgs_hi_le : (sectorArgs hue sat val).hi ≤ 255 := byte_le val

theorem sectorArgs_off_le : (sectorArgs hue sat val).off ≤ 255 :=
  Nat.le_of_lt_succ (Nat.mod_lt _ (by decide))

theorem sectorArgs_chroma_le : (sectorArgs hue sat val).chroma ≤ val.toNat + 1 :=
  Nat.div_le_of_le_mul (Nat.mul_comm 256 _ ▸ Nat.mul_le_mul_left _ sat.isLt)

/-- The floor and the chroma add up to one more than the top. -/
theorem sectorArgs_m_add_chroma :
    (sectorArgs hue sat val).m + (sectorArgs hue sat val).chroma = (sectorArgs hue sat val).hi + 1 :=
  Nat.sub_add_cancel (sectorArgs_chroma_le hue sat val)

theorem sectorArgs_chroma_of_sat_zero : (sectorArgs hue 0 val).chroma = (val.toNat + 1) / 256 := by
  simp [sectorArgs]

/-- The hue is taken modulo 1536 (R151). -/
theorem sectorArgs_hue_mod : sectorArgs (BitVec.ofNat 16 (hue.toNat % 1536)) sat val = sectorArgs hue sat val := by
  have hmod : hue.toNat % 1536 % 2 ^ 16 % 1536 = hue.toNat % 1536 := by omega
  simp only [sectorArgs, BitVec.toNat_ofNat, hmod]

end sectorArgs

/-! ### The three levels of a colour (R154) -/

section levels
variable (a : SectorArgs)

@[simp] theorem up_le_hi : a.up ≤ a.hi := Nat.min_le_right _ _
@[simp] theorem down_le_hi : a.down ≤ a.hi := Nat.min_le_right _ _
@[simp] theorem lo_le_hi : a.lo ≤ a.hi := Nat.min_le_right _ _
@[simp] theorem lo_le_up : a.lo ≤ a.up := min_le_min_right _ (Nat.le_add_right _ _)
@[simp] theorem lo_le_down : a.lo ≤ a.down := min_le_min_right _ (Nat.le_add_right _ _)

end levels

theorem lo_of_sat_zero (hue : BitVec 16) (val : Byte) : (sectorArgs hue 0 val).lo = val.toNat := by
  have hchroma := sectorArgs_chroma_of_sat_zero hue val
  have hsum := sectorArgs_m_add_chroma hue 0 val
  have hval := byte_le val
  rw [sectorArgs_hi] at hsum
  rw [SectorArgs.lo, sectorArgs_hi]
  omega

/-- A ramp over an offset below 256 stays below its chroma (R156). -/
theorem ramp_le {chroma off : Nat} (hchroma : 1 ≤ chroma) (hoff : off ≤ 255) : chroma * off / 256 ≤ chroma - 1 := by
  have hlt : chroma * off / 256 < chroma :=
    Nat.div_lt_of_lt_mul (Nat.mul_comm 256 chroma ▸ Nat.mul_lt_mul_of_pos_left (Nat.lt_succ_of_le hoff) hchroma)
  exact Nat.le_sub_one_of_lt hlt

/-! ### The channels of a colour -/

/-- In every sector the default table has one channel at the top and none outside the floor and the top (R154). -/
theorem sectorDefault_eq_rgbOf (a : SectorArgs) : ∃ r g b, sectorDefault a = rgbOf r g b ∧ a.hi ∈ [r, g, b] ∧
    ∀ v ∈ [r, g, b], a.lo ≤ v ∧ v ≤ a.hi := by
  unfold sectorDefault
  split <;> exact ⟨_, _, _, rfl, by simp, by simp⟩

theorem rgbOf_channels {r g b : Nat} (h : ∀ v ∈ [r, g, b], v ≤ 255) :
    [(rgbOf r g b).r.toNat, (rgbOf r g b).g.toNat, (rgbOf r g b).b.toNat] = [r, g, b] := by
  obtain ⟨hr, hg, hb⟩ : r ≤ 255 ∧ g ≤ 255 ∧ b ≤ 255 := by simpa using h
  simp only [rgbOf, BitVec.toNat_ofNat, Nat.mod_eq_of_lt (Nat.lt_succ_of_le hr),
    Nat.mod_eq_of_lt (Nat.lt_succ_of_le hg), Nat.mod_eq_of_lt (Nat.lt_succ_of_le hb)]

/-- The channels of the default table lose nothing when they are narrowed to bytes. -/
theorem sectorDefault_channels {a : SectorArgs} (hhi : a.hi ≤ 255) :
    a.hi ∈ [(sectorDefault a).r.toNat, (sectorDefault a).g.toNat, (sectorDefault a).b.toNat] ∧
    ∀ v ∈ [(sectorDefault a).r.toNat, (sectorDefault a).g.toNat, (sectorDefault a).b.toNat], a.lo ≤ v ∧ v ≤ a.hi := by
  obtain ⟨r, g, b, hrgb, htop, hbounds⟩ := sectorDefault_eq_rgbOf a
  rw [hrgb, rgbOf_channels fun v hv => (hbounds v hv).2.trans hhi]
  exact ⟨htop, hbounds⟩

theorem maxChannel_le (c : Rgb) : c.maxChannel ≤ 255 :=
  max_le (byte_le c.r) (max_le (byte_le c.g) (byte_le c.b))

theorem maxChannel_eq {c : Rgb} {n : Nat} (hmem : n ∈ [c.r.toNat, c.g.toNat, c.b.toNat])
    (hle : ∀ v ∈ [c.r.toNat, c.g.toNat, c.b.toNat], v ≤ n) : c.maxChannel = n := by
  simp only [List.mem_cons, List.not_mem_nil, or_false, forall_eq_or_imp, forall_eq] at hmem hle
  unfold Rgb.maxChannel
  omega

theorem maxChannel_sectorDefault {a : SectorArgs} (hhi : a.hi ≤ 255) : (sectorDefault a).maxChannel = a.hi := by
  obtain ⟨htop, hbounds⟩ := sectorDefault_channels hhi
  exact maxChannel_eq htop fun v hv => (hbounds v hv).2

/-- A colour whose channels all have one value is the grey of that value. -/
theorem rgb_eq_grey {c : Rgb} {v : Byte} (h : ∀ n ∈ [c.r.toNat, c.g.toNat, c.b.toNat], n = v.toNat) :
    c = ⟨v, v, v⟩ := by
  cases c
  simpa only [List.mem_cons, List.not_mem_nil, or_false, forall_eq_or_imp, forall_eq, BitVec.toNat_inj,
    Rgb.mk.injEq] using h

/-! ### The converter (R150, R153) -/

@[simp] theorem hsvToRgb_val_zero (cfg : Config) (hue : BitVec 16) (sat : Byte) : hsvToRgb cfg hue sat 0 = ⟨0, 0, 0⟩ :=
  if_pos rfl

theorem hsvToRgb_default {cfg : Config} (hcfg : cfg.sectorOverrides = []) (hue : BitVec 16) (sat : Byte) {val : Byte}
    (hval : val ≠ 0) : hsvToRgb cfg hue sat val = sectorDefault (sectorArgs hue sat val) := by
  rw [hsvToRgb, if_neg hval, Config.sectorFn, hcfg, List.lookup_nil]

theorem hsvToRgb_hue_mod (cfg : Config) (hue : BitVec 16) (sat val : Byte) :
    hsvToRgb cfg (BitVec.ofNat 16 (hue.toNat % 1536)) sat val = hsvToRgb cfg hue sat val := by
  simp only [hsvToRgb, sectorArgs_hue_mod]

/-- Without saturation the floor is the top, so every channel is there (R157). -/
theorem hsvToRgb_sat_zero {cfg : Config} (hcfg : cfg.sectorOverrides = []) (hue : BitVec 16) (val : Byte) :
    hsvToRgb cfg hue 0 val = ⟨val, val, val⟩ := by
  obtain rfl | hval := eq_or_ne val 0
  · exact hsvToRgb_val_zero cfg hue 0
  · rw [hsvToRgb_default hcfg hue 0 hval]
    obtain ⟨-, hbounds⟩ := sectorDefault_channels (sectorArgs_hi_le hue 0 val)
    refine rgb_eq_grey fun n hn => ?_
    obtain ⟨hge, hle⟩ := hbounds n hn
    exact le_antisymm hle (lo_of_sat_zero hue val ▸ hge)

theorem sectorFnLegal_iff {cfg : Config} : cfg.sectorFnLegal = true ↔
    ∀ h < 1536, (hsvToRgb cfg (BitVec.ofNat 16 h) 255 255).maxChannel = 255 := by
  simp only [Config.sectorFnLegal, List.all_eq_true, List.mem_range, beq_iff_eq]

theorem sectorFnLegal_default {cfg : Config} (hcfg : cfg.sectorOverrides = []) : cfg.sectorFnLegal = true := by
  refine sectorFnLegal_iff.mpr fun h _ => ?_
  rw [hsvToRgb_default hcfg _ _ (by decide), maxChannel_sectorDefault (sectorArgs_hi_le _ _ _)]
  rfl

/-! ### Brightness composition (R160, R161) -/

theorem mul_toNat_le (o g : Byte) : o.toNat * g.toNat ≤ 255 * 255 := Nat.mul_le_mul (byte_le o) (byte_le g)

theorem mul_mul_toNat_le (o pb g : Byte) : o.toNat * pb.toNat * g.toNat ≤ 255 * 255 * 255 :=
  Nat.mul_le_mul (mul_toNat_le o pb) (byte_le g)

theorem composePP_toNat (o pb g : Byte) : (composePP o pb g).toNat = o.toNat * pb.toNat * g.toNat / 65536 := by
  have h := mul_mul_toNat_le o pb g
  rw [composePP, BitVec.toNat_ofNat, Nat.mod_eq_of_lt (by omega)]

theorem composeG_toNat (o g : Byte) : (composeG o g).toNat = o.toNat * g.toNat / 256 := by
  have h := mul_toNat_le o g
  rw [composeG, BitVec.toNat_ofNat, Nat.mod_eq_of_lt (by omega)]

theorem composePP_le (o pb g : Byte) : (composePP o pb g).toNat ≤ 253 :=
  composePP_toNat o pb g ▸ Nat.div_le_div_right (mul_mul_toNat_le o pb g)

theorem composeG_le (o g : Byte) : (composeG o g).toNat ≤ 254 :=
  composeG_toNat o g ▸ Nat.div_le_div_right (mul_toNat_le o g)

theorem composePP_comm (o pb g : Byte) : composePP o pb g = composePP pb o g := by
  rw [composePP, composePP, Nat.mul_comm o.toNat]

theorem composePP_right_comm (o pb g : Byte) : composePP o pb g = composePP o g pb := by
  rw [composePP, composePP, Nat.mul_right_comm]

theorem composeG_comm (o g : Byte) : composeG o g = composeG g o := by
  rw [composeG, composeG, Nat.mul_comm]

@[simp] theorem composePP_zero_left (pb g : Byte) : composePP 0 pb g = 0 := by simp [composePP]

@[simp] theorem composeG_zero_left (g : Byte) : composeG 0 g = 0 := by simp [composeG]

theorem composeG_half (o : Byte) : (composeG o 128).toNat = o.toNat / 2 := by
  have hg : (128 : Byte).toNat = 128 := rfl
  rw [composeG_toNat, hg]
  omega

end Sys2Proof.Laws

namespace Sys2Proof.Proofs
open Sys2Proof.Laws

/-- Settles O20: the override comes before the sector function. -/
theorem zeroValueIsBlack : Obligations.ZeroValueIsBlack := hsvToRgb_val_zero

/-- Settles O21: the first property holds of every colour, the second is a part of `Config.legal` and holds of the
default because its largest channel is `hi`, the third is the override. -/
theorem legalSectorFunctionsPegAChannel : Obligations.LegalSectorFunctionsPegAChannel := by
  refine ⟨fun cfg hlegal => ⟨fun _ _ _ => maxChannel_le _, ?_, hsvToRgb_val_zero cfg⟩, fun _ => sectorFnLegal_default⟩
  obtain ⟨-, -, -, -, hsector⟩ := legal_iff.mp hlegal
  exact sectorFnLegal_iff.mp hsector

/-- Settles O22: the floor and the chroma add up to one more than the top, and a ramp stays below its chroma. -/
theorem defaultChannelsStayBetweenFloorAndTop : Obligations.DefaultChannelsStayBetweenFloorAndTop := by
  intro cfg hue sat val hcfg hval a c hchroma
  have hramp : a.chroma * a.off / 256 ≤ a.chroma - 1 := ramp_le hchroma (sectorArgs_off_le hue sat val)
  have hsum : a.m + a.chroma = a.hi + 1 := sectorArgs_m_add_chroma hue sat val
  have hhi : a.hi ≤ 255 := sectorArgs_hi_le hue sat val
  have hm : a.m ≤ a.hi := by omega
  have hproduct : a.chroma * a.off ≤ 256 * 255 :=
    Nat.mul_le_mul (by omega) (sectorArgs_off_le hue sat val)
  have hc : c = sectorDefault a := hsvToRgb_default hcfg hue sat (by rintro rfl; exact absurd hval (by decide))
  obtain ⟨-, hbounds⟩ := sectorDefault_channels hhi
  exact ⟨hramp, by omega, Nat.min_eq_left hm, hm, hproduct, hc ▸ hbounds, hhi⟩

/-- Settles O23: the corner cases by their lemmas, the two fixed colours by evaluation of the default table. -/
theorem hsvCornerCases : Obligations.HsvCornerCases := by
  intro cfg hcfg
  refine ⟨hsvToRgb_val_zero cfg, hsvToRgb_sat_zero hcfg, fun hue val hval => ?_,
    fun hue sat val => (hsvToRgb_hue_mod cfg hue sat val).symm, ?_, by decide, by decide, ?_⟩
  · have hchroma := sectorArgs_chroma_of_sat_zero hue val
    have hsum := sectorArgs_m_add_chroma hue 0 val
    have hle := byte_le val
    have hfull : val = 255 ↔ val.toNat = 255 := BitVec.toNat_inj.symm
    simp only [sectorArgs_hi, hfull] at hsum ⊢
    exact ⟨hchroma, by omega, by omega⟩
  · rw [hsvToRgb_default hcfg 255 255 (by decide), hsvToRgb_default hcfg 256 255 (by decide)]
    decide
  · rw [hsvToRgb_default hcfg 128 128 (by decide)]
    decide

/-- Settles O24: each clause is a fact about the truncated product. -/
theorem compositionCornerCases : Obligations.CompositionCornerCases := by
  refine ⟨fun o pb g => ⟨composePP_toNat o pb g, composePP_le o pb g⟩, fun o g => ⟨composeG_toNat o g, composeG_le o g⟩,
    fun a b => ⟨composePP_zero_left a b, ?_, ?_, composeG_zero_left a, ?_⟩,
    fun a b c => ⟨composePP_comm a b c, composePP_right_comm a b c, composeG_comm a b⟩, composeG_half, by decide⟩
  · rw [composePP_comm, composePP_zero_left]
  · rw [composePP_right_comm, composePP_comm, composePP_zero_left]
  · rw [composeG_comm, composeG_zero_left]

end Sys2Proof.Proofs
end

section
/-!
SUPPORT. What the pixel-store commands do to the bytes (spec 41_pixel_store): a run of bytes written, a pixel set or
brightened in PERPIX mode (R183, R185, R200), locations cleared (R205); and that setting a pixel again leaves the bytes
as they are (R187).
-/
namespace Sys2Proof.Laws
open Sys2Proof.Machine Sys2Proof.Safety

theorem andThen_assoc {α β γ : Type} (r : Res α) (f : α → Res β) (k : β → Res γ) :
    andThen (andThen r f) k = andThen r fun a => andThen (f a) k := by
  cases r <;> rfl

theorem Wrote.gbright {s t : State} (h : Wrote s t) : t.gbright = s.gbright := by
  obtain ⟨es, rfl, -⟩ := h
  rfl

/-! ### Sizes of the stores by mode (R9) -/

theorem size_scaled_grb {cfg : Config} (hc : cfg.colorMode = .grb) : cfg.size .scaled = 3 * cfg.nEff := by
  simp only [Config.size, Config.bpp, hc]

theorem size_scaled_hsv {cfg : Config} (hc : cfg.colorMode = .hsv) : cfg.size .scaled = 4 * cfg.nEff := by
  simp only [Config.size, Config.bpp, hc]

theorem size_orig_perpix {cfg : Config} (hb : cfg.brightMode = .perpix) : cfg.size .orig = 3 * cfg.nEff := by
  simp only [Config.size, hb]

theorem size_pb_perpix {cfg : Config} (hb : cfg.brightMode = .perpix) : cfg.size .pb = cfg.nEff := by
  simp only [Config.size, hb]

/-! ### Frames -/

theorem bytesFrom_congr {s t : State} (h : t.cfg = s.cfg) (x : Store) (a k : Nat) :
    bytesFrom t x a k = bytesFrom s x a k := by
  simp only [bytesFrom, h]

@[simp] theorem bytesFrom_zero (s : State) (x : Store) (a : Nat) : bytesFrom s x a 0 = [] := rfl

/-- A run inside another run of the same store. -/
theorem bytesFrom_subset {s : State} {x : Store} {a k b n : Nat} (hba : b ≤ a) (hend : a + k ≤ b + n) :
    bytesFrom s x a k ⊆ bytesFrom s x b n := by
  intro l hl
  obtain ⟨c, hc, rfl⟩ := mem_bytesFrom.mp hl
  exact mem_bytesFrom.mpr ⟨a - b + c, by omega, by rw [show b + (a - b + c) = a + c by omega]⟩

theorem unchangedOutside_mono {ls ms : List Loc} {s t : State} (h : UnchangedOutside ls s t) (hsub : ls ⊆ ms) :
    UnchangedOutside ms s t := fun l hl => h l fun hmem => hl (hsub hmem)

theorem unchangedOutside_trans {ls ms : List Loc} {s t u : State} (h1 : UnchangedOutside ls s t)
    (h2 : UnchangedOutside ms t u) : UnchangedOutside (ls ++ ms) s u := by
  intro l hl
  rw [List.mem_append, not_or] at hl
  exact (h2 l hl.2).trans (h1 l hl.1)

/-- Where nothing changed outside some locations, and nothing in them either, nothing changed. -/
theorem readLoc_eq_of_eq_on {ls : List Loc} {s t : State} (h : UnchangedOutside ls s t)
    (hls : ∀ l ∈ ls, t.mem.readLoc l = s.mem.readLoc l) (l : Loc) : t.mem.readLoc l = s.mem.readLoc l := by
  by_cases hl : l ∈ ls
  · exact hls l hl
  · exact h l hl

/-- A run of bytes reads alike in two states when it does so byte by byte. -/
theorem readLoc_eq_on_bytesFrom {s t : State} (hcfg : t.cfg = s.cfg) {x : Store} {a k : Nat}
    (h : ∀ c < k, t.byteAt x (a + c) = s.byteAt x (a + c)) : ∀ l ∈ bytesFrom s x a k,
    t.mem.readLoc l = s.mem.readLoc l := by
  intro l hl
  obtain ⟨c, hc, rfl⟩ := mem_bytesFrom.mp hl
  simpa only [State.byteAt, hcfg] using h c hc

/-! ### A run of bytes written -/

/-- `t` is `s` with the bytes `vs` in store `x` from offset `a` on. -/
structure RunWritten (x : Store) (a : Nat) (vs : List Byte) (s t : State) : Prop where
  wrote : Wrote s t
  outside : UnchangedOutside (bytesFrom s x a vs.length) s t
  byte : ∀ c (hc : c < vs.length), t.byteAt x (a + c) = vs[c]

section run
variable {x : Store} {a : Nat} {vs : List Byte} {s t u : State}

theorem writeBytes_runWritten (h : a + vs.length ≤ s.cfg.size x) (hm : s.mem.wf = true) :
    ∃ t, writeBytes x a vs s = .next t ∧ RunWritten x a vs s t := by
  obtain ⟨t, ht, hwrote, houtside, hbyte⟩ := writeBytes_spec x a vs s h hm
  exact ⟨t, ht, hwrote, houtside, hbyte⟩

/-- A run in one store leaves the bytes of the others. -/
theorem RunWritten.byteAt_other (h : RunWritten x a vs s t) (hp : s.cfg.storesPlaced = true)
    (hrun : a + vs.length ≤ s.cfg.size x) {y : Store} (hxy : y ≠ x) {b : Nat} (hb : b < s.cfg.size y) :
    t.byteAt y b = s.byteAt y b :=
  byteAt_unchanged h.wrote.cfg h.outside (loc_not_mem_bytesFrom_store hp hxy hrun hb)

/-- The same run written again leaves every byte as it is. -/
theorem RunWritten.again (h1 : RunWritten x a vs s t) (h2 : RunWritten x a vs t u) (l : Loc) :
    u.mem.readLoc l = t.mem.readLoc l :=
  readLoc_eq_of_eq_on h2.outside
    (readLoc_eq_on_bytesFrom h2.wrote.cfg fun c hc => (h2.byte c hc).trans (h1.byte c hc).symm) l

end run

/-! ### Pixels of a PERPIX block -/

/-- Pixel `i` is one of a GRB, PERPIX block with placed stores. -/
structure PerpixPixel (cfg : Config) (i : Nat) : Prop where
  grb : cfg.colorMode = .grb
  perpix : cfg.brightMode = .perpix
  inRange : i < cfg.nEff
  placed : cfg.storesPlaced = true

section perpix
variable {i : Nat} {g r b : Byte} {pb : Option Byte} {s t u : State}

theorem PerpixPixel.scaled_le {cfg : Config} (h : PerpixPixel cfg i) : 3 * i + 3 ≤ cfg.size .scaled := by
  have hi := h.inRange
  rw [size_scaled_grb h.grb]
  omega

theorem PerpixPixel.orig_le {cfg : Config} (h : PerpixPixel cfg i) : 3 * i + 3 ≤ cfg.size .orig := by
  have hi := h.inRange
  rw [size_orig_perpix h.perpix]
  omega

theorem PerpixPixel.orig_lt {cfg : Config} (h : PerpixPixel cfg i) {c : Nat} (hc : c < 3) :
    3 * i + c < cfg.size .orig := (Nat.add_lt_add_left hc _).trans_le h.orig_le

theorem PerpixPixel.pb_lt {cfg : Config} (h : PerpixPixel cfg i) : i < cfg.size .pb :=
  size_pb_perpix h.perpix ▸ h.inRange

/-- A brightness, supplied or not, fits in the PB store. -/
theorem PerpixPixel.pb_le {cfg : Config} (h : PerpixPixel cfg i) : i + pb.toList.length ≤ cfg.size .pb :=
  (Nat.add_le_add_left Option.length_toList_le i).trans h.pb_lt

/-! ### A pixel brightened (R183, R200) -/

/-- The brightness of a pixel after a supply: the one supplied, or the one it had. -/
theorem RunWritten.pb_supplied (h : RunWritten .pb i pb.toList s t) :
    t.byteAt .pb i = pb.getD (s.byteAt .pb i) := by
  cases pb with
  | none => exact byteAt_unchanged h.wrote.cfg h.outside List.not_mem_nil
  | some v => exact h.byte 0 Nat.one_pos

/-- `t` is `s` with pixel `i` recomputed, after a new PB byte where one is supplied. -/
structure Brightened (i : Nat) (pb : Option Byte) (s t : State) : Prop where
  wrote : Wrote s t
  outside : UnchangedOutside (bytesFrom s .scaled (3 * i) 3 ++ bytesFrom s .pb i pb.toList.length) s t
  pbByte : t.byteAt .pb i = pb.getD (s.byteAt .pb i)
  scaled : ∀ c < 3, t.byteAt .scaled (3 * i + c) =
    composePP (s.byteAt .orig (3 * i + c)) (pb.getD (s.byteAt .pb i)) s.gbright

/-- Supplying a brightness or none and recomputing brightens the pixel. -/
theorem brighten_spec (pb : Option Byte) (h : PerpixPixel s.cfg i) (hm : s.mem.wf = true) :
    ∃ t, andThen (writeBytes .pb i pb.toList s) (recompute i) = .next t ∧ Brightened i pb s t := by
  obtain ⟨s1, hs1, hsupply⟩ := writeBytes_runWritten (h.pb_le (pb := pb)) hm
  have hcfg := hsupply.wrote.cfg
  have h1 : PerpixPixel s1.cfg i := hcfg ▸ h
  obtain ⟨t, ht, hwrote, houtside, hvalue⟩ :=
    recompute_spec i s1 h1.grb h1.perpix h1.inRange h1.placed (hsupply.wrote.wf hm)
  have hpbKept : t.byteAt .pb i = s1.byteAt .pb i := byteAt_unchanged hwrote.cfg houtside
    (loc_not_mem_bytesFrom_store h1.placed (by decide) h1.scaled_le h1.pb_lt)
  refine ⟨t, by rw [hs1, andThen_next, ht], hsupply.wrote.trans hwrote, ?_, hpbKept.trans hsupply.pb_supplied,
    fun c hc => ?_⟩
  · rw [bytesFrom_congr hcfg] at houtside
    exact unchangedOutside_mono (unchangedOutside_trans hsupply.outside houtside)
      (List.append_subset.mpr ⟨List.subset_append_right _ _, List.subset_append_left _ _⟩)
  · rw [hvalue c hc, hsupply.byteAt_other h.placed h.pb_le (by decide) (h.orig_lt hc), hsupply.pb_supplied,
      hsupply.wrote.gbright]

/-! ### A pixel set (R185, R186) -/

/-- `t` is `s` with pixel `i` set: its ORIG bytes, a PB byte where one is supplied, and the recomputed SCALED bytes. -/
structure PixelSet (i : Nat) (g r b : Byte) (pb : Option Byte) (s t : State) : Prop where
  wrote : Wrote s t
  outside : UnchangedOutside (bytesFrom s .scaled (3 * i) 3 ++ bytesFrom s .orig (3 * i) 3 ++
    bytesFrom s .pb i pb.toList.length) s t
  orig : ∀ c (hc : c < 3), t.byteAt .orig (3 * i + c) = [g, r, b][c]
  pbByte : t.byteAt .pb i = pb.getD (s.byteAt .pb i)
  scaled : ∀ c < 3, t.byteAt .scaled (3 * i + c) =
    composePP (t.byteAt .orig (3 * i + c)) (t.byteAt .pb i) s.gbright

/-- A pixel whose ORIG bytes are written and which is then brightened is set. -/
theorem RunWritten.pixelSet (horig : RunWritten .orig (3 * i) [g, r, b] s t) (hbright : Brightened i pb t u)
    (h : PerpixPixel s.cfg i) : PixelSet i g r b pb s u := by
  have hcfg := horig.wrote.cfg
  have houtside := hbright.outside
  rw [bytesFrom_congr hcfg, bytesFrom_congr hcfg] at houtside
  have hpbKept : t.byteAt .pb i = s.byteAt .pb i :=
    horig.byteAt_other h.placed h.orig_le (by decide) h.pb_lt
  have horigKept : ∀ c < 3, u.byteAt .orig (3 * i + c) = t.byteAt .orig (3 * i + c) := by
    intro c hc
    refine byteAt_unchanged hbright.wrote.cfg houtside ?_
    rw [hcfg, List.mem_append, not_or]
    exact ⟨loc_not_mem_bytesFrom_store h.placed (by decide) h.scaled_le (h.orig_lt hc),
      loc_not_mem_bytesFrom_store h.placed (by decide) h.pb_le (h.orig_lt hc)⟩
  refine ⟨horig.wrote.trans hbright.wrote, ?_, fun c hc => ?_, hpbKept ▸ hbright.pbByte, fun c hc => ?_⟩
  · refine unchangedOutside_mono (unchangedOutside_trans horig.outside houtside) fun l hl => ?_
    simp only [List.mem_append] at hl ⊢
    tauto
  · exact (horigKept c hc).trans (horig.byte c hc)
  · rw [hbright.scaled c hc, horigKept c hc, hbright.pbByte, horig.wrote.gbright]

/-- The same pixel set again to the same values leaves every byte as it is: the ORIG bytes are the operands', the PB
byte is the one supplied or the one that was there, and the SCALED bytes are a function of these. -/
theorem PixelSet.again (h1 : PixelSet i g r b pb s t) (h2 : PixelSet i g r b pb t u) (l : Loc) :
    u.mem.readLoc l = t.mem.readLoc l := by
  have hcfg := h2.wrote.cfg
  have horig : ∀ c < 3, u.byteAt .orig (3 * i + c) = t.byteAt .orig (3 * i + c) := fun c hc =>
    (h2.orig c hc).trans (h1.orig c hc).symm
  have hpb : u.byteAt .pb i = t.byteAt .pb i := by
    rw [h2.pbByte, h1.pbByte]
    cases pb <;> rfl
  have hscaled : ∀ c < 3, u.byteAt .scaled (3 * i + c) = t.byteAt .scaled (3 * i + c) := fun c hc => by
    rw [h2.scaled c hc, h1.scaled c hc, horig c hc, hpb, h1.wrote.gbright]
  refine readLoc_eq_of_eq_on h2.outside (List.forall_mem_append.mpr ⟨List.forall_mem_append.mpr
    ⟨readLoc_eq_on_bytesFrom hcfg hscaled, readLoc_eq_on_bytesFrom hcfg horig⟩,
    readLoc_eq_on_bytesFrom hcfg fun c hc => ?_⟩) l
  obtain rfl : c = 0 := Nat.lt_one_iff.mp (hc.trans_le Option.length_toList_le)
  exact hpb

end perpix

/-! ### The setters -/

section setters
variable {i : Nat} {g r b : Byte} {pb : Option Byte} {hue : BitVec 16} {sat val : Byte} {s t : State}

theorem setGrb_noop (h : s.cfg.colorMode ≠ .grb ∨ s.cfg.nEff ≤ i) : setGrb i g r b pb s = .next s := if_pos h

theorem setHsv_noop (h : s.cfg.colorMode ≠ .hsv ∨ s.cfg.nEff ≤ i) : setHsv i hue sat val s = .next s := if_pos h

/-- In GLOBAL mode a GRB setter writes a run of three scaled bytes (R182). -/
theorem setGrb_global_spec (g r b : Byte) (pb : Option Byte) (hc : s.cfg.colorMode = .grb) (hi : i < s.cfg.nEff)
    (hb : s.cfg.brightMode = .global) (hm : s.mem.wf = true) : ∃ t, setGrb i g r b pb s = .next t ∧
      RunWritten .scaled (3 * i) [composeG g s.gbright, composeG r s.gbright, composeG b s.gbright] s t := by
  have hsize := size_scaled_grb hc
  simp only [setGrb, hc, hb, writeGlobal, ne_eq, not_true_eq_false, Nat.not_le.mpr hi, or_self, if_false]
  exact writeBytes_runWritten (show 3 * i + 3 ≤ s.cfg.size .scaled by omega) hm

/-- In PERPIX mode a GRB setter writes ORIG, supplies its brightness if it has one, and recomputes. -/
theorem setGrb_perpix (h : PerpixPixel s.cfg i) : setGrb i g r b pb s =
    andThen (writeOrig i g r b s) fun s1 => andThen (writeBytes .pb i pb.toList s1) (recompute i) := by
  simp only [setGrb, h.grb, h.perpix, ne_eq, not_true_eq_false, Nat.not_le.mpr h.inRange, or_self, if_false]
  cases pb with
  | none => rfl
  | some v =>
    simp only [Option.toList_some, writeBytes, andThen_assoc]
    rfl

theorem setGrb_perpix_spec (g r b : Byte) (pb : Option Byte) (h : PerpixPixel s.cfg i) (hm : s.mem.wf = true) :
    ∃ t, setGrb i g r b pb s = .next t ∧ PixelSet i g r b pb s t := by
  obtain ⟨s1, hs1, horig⟩ := writeBytes_runWritten (vs := [g, r, b]) h.orig_le hm
  obtain ⟨t, ht, hbright⟩ := brighten_spec pb (horig.wrote.cfg ▸ h) (horig.wrote.wf hm)
  exact ⟨t, by rw [setGrb_perpix h, writeOrig, hs1, andThen_next, ht], horig.pixelSet hbright h⟩

/-- An HSV setter writes a run of four raw bytes (R82). -/
theorem setHsv_spec (hc : s.cfg.colorMode = .hsv) (hi : i < s.cfg.nEff) (hm : s.mem.wf = true) :
    ∃ t, setHsv i hue sat val s = .next t ∧
      RunWritten .scaled (4 * i) [hueLow hue, hueHigh hue, sat, val] s t := by
  have hsize := size_scaled_hsv hc
  simp only [setHsv, hc, ne_eq, not_true_eq_false, Nat.not_le.mpr hi, or_self, if_false]
  exact writeBytes_runWritten (show 4 * i + 4 ≤ s.cfg.size .scaled by omega) hm

/-- A GRB setter again, with the same operands, changes nothing more (R187). -/
theorem setGrb_again (hp : s.cfg.storesPlaced = true) (hm : s.mem.wf = true) (h : setGrb i g r b pb s = .next t) :
    ∃ u, setGrb i g r b pb t = .next u ∧ SameRegs t u ∧ ∀ l, u.mem.readLoc l = t.mem.readLoc l := by
  have hwrote := setGrb_wrote h
  have hcfg := hwrote.cfg
  by_cases hno : s.cfg.colorMode ≠ .grb ∨ s.cfg.nEff ≤ i
  · exact ⟨t, setGrb_noop (hcfg ▸ hno), rfl, fun _ => rfl⟩
  · obtain ⟨hc, hi⟩ : s.cfg.colorMode = .grb ∧ i < s.cfg.nEff := by simpa using hno
    cases hb : s.cfg.brightMode with
    | global =>
      obtain ⟨t', ht', h1⟩ := setGrb_global_spec g r b pb hc hi hb hm
      obtain rfl : t' = t := Host.Outcome.next.inj (ht'.symm.trans h)
      obtain ⟨u, hu, h2⟩ := setGrb_global_spec g r b pb (hcfg ▸ hc) (hcfg ▸ hi) (hcfg ▸ hb) (hwrote.wf hm)
      rw [hwrote.gbright] at h2
      exact ⟨u, hu, h2.wrote.sameRegs, h1.again h2⟩
    | perpix =>
      have hpixel : PerpixPixel s.cfg i := ⟨hc, hb, hi, hp⟩
      obtain ⟨t', ht', h1⟩ := setGrb_perpix_spec g r b pb hpixel hm
      obtain rfl : t' = t := Host.Outcome.next.inj (ht'.symm.trans h)
      obtain ⟨u, hu, h2⟩ := setGrb_perpix_spec g r b pb (hcfg ▸ hpixel) (hwrote.wf hm)
      exact ⟨u, hu, h2.wrote.sameRegs, h1.again h2⟩

end setters

/-! ### Clearing (R205) -/

/-- `t` is `s` with 0 at these locations. -/
structure Cleared (ls : List Loc) (s t : State) : Prop where
  wrote : Wrote s t
  outside : UnchangedOutside ls s t
  zero : ∀ l ∈ ls, t.mem.readLoc l = 0

theorem Cleared.trans {ls ms : List Loc} {s t u : State} (h1 : Cleared ls s t) (h2 : Cleared ms t u) :
    Cleared (ls ++ ms) s u := by
  refine ⟨h1.wrote.trans h2.wrote, unchangedOutside_trans h1.outside h2.outside, fun l hl => ?_⟩
  by_cases hms : l ∈ ms
  · exact h2.zero l hms
  · rw [h2.outside l hms]
    exact h1.zero l ((List.mem_append.mp hl).resolve_right hms)

/-- The bytes `clearPixel(i)` writes. -/
def pixelBytes (s : State) (i : Nat) : List Loc :=
  bytesFrom s .scaled (s.cfg.bpp * i) s.cfg.bpp ++
    (if s.cfg.brightMode = .perpix then bytesFrom s .orig (3 * i) 3 else [])

theorem pixelBytes_congr {s t : State} (h : t.cfg = s.cfg) (i : Nat) : pixelBytes t i = pixelBytes s i := by
  simp only [pixelBytes, bytesFrom_congr h, h]

theorem clearPixel_cleared {i : Nat} {s : State} (hi : i < s.cfg.nEff) (hp : s.cfg.storesPlaced = true)
    (hm : s.mem.wf = true) : ∃ t, clearPixel i s = .next t ∧ Cleared (pixelBytes s i) s t := by
  obtain ⟨t, ht, hwrote, houtside, hscaled, horig⟩ := clearPixel_spec i s hi hp hm
  refine ⟨t, ht, hwrote, houtside, List.forall_mem_append.mpr ⟨fun l hl => ?_, fun l hl => ?_⟩⟩
  · obtain ⟨c, hc, rfl⟩ := mem_bytesFrom.mp hl
    simpa only [State.byteAt, hwrote.cfg] using hscaled c hc
  · rw [List.mem_ite_nil_right] at hl
    obtain ⟨hb, hl⟩ := hl
    obtain ⟨c, hc, rfl⟩ := mem_bytesFrom.mp hl
    simpa only [State.byteAt, hwrote.cfg] using horig hb c hc

theorem clearPixels_cleared {k : Nat} {s : State} (hk : k ≤ s.cfg.nEff) (hp : s.cfg.storesPlaced = true)
    (hm : s.mem.wf = true) :
    ∃ t, clearPixels k s = .next t ∧ Cleared ((List.range k).flatMap (pixelBytes s)) s t := by
  induction k with
  | zero => exact ⟨s, rfl, Wrote.refl s, fun _ _ => rfl, by simp⟩
  | succ k ih =>
    obtain ⟨t, ht, h1⟩ := ih (by omega)
    have hcfg := h1.wrote.cfg
    obtain ⟨u, hu, h2⟩ := clearPixel_cleared (i := k) (s := t) (by rw [hcfg]; omega) (by rw [hcfg]; exact hp)
      (h1.wrote.wf hm)
    rw [pixelBytes_congr hcfg] at h2
    refine ⟨u, by rw [clearPixels, ht, andThen_next, hu], ?_⟩
    simpa [List.range_succ] using h1.trans h2

/-- Blocks of `k` bytes, one after another, make up one run. -/
theorem mem_bytesFrom_blocks {s : State} {x : Store} {k n : Nat} {l : Loc} :
    (∃ j < n, l ∈ bytesFrom s x (k * j) k) ↔ l ∈ bytesFrom s x 0 (k * n) := by
  constructor
  · rintro ⟨j, hj, hl⟩
    have hend : k * j + k ≤ k * n := Nat.mul_succ k j ▸ Nat.mul_le_mul_left k hj
    exact bytesFrom_subset (Nat.zero_le _) (by omega) hl
  · intro hl
    obtain ⟨a, ha, rfl⟩ := mem_bytesFrom.mp hl
    have hk : 0 < k := Nat.pos_of_ne_zero fun h => by simp [h] at ha
    exact ⟨a / k, Nat.div_lt_of_lt_mul ha, mem_bytesFrom.mpr
      ⟨a % k, Nat.mod_lt a hk, by rw [Nat.div_add_mod, Nat.zero_add]⟩⟩

/-- The bytes of all pixels are those of the SCALED and the ORIG store. -/
theorem mem_pixelBytes_all {s : State} {l : Loc} : l ∈ (List.range s.cfg.nEff).flatMap (pixelBytes s) ↔
    l ∈ bytesFrom s .scaled 0 (s.cfg.size .scaled) ++ bytesFrom s .orig 0 (s.cfg.size .orig) := by
  have hscaled : s.cfg.size .scaled = s.cfg.bpp * s.cfg.nEff := rfl
  rw [List.mem_append, hscaled, ← mem_bytesFrom_blocks]
  cases hb : s.cfg.brightMode with
  | global =>
    have horig : s.cfg.size .orig = 0 := by simp only [Config.size, hb]
    simp [pixelBytes, hb, horig]
  | perpix =>
    rw [size_orig_perpix hb, ← mem_bytesFrom_blocks]
    simp [pixelBytes, hb, and_or_left, exists_or]

/-! ### Bytes of a packed word (R192) -/

/-- Bits taken out of bits taken out. -/
theorem extractLsb'_extractLsb'_add {n k a b m : Nat} (x : BitVec n) (h : a + m ≤ k) :
    (x.extractLsb' b k).extractLsb' a m = x.extractLsb' (b + a) m := by
  ext j hj
  simp [show a + j < k by omega, Nat.add_assoc]

theorem packedHue_low (w : Word32) : (packedHue w).extractLsb' 0 8 = w.extractLsb' 16 8 :=
  extractLsb'_extractLsb'_add w (by decide)

theorem packedHue_high (w : Word32) : (packedHue w).extractLsb' 8 8 = w.extractLsb' 24 8 :=
  extractLsb'_extractLsb'_add w (by decide)

/-! ### Commands by their operation (R335) -/

section commands
variable (i : Idx) (w : Word32) (s : State)

theorem exec_setgrb (p : Bool) (pb g r b : Byte) :
    exec (.setgrb i p pb g r b) s = setGrb i.toNat g r b (if p then some pb else none) s := rfl

/-- A packed GRB word is a colour without a brightness (R184). -/
theorem exec_setgrbp : exec (.setgrbp i w) s =
    exec (.setgrb i false 0 (packedGreen w) (packedRed w) (packedBlue w)) s := rfl

theorem exec_sethsv (hue : BitVec 16) (sat val : Byte) :
    exec (.sethsv i hue sat val) s = setHsv i.toNat hue sat val s := rfl

/-- A packed HSV word is a hue, a saturation and a value (R192). -/
theorem exec_sethsvp : exec (.sethsvp i w) s =
    exec (.sethsv i (packedHue w) (packedSat w) (packedVal w)) s := rfl

theorem exec_clrall : exec .clrall s = clearPixels s.cfg.nEff s := rfl

variable {i s}

theorem exec_setpb_noop (v : Byte) (h : s.cfg.brightMode ≠ .perpix ∨ s.cfg.nEff ≤ i.toNat) :
    exec (.setpb i v) s = .next s := if_pos h

/-- In range, SETPB supplies the brightness and recomputes. -/
theorem exec_setpb (v : Byte) (hb : s.cfg.brightMode = .perpix) (hi : i.toNat < s.cfg.nEff) :
    exec (.setpb i v) s = andThen (writeBytes .pb i.toNat (some v).toList s) (recompute i.toNat) := by
  simp only [exec, execSetpb, hb, ne_eq, not_true_eq_false, Nat.not_le.mpr hi, or_self, if_false,
    Option.toList_some, writeBytes, andThen_assoc]
  rfl

theorem exec_clrone_noop (h : s.cfg.nEff ≤ i.toNat) : exec (.clrone i) s = .next s := if_neg (Nat.not_lt.mpr h)

theorem exec_clrone (h : i.toNat < s.cfg.nEff) : exec (.clrone i) s = clearPixel i.toNat s := if_pos h

end commands

end Sys2Proof.Laws

namespace Sys2Proof.Proofs
open Sys2Proof.Machine Sys2Proof.Safety Sys2Proof.Laws

/-- Settles O25: by brightness mode, a run of three scaled bytes, or the pixel set with the brightness P supplies. -/
theorem setgrbWritesOnePixel : Obligations.SetgrbWritesOnePixel := by
  intro i p pb g r b s hp hm
  rw [exec_setgrb]
  refine ⟨setGrb_noop, fun hc hi hb => ?_, fun hc hi hb => ?_⟩
  · obtain ⟨t, ht, h⟩ := setGrb_global_spec g r b _ hc hi hb hm
    exact ⟨t, ht, h.wrote.sameRegs, h.outside, h.byte 0 (by simp), h.byte 1 (by simp), h.byte 2 (by simp)⟩
  · obtain ⟨t, ht, h⟩ := setGrb_perpix_spec g r b _ ⟨hc, hb, hi, hp⟩ hm
    refine ⟨t, ht, h.wrote.sameRegs, ?_, h.orig 0 (by simp), h.orig 1 (by simp), h.orig 2 (by simp), ?_, h.scaled⟩
    · cases p <;> exact h.outside
    · rw [h.pbByte]
      cases p <;> rfl

/-- Settles O26: SETGRB without a brightness, so that the pixel keeps its own. -/
theorem setgrbpWritesOnePixel : Obligations.SetgrbpWritesOnePixel := by
  intro i w s hp hm r g b
  rw [exec_setgrbp]
  obtain ⟨hnoop, hglobal, hperpix⟩ := setgrbWritesOnePixel i false 0 g r b s hp hm
  refine ⟨hnoop, hglobal, fun hc hi hb => ?_⟩
  obtain ⟨t, ht, hregs, houtside, hgreen, hred, hblue, hpb, hscaled⟩ := hperpix hc hi hb
  have hpbKept : t.byteAt .pb i.toNat = s.byteAt .pb i.toNat := hpb
  exact ⟨t, ht, hregs, by simpa using houtside, hgreen, hred, hblue, hpbKept ▸ hscaled⟩

/-- Settles O27: both commands are a GRB setter. -/
theorem settingTwiceIsSettingOnce : Obligations.SettingTwiceIsSettingOnce := by
  intro c s t hcmd hp hm h
  obtain ⟨i, p, pb, g, r, b, rfl⟩ | ⟨i, w, rfl⟩ := hcmd
  · rw [exec_setgrb] at h ⊢
    exact setGrb_again hp hm h
  · rw [exec_setgrbp, exec_setgrb] at h ⊢
    exact setGrb_again hp hm h

/-- Settles O28: the run of the four raw bytes. -/
theorem sethsvWritesTheRawSlot : Obligations.SethsvWritesTheRawSlot := by
  intro i hue sat val s _ hm
  rw [exec_sethsv]
  refine ⟨setHsv_noop, fun hc hi => ?_⟩
  obtain ⟨t, ht, h⟩ := setHsv_spec hc hi hm
  exact ⟨t, ht, h.wrote.sameRegs, h.outside, h.byte 0 (by simp), h.byte 1 (by simp), h.byte 2 (by simp),
    h.byte 3 (by simp)⟩

/-- Settles O29: SETHSV with the packed word's fields, the hue's two bytes being its upper two. -/
theorem sethsvpWritesTheRawSlot : Obligations.SethsvpWritesTheRawSlot := by
  intro i w s hp hm
  have h := sethsvWritesTheRawSlot i (packedHue w) (packedSat w) (packedVal w) s hp hm
  rwa [packedHue_low, packedHue_high, ← exec_sethsvp] at h

/-- Settles O30: the pixel brightened; a legal PERPIX block is in GRB mode. -/
theorem setpbWritesOneBrightness : Obligations.SetpbWritesOneBrightness := by
  intro i v s hmodes hp hm
  refine ⟨exec_setpb_noop v, fun hb hi => ?_⟩
  have hc : s.cfg.colorMode = .grb := by
    cases hc : s.cfg.colorMode with
    | grb => rfl
    | hsv => exact absurd ⟨hc, hb⟩ (modesLegal_iff.mp hmodes)
  rw [exec_setpb v hb hi]
  obtain ⟨t, ht, h⟩ := brighten_spec (some v) ⟨hc, hb, hi, hp⟩ hm
  exact ⟨t, ht, h.wrote.sameRegs, h.outside, h.pbByte, h.scaled⟩

/-- Settles O32: every pixel cleared, and the pixels' bytes are those of the two stores. -/
theorem clrallZeroesTheColours : Obligations.ClrallZeroesTheColours := by
  intro s hp hm
  rw [exec_clrall]
  obtain ⟨t, ht, h⟩ := clearPixels_cleared le_rfl hp hm
  have hzero : ∀ x a, loc s.cfg x a ∈ bytesFrom s .scaled 0 (s.cfg.size .scaled) ++
      bytesFrom s .orig 0 (s.cfg.size .orig) → t.byteAt x a = 0 := fun x a hl => by
    rw [State.byteAt, h.wrote.cfg]
    exact h.zero _ (mem_pixelBytes_all.mpr hl)
  refine ⟨t, ht, h.wrote.sameRegs, unchangedOutside_mono h.outside fun l => mem_pixelBytes_all.mp, fun a ha => ?_,
    fun a ha => ?_⟩
  · exact hzero .scaled a (List.mem_append_left _ (mem_bytesFrom.mpr ⟨a, ha, by rw [Nat.zero_add]⟩))
  · exact hzero .orig a (List.mem_append_right _ (mem_bytesFrom.mpr ⟨a, ha, by rw [Nat.zero_add]⟩))

/-- Settles O33: the pixel cleared. -/
theorem clroneZeroesOnePixel : Obligations.ClroneZeroesOnePixel := by
  intro i s hp hm
  refine ⟨exec_clrone_noop, fun hi => ?_⟩
  rw [exec_clrone hi]
  obtain ⟨t, ht, hwrote, hbytes⟩ := clearPixel_spec i.toNat s hi hp hm
  exact ⟨t, ht, hwrote.sameRegs, hbytes⟩

/-- Settles O31: the index is in range of the PB store exactly when the command reads it. -/
theorem getpbAnswersTheBrightness : Obligations.GetpbAnswersTheBrightness := by
  intro i s
  simp only [exec, execGetpb]
  split
  · next h =>
    rw [memRead_inBounds (by rw [size_pb_perpix h.1]; exact h.2)]
    rfl
  · rfl

/-- Settles O34: SETGB sets the register or, in the zero-pixel state, does nothing. -/
theorem setgbSetsGbrightOnly : Obligations.SetgbSetsGbrightOnly := by
  intro v s
  simp only [exec, execSetgb]
  split <;> rfl

/-- Settles O35: the command reads the byte exactly when its offset is in bounds. -/
theorem rdbufAnswersOneByte : Obligations.RdbufAnswersOneByte := by
  intro a s
  simp only [exec, execRdbuf]
  split
  · next h =>
    rw [memRead_inBounds h]
    rfl
  · rfl

/-- Settles O36: each command by its no-op case, GETPB by its answer. -/
theorem outOfRangeIndexIsANoOp : Obligations.OutOfRangeIndexIsANoOp := by
  intro i s hi
  have hgrb : ∀ p pb g r b, exec (.setgrb i p pb g r b) s = .next s := fun _ _ _ _ _ => setGrb_noop (.inr hi)
  have hhsv : ∀ hue sat val, exec (.sethsv i hue sat val) s = .next s := fun _ _ _ => setHsv_noop (.inr hi)
  refine ⟨hgrb, fun w => (exec_setgrbp i w s).trans (hgrb _ _ _ _ _), hhsv,
    fun w => (exec_sethsvp i w s).trans (hhsv _ _ _), fun v => exec_setpb_noop v (.inr hi), exec_clrone_noop hi, ?_⟩
  rw [getpbAnswersTheBrightness i s, if_neg fun h => Nat.not_lt.mpr hi h.2]

end Sys2Proof.Proofs
end

section
/-!
SUPPORT. The line cycle by cycle (spec 42_frame_encoder R256, R260, R262, R265): what an edge of a frame keeps when the
host does not reset, the runs during which the line follows a given list of levels, and the two phases of a bit-frame.
-/
namespace Sys2Proof.Laws
open Sys2Proof.Machine Sys2Proof.Safety

/-! ### What the host's part of an edge keeps -/

/-- What holds of every coming edge, and of an idle one, holds of the next. -/
theorem nextInput_of_forall {P : EdgeInput → Prop} {s : State} (h : ∀ e ∈ s.inputs, P e) (hidle : P .idle) :
    P s.nextInput := by
  unfold State.nextInput
  cases hs : s.inputs with
  | nil => exact hidle
  | cons e es => exact h e (by simp [hs])

theorem nextInput_rst {s : State} (h : NoReset s) : s.nextInput.rst = false := nextInput_of_forall h rfl

theorem nextInput_writes {s : State} (h : QuietHost s) : s.nextInput.writes = [] :=
  (nextInput_of_forall h ⟨rfl, rfl⟩ : EdgeQuiet s.nextInput).2

theorem noReset_of_quietHost {s : State} (h : QuietHost s) : NoReset s := fun e he => (h e he).1

theorem sample_raced (s : State) : (sample s).raced = (hostWrites s.nextInput.writes s).raced := by
  unfold sample
  simp only []
  rw [drivePort_eq]

/-! ### What an edge of a frame keeps (R265, R266) -/

/-- What a frame in flight keeps when the host does not reset; the memory and the marks are kept by a quiet host. -/
structure FrameKept (s t : State) : Prop where
  cfg : t.cfg = s.cfg
  gbright : t.gbright = s.gbright
  rsvdSeen : t.rsvdSeen = s.rsvdSeen
  gsnap : t.gsnap = s.gsnap
  rst : s.rst = false → t.rst = false
  noReset : NoReset s → NoReset t
  quiet : QuietHost s → QuietHost t
  mem : QuietHost s → t.mem = s.mem
  raced : QuietHost s → t.raced = s.raced

theorem FrameKept.refl (s : State) : FrameKept s s := ⟨rfl, rfl, rfl, rfl, id, id, id, fun _ => rfl, fun _ => rfl⟩

theorem FrameKept.trans {s t u : State} (h1 : FrameKept s t) (h2 : FrameKept t u) : FrameKept s u where
  cfg := h2.cfg.trans h1.cfg
  gbright := h2.gbright.trans h1.gbright
  rsvdSeen := h2.rsvdSeen.trans h1.rsvdSeen
  gsnap := h2.gsnap.trans h1.gsnap
  rst h := h2.rst (h1.rst h)
  noReset h := h2.noReset (h1.noReset h)
  quiet h := h2.quiet (h1.quiet h)
  mem h := (h2.mem (h1.quiet h)).trans (h1.mem h)
  raced h := (h2.raced (h1.quiet h)).trans (h1.raced h)

theorem sample_kept {s : State} (h : NoReset s) : FrameKept s (sample s) where
  cfg := sample_cfg s
  gbright := sample_gbright s
  rsvdSeen := sample_rsvdSeen s
  gsnap := sample_gsnap s
  rst _ := nextInput_rst h
  noReset h e he := h e (List.mem_of_mem_tail he)
  quiet h e he := h e (List.mem_of_mem_tail he)
  mem h := by rw [sample_mem, nextInput_writes h, hostWrites_nil]
  raced h := by rw [sample_raced, nextInput_writes h, hostWrites_nil]

theorem advanceColour_eq (j : Nat) (s : State) :
    advanceColour j s = { s with cur := if j % 3 = 0 ∧ 1 ≤ j / 3 then s.nxt else s.cur } := by
  unfold advanceColour
  split <;> rfl

theorem latchIfNeeded_gsnap_raced {j : Nat} {s t : State} (h : latchIfNeeded j s = .next t) :
    t.gsnap = s.gsnap ∧ t.raced = s.raced := by
  unfold latchIfNeeded at h
  split at h
  · obtain ⟨w, -, h⟩ := andThen_eq_next.1 h
    injection h with h
    exact h ▸ ⟨rfl, rfl⟩
  · injection h with h
    exact h ▸ ⟨rfl, rfl⟩

theorem load_gsnap_raced {j : Nat} {s t : State} (h : load j s = .next t) :
    t.gsnap = s.gsnap ∧ t.raced = s.raced := by
  simp only [load] at h
  split at h
  · obtain ⟨v, -, h⟩ := andThen_eq_next.1 h
    injection h with h
    exact h ▸ ⟨rfl, rfl⟩
  · obtain ⟨u, hu, h⟩ := andThen_eq_next.1 h
    injection h with h
    rw [advanceColour_eq] at hu
    have hkept := latchIfNeeded_gsnap_raced hu
    exact h ▸ hkept

theorem endLow_gsnap_raced {s t : State} (h : endLow s = .next t) : t.gsnap = s.gsnap ∧ t.raced = s.raced := by
  unfold endLow at h
  split at h
  · injection h with h
    exact h ▸ ⟨rfl, rfl⟩
  · split at h
    · exact load_gsnap_raced h
    · injection h with h
      exact h ▸ ⟨rfl, rfl⟩

/-- No edge of a frame changes GSNAP or the host's marks. -/
theorem tick_gsnap_raced {s t : State} (h : tick s = .next t) : t.gsnap = s.gsnap ∧ t.raced = s.raced := by
  unfold tick at h
  split at h
  · injection h with h
    exact h ▸ ⟨rfl, rfl⟩
  · split at h
    · exact load_gsnap_raced h
    · injection h with h
      exact h ▸ ⟨rfl, rfl⟩
    · exact endLow_gsnap_raced h

theorem tick_kept {s t : State} (h : tick s = .next t) : FrameKept s t := by
  obtain ⟨hcfg, hmem, hgbright, hseen, -, -, hrst, -, -, hinputs⟩ := (tick_only h).kept
  obtain ⟨hgsnap, hraced⟩ := tick_gsnap_raced h
  exact ⟨hcfg, hgbright, hseen, hgsnap, fun h => hrst.trans h, fun h e he => h e (hinputs ▸ he),
    fun h e he => h e (hinputs ▸ he), fun _ => hmem, fun _ => hraced⟩

theorem step_kept {s t : State} (hx : s.encState = .xmit) (hn : NoReset s) (h : step s = .next t) : FrameKept s t := by
  rw [step_frame (nextInput_rst hn) hx] at h
  exact (sample_kept hn).trans (tick_kept h)

/-! ### Runs with a given line -/

theorem after_succ_of_step {s t : State} (h : step s = .next t) (k : Nat) : after (k + 1) s = after k t := by
  simp only [after, Host.Core.run]
  rw [show Sys2Proof.core.step s = .next t from h]

/-- From `s` the block is busy for as many cycles as `w` has levels, the line takes these levels one a cycle, and the
state that follows is `t`. -/
inductive Drives : List Bool → State → State → Prop
  | nil (s : State) : Drives [] s s
  | cons {b : Bool} {w : List Bool} {s t u : State} (hbusy : s.busy = true) (hline : s.dout = b)
      (hstep : step s = .next t) (h : Drives w t u) : Drives (b :: w) s u

theorem Drives.single {b : Bool} {s t : State} (hbusy : s.busy = true) (hline : s.dout = b)
    (hstep : step s = .next t) : Drives [b] s t := .cons hbusy hline hstep (.nil t)

theorem Drives.append {v w : List Bool} {s t u : State} (h1 : Drives v s t) (h2 : Drives w t u) :
    Drives (v ++ w) s u := by
  induction h1 with
  | nil s => exact h2
  | cons hbusy hline hstep _ ih => exact .cons hbusy hline hstep (ih h2)

/-- The state after the whole run. -/
theorem Drives.after_length {w : List Bool} {s t : State} (h : Drives w s t) : after w.length s = .next t := by
  induction h with
  | nil s => rfl
  | cons _ _ hstep _ ih => exact (after_succ_of_step hstep _).trans ih

/-- The state in one of the run's cycles. -/
theorem Drives.during {w : List Bool} {s t : State} (h : Drives w s t) {k : Nat} {b : Bool} (hk : w[k]? = some b) :
    ∃ u, after k s = .next u ∧ u.dout = b ∧ u.busy = true := by
  induction h generalizing k with
  | nil s => simp at hk
  | @cons c w s t u hbusy hline hstep _ ih =>
    cases k with
    | zero =>
      obtain rfl : c = b := by simpa using hk
      exact ⟨s, rfl, hline, hbusy⟩
    | succ k => exact after_succ_of_step hstep k ▸ ih (by simpa using hk)

/-- Two runs with the same levels agree in every cycle, the one that follows included if they agree there. -/
theorem Drives.same_line {w : List Bool} {s t s' t' : State} (h : Drives w s t) (h' : Drives w s' t')
    (hline : t.dout = t'.dout) (hbusy : t.busy = t'.busy) {k : Nat} (hk : k ≤ w.length) :
    ∃ u u', after k s = .next u ∧ after k s' = .next u' ∧ u.dout = u'.dout ∧ u.busy = u'.busy := by
  rcases Nat.lt_or_eq_of_le hk with hlt | rfl
  · have hb : w[k]? = some w[k] := List.getElem?_eq_getElem hlt
    obtain ⟨u, hu, hdout, hub⟩ := h.during hb
    obtain ⟨u', hu', hdout', hub'⟩ := h'.during hb
    exact ⟨u, u', hu, hu', hdout.trans hdout'.symm, hub.trans hub'.symm⟩
  · exact ⟨t, t', h.after_length, h'.after_length, hline, hbusy⟩

theorem encState_of_busy {s : State} (h : s.busy = true) : s.encState = .xmit := by
  simp only [State.busy, Bool.and_eq_true, beq_iff_eq] at h
  exact h.2

theorem Drives.kept {w : List Bool} {s t : State} (h : Drives w s t) (hn : NoReset s) : FrameKept s t := by
  induction h with
  | nil s => exact .refl s
  | cons hbusy _ hstep _ ih =>
    have hk := step_kept (encState_of_busy hbusy) hn hstep
    exact hk.trans (ih (hk.noReset hn))

/-! ### Phases -/

/-- A frame in flight that stands in this phase for `c` more cycles, under a host that does not reset. -/
structure Sends (ph : Phase) (c : Nat) (s : State) : Prop where
  encState : s.encState = .xmit
  rst : s.rst = false
  phase : s.phase = ph
  cnt : s.cnt.toNat = c
  noReset : NoReset s

section sends
variable {ph : Phase} {c : Nat} {s t : State}

theorem Sends.busy (h : Sends ph c s) : s.busy = true := by simp [State.busy, h.rst, h.encState]

theorem Sends.dout (h : Sends ph c s) : s.dout = (ph == .high) := by
  simp [State.dout, h.rst, h.encState, h.phase]

theorem Sends.step_eq_tick (h : Sends ph c s) : step s = tick (sample s) :=
  step_frame (nextInput_rst h.noReset) h.encState

/-- The cycle after this one, by its encoder registers. -/
theorem Sends.next {ph' : Phase} {c' : Nat} (h : Sends ph c s) (hstep : step s = .next t)
    (hx : t.encState = .xmit) (hp : t.phase = ph') (hc : t.cnt.toNat = c') : Sends ph' c' t :=
  have hk := step_kept h.encState h.noReset hstep
  ⟨hx, hk.rst h.rst, hp, hc, hk.noReset h.noReset⟩

theorem Sends.drives_single (h : Sends ph c s) (hstep : step s = .next t) : Drives [ph == .high] s t :=
  .single h.busy h.dout hstep

end sends

/-- The registers that say where in the frame the encoder is, and the pipeline, are the same. -/
structure SamePlace (s t : State) : Prop where
  byteIx : t.byteIx = s.byteIx
  bitIx : t.bitIx = s.bitIx
  shreg : t.shreg = s.shreg
  cur : t.cur = s.cur
  nxt : t.nxt = s.nxt

theorem SamePlace.refl (s : State) : SamePlace s s := ⟨rfl, rfl, rfl, rfl, rfl⟩

theorem SamePlace.trans {s t u : State} (h1 : SamePlace s t) (h2 : SamePlace t u) : SamePlace s u :=
  ⟨h2.byteIx.trans h1.byteIx, h2.bitIx.trans h1.bitIx, h2.shreg.trans h1.shreg, h2.cur.trans h1.cur,
    h2.nxt.trans h1.nxt⟩

theorem sample_samePlace (s : State) : SamePlace s (sample s) :=
  ⟨sample_byteIx s, sample_bitIx s, sample_shreg s, sample_cur s, sample_nxt s⟩

theorem toNat_sub_one {w n : Nat} {x : BitVec w} (h : x.toNat = n + 1) : (x - 1).toNat = n := by
  have hw : n + 1 < 2 ^ w := h ▸ x.isLt
  have hone : (1 : BitVec w).toNat = 1 := (BitVec.toNat_ofNat 1 w).trans (Nat.mod_eq_of_lt (by omega))
  rw [BitVec.toNat_sub_of_le (by rw [BitVec.le_def]; omega), h, hone, Nat.add_sub_cancel]

/-- A phase counts down to its last cycle in place (R306). -/
theorem drives_countdown {ph : Phase} {c : Nat} {s : State} (h : Sends ph (c + 1) s) :
    ∃ t, Drives (List.replicate c (ph == .high)) s t ∧ Sends ph 1 t ∧ SamePlace s t := by
  induction c generalizing s with
  | zero => exact ⟨s, .nil s, h, .refl s⟩
  | succ c ih =>
    have hstep : step s = .next (countDown (sample s)) :=
      h.step_eq_tick.trans (tick_counting (by rw [sample_cnt, h.cnt]; omega))
    have hnext : Sends ph (c + 1) (countDown (sample s)) :=
      h.next hstep (by simp [h.encState]) (by simp [h.phase])
        (toNat_sub_one (by rw [sample_cnt, h.cnt]))
    obtain ⟨t, hd, ht, hp⟩ := ih hnext
    have hplace : SamePlace s (countDown (sample s)) := (sample_samePlace s).trans ⟨rfl, rfl, rfl, rfl, rfl⟩
    exact ⟨t, (h.drives_single hstep).append hd, ht, hplace.trans hp⟩

/-! ### Bit-frames (R256, R260) -/

theorem highCycles_mem (cfg : Config) (b : Bool) : cfg.highCycles b ∈
    [cfg.counts.t0h, cfg.counts.t0l, cfg.counts.t1h, cfg.counts.t1l, cfg.startLat] := by
  cases b <;> simp [Config.highCycles]

theorem lowCycles_mem (cfg : Config) (b : Bool) : cfg.lowCycles b ∈
    [cfg.counts.t0h, cfg.counts.t0l, cfg.counts.t1h, cfg.counts.t1l, cfg.startLat] := by
  cases b <;> simp [Config.lowCycles]

/-- A legal count is positive and fits `CNT` (R305). -/
theorem count_bounds {cfg : Config} (hl : cfg.timingLegal = true) {c : Nat}
    (hc : c ∈ [cfg.counts.t0h, cfg.counts.t0l, cfg.counts.t1h, cfg.counts.t1l, cfg.startLat]) :
    0 < c ∧ (BitVec.ofNat 16 c).toNat = c := by
  obtain ⟨hpos, hle⟩ := (timingLegal_iff.1 hl).1 c hc
  exact ⟨hpos, BitVec.toNat_ofNat _ _ |>.trans (Nat.mod_eq_of_lt (by omega))⟩

/-- The last cycle of a HIGH phase gives way to the bit's LOW phase (R262). -/
theorem step_high_end {s : State} (hl : s.cfg.timingLegal = true) (h : Sends .high 1 s) :
    ∃ t, step s = .next t ∧ Sends .low (s.cfg.lowCycles s.currentBit) t ∧ SamePlace s t := by
  have hstep := h.step_eq_tick.trans (tick_high (by simp [h.cnt]) ((sample_phase s).trans h.phase))
  refine ⟨_, hstep, h.next hstep ((sample_encState s).trans h.encState) rfl ?_,
    (sample_samePlace s).trans ⟨rfl, rfl, rfl, rfl, rfl⟩⟩
  simpa [State.currentBit] using (count_bounds hl (lowCycles_mem s.cfg s.currentBit)).2

/-- The line during one bit-frame but for its last cycle. -/
def bitWaveButLast (cfg : Config) (b : Bool) : List Bool :=
  List.replicate (cfg.highCycles b) true ++ List.replicate (cfg.lowCycles b - 1) false

theorem bitWaveButLast_append {cfg : Config} (hl : cfg.timingLegal = true) (b : Bool) :
    bitWaveButLast cfg b ++ [false] = bitWave cfg b := by
  have hpos := (count_bounds hl (lowCycles_mem cfg b)).1
  rw [bitWaveButLast, bitWave, List.append_assoc, ← List.replicate_succ', Nat.sub_add_cancel hpos]

/-- From the first cycle of its HIGH phase, a bit-frame runs to the last cycle of its LOW phase in place (R260). -/
theorem drives_bit {s : State} (hl : s.cfg.timingLegal = true)
    (h : Sends .high (s.cfg.highCycles s.currentBit) s) :
    ∃ t, Drives (bitWaveButLast s.cfg s.currentBit) s t ∧ Sends .low 1 t ∧ SamePlace s t := by
  have hhigh := Nat.sub_add_cancel (count_bounds hl (highCycles_mem s.cfg s.currentBit)).1
  have hlow := Nat.sub_add_cancel (count_bounds hl (lowCycles_mem s.cfg s.currentBit)).1
  obtain ⟨t, dt, ht, pt⟩ := drives_countdown (hhigh ▸ h)
  have hcfg := (dt.kept h.noReset).cfg
  have hbit : t.currentBit = s.currentBit := by simp only [State.currentBit, pt.shreg, pt.bitIx]
  obtain ⟨u, hu, hs, pu⟩ := step_high_end (hcfg.symm ▸ hl) ht
  rw [hcfg, hbit, ← hlow] at hs
  obtain ⟨v, dv, hv, pv⟩ := drives_countdown hs
  refine ⟨v, ?_, hv, (pt.trans pu).trans pv⟩
  have hwave := (dt.append (ht.drives_single hu)).append dv
  rwa [beq_self_eq_true, ← List.replicate_succ', hhigh] at hwave

/-- The sub-windows of one level join to one phase (R256, R307). -/
theorem subWindowWave_eq {cfg : Config} (hl : cfg.timingLegal = true) (b : Bool) :
    subWindowWave cfg b = bitWave cfg b := by
  obtain ⟨-, hhigh, hlow⟩ := timingLegal_iff.1 hl
  cases b with
  | true =>
    simp only [subWindowWave, bitWave, List.replicate_append_replicate, Config.w1, Config.w2, Config.w3,
      Config.highCycles, Config.lowCycles, if_true, Nat.add_sub_cancel' hhigh.le]
  | false =>
    simp only [subWindowWave, bitWave, List.append_assoc, List.replicate_append_replicate, Config.w1, Config.w2,
      Config.w3, Config.highCycles, Config.lowCycles, Bool.false_eq_true, if_false, Nat.add_sub_cancel' hlow.le]

end Sys2Proof.Laws

namespace Sys2Proof.Proofs
open Sys2Proof.Machine Sys2Proof.Safety Sys2Proof.Laws

/-- Settles O45: the run of the two phases up to the last LOW cycle, which `k` reaches at most. -/
theorem bitFrameIsHighThenLow : Obligations.BitFrameIsHighThenLow := by
  intro s hx hrst hphase hl hcnt hn k hk
  obtain ⟨t, hd, ht, -⟩ := drives_bit hl ⟨hx, hrst, hphase, hcnt, hn⟩
  have hlen : (bitWaveButLast s.cfg s.currentBit).length =
      s.cfg.highCycles s.currentBit + (s.cfg.lowCycles s.currentBit - 1) := by simp [bitWaveButLast]
  have hpos := (count_bounds hl (lowCycles_mem s.cfg s.currentBit)).1
  rcases Nat.lt_or_ge k (bitWaveButLast s.cfg s.currentBit).length with hlt | hge
  · obtain ⟨u, hu, hdout, -⟩ := hd.during (List.getElem?_eq_getElem hlt)
    refine ⟨u, hu, hdout.trans ?_⟩
    simp only [bitWaveButLast, List.getElem_append, List.length_replicate, List.getElem_replicate]
    split <;> simp [*]
  · obtain rfl : k = (bitWaveButLast s.cfg s.currentBit).length := by omega
    refine ⟨t, hd.after_length, ht.dout.trans ?_⟩
    simp [hlen]

/-- Settles O54: for a 1 the first two windows are high, for a 0 the last two are low. -/
theorem subWindowsGiveTheBitFrame : Obligations.SubWindowsGiveTheBitFrame := fun _ b hl => subWindowWave_eq hl b

end Sys2Proof.Proofs
end

section
/-!
SUPPORT. A frame under a quiet host (spec 42_frame_encoder R241 to R243, R250, R251, R261, R262): what a load of a byte
sends, the bit-frames of a byte, the bytes of a frame, and the run from an accepted REFRESH to the end of its frame.
-/
namespace Sys2Proof.Laws
open Sys2Proof.Machine Sys2Proof.Safety

/-! ### The bytes of a frame (R242) -/

/-- Pixel k's colour in HSV mode, under the sampled brightness (R241, R251). -/
def pixelColour (s : State) (k : Nat) : BitVec 24 := slotColour s.cfg (s.rawSlot k) s.gsnap

theorem frameByte_grb {s : State} (hc : s.cfg.colorMode = .grb) (g : Byte) (j : Nat) :
    s.frameByte g j = s.byteAt .scaled j := by
  simp only [State.frameByte, hc]

theorem frameByte_hsv {s : State} (hc : s.cfg.colorMode = .hsv) (g : Byte) (j : Nat) :
    s.frameByte g j = colourByte (slotColour s.cfg (s.rawSlot (j / 3)) g) (j % 3) := by
  simp only [State.frameByte, hc]

section congr
variable {s t : State} (hcfg : t.cfg = s.cfg) (hmem : t.mem = s.mem)
include hcfg hmem

theorem byteAt_congr (x : Store) (a : Nat) : t.byteAt x a = s.byteAt x a := by
  simp only [State.byteAt, hcfg, hmem]

theorem rawSlot_congr (k : Nat) : t.rawSlot k = s.rawSlot k := by
  simp only [State.rawSlot, byteAt_congr hcfg hmem]

theorem frameByte_congr (g : Byte) (j : Nat) : t.frameByte g j = s.frameByte g j := by
  simp only [State.frameByte, hcfg, byteAt_congr hcfg hmem, rawSlot_congr hcfg hmem]

theorem frameBits_congr (g : Byte) : t.frameBits g = s.frameBits g := by
  simp only [State.frameBits, State.frameBytes, hcfg, funext (frameByte_congr hcfg hmem g)]

theorem pixelColour_congr (hgsnap : t.gsnap = s.gsnap) (k : Nat) : pixelColour t k = pixelColour s k := by
  simp only [pixelColour, hcfg, hgsnap, rawSlot_congr hcfg hmem]

end congr

/-- Frames of equal bytes have equal bits (R243). -/
theorem frameBits_eq {s d : State} {g g' : Byte} (hn : d.cfg.nEff = s.cfg.nEff)
    (h : ∀ j < 3 * s.cfg.nEff, d.frameByte g' j = s.frameByte g j) : d.frameBits g' = s.frameBits g := by
  have hbytes : d.frameBytes g' = s.frameBytes g := by
    rw [State.frameBytes, State.frameBytes, hn]
    exact List.map_congr_left fun j hj => h j (List.mem_range.1 hj)
  rw [State.frameBits, State.frameBits, hbytes]

/-! ### Loading a byte that nobody raced (R250, R251, R262) -/

/-- While byte `j` of `s`'s frame is sent, the pipeline of `t` holds its pixel's colour and the next pixel's. -/
structure Pipeline (s : State) (j : Nat) (t : State) : Prop where
  cur : t.cur = pixelColour s (j / 3)
  nxt : j / 3 + 1 < s.cfg.nEff → t.nxt = pixelColour s (j / 3 + 1)

/-- The pipeline of `s` is ready for the load of byte `j`. -/
structure PipelineReady (j : Nat) (s : State) : Prop where
  cur : (if j % 3 = 0 ∧ 1 ≤ j / 3 then s.nxt else s.cur) = pixelColour s (j / 3)
  nxt : j % 3 ≠ 0 → j / 3 + 1 < s.cfg.nEff → s.nxt = pixelColour s (j / 3 + 1)

/-- The pipeline of one byte is ready for the next. -/
theorem Pipeline.ready {s t : State} {j : Nat} (h : Pipeline s j t) (hcfg : t.cfg = s.cfg)
    (hcolour : ∀ k, pixelColour t k = pixelColour s k) (hj : j + 1 < 3 * s.cfg.nEff) : PipelineReady (j + 1) t := by
  by_cases hb : (j + 1) % 3 = 0
  · have hk : (j + 1) / 3 = j / 3 + 1 := by omega
    refine ⟨?_, fun hne => absurd hb hne⟩
    rw [if_pos ⟨hb, by omega⟩, hk, hcolour]
    exact h.nxt (by omega)
  · have hk : (j + 1) / 3 = j / 3 := by omega
    refine ⟨?_, fun _ hlt => ?_⟩
    · rw [if_neg fun h => hb h.1, hk, hcolour]
      exact h.cur
    · rw [hk, hcolour]
      exact h.nxt (hk ▸ hcfg ▸ hlt)

/-- The latch at a pixel's first byte takes the next pixel's colour. -/
theorem latchIfNeeded_nxt {j : Nat} {s t : State} (hc : s.cfg.colorMode = .hsv) (hr : s.raced = [])
    (h : latchIfNeeded j s = .next t) :
    t.nxt = if j % 3 = 0 ∧ j / 3 + 1 < s.cfg.nEff then pixelColour s (j / 3 + 1) else s.nxt := by
  unfold latchIfNeeded at h
  split at h
  · next hj =>
    have hslot : 4 * (j / 3 + 1) + 3 < s.cfg.size .scaled := by rw [size_scaled_hsv hc]; omega
    have hunraced := slotRaced_nil hr (j / 3 + 1)
    rw [latchNext, readRaw_exact hslot hunraced, andThen_next, hunraced] at h
    injection h with h
    rw [if_pos hj, ← h]
    rfl
  · next hj =>
    injection h with h
    rw [if_neg hj, h]

/-- In GRB mode a load sends the byte of the store (R244). -/
theorem loadGrb_shreg {j : Nat} {s t : State} (hj : j < s.cfg.size .scaled) (hr : s.raced = [])
    (h : loadGrb j s = .next t) : t.shreg = s.byteAt .scaled j := by
  rw [loadGrb, encRead_exact hj (isRaced_nil hr j), andThen_next] at h
  injection h with h
  rw [← h, startByte_shreg]

/-- In HSV mode a load sends the pixel's colour and leaves the pipeline of its byte (R250, R251). -/
theorem loadHsv_pipeline {j : Nat} {s t : State} (hc : s.cfg.colorMode = .hsv) (hr : s.raced = [])
    (hp : PipelineReady j s) (h : loadHsv j s = .next t) :
    t.shreg = colourByte (pixelColour s (j / 3)) (j % 3) ∧ Pipeline s j t := by
  rw [loadHsv, advanceColour_eq, hp.cur] at h
  obtain ⟨u, hu, h⟩ := andThen_eq_next.1 h
  obtain ⟨u', hu', heq⟩ := latchIfNeeded_next j (s := { s with cur := pixelColour s (j / 3) }) hc
  obtain rfl : u' = u := by simpa [hu'] using hu
  have hcur : u'.cur = pixelColour s (j / 3) := by rw [heq]
  have hnxt := latchIfNeeded_nxt (s := { s with cur := pixelColour s (j / 3) }) hc hr hu
  injection h with h
  subst h
  refine ⟨by rw [startByte_shreg, hcur], by rw [startByte_cur, hcur], fun hlt => ?_⟩
  rw [startByte_nxt, hnxt]
  by_cases hj : j % 3 = 0
  · exact if_pos ⟨hj, hlt⟩
  · exact (if_neg fun h => hj h.1).trans (hp.nxt hj hlt)

/-- A load of a byte of the frame sends that byte (R242, R262). -/
theorem load_sends {j : Nat} {s : State} (hj : j < 3 * s.cfg.nEff) (hr : s.raced = [])
    (hp : s.cfg.colorMode = .hsv → PipelineReady j s) :
    ∃ t, load j s = .next t ∧ Loaded j s t ∧ t.shreg = s.frameByte s.gsnap j ∧
      (s.cfg.colorMode = .hsv → Pipeline s j t) := by
  obtain ⟨t, ht, hl⟩ := load_next hj
  refine ⟨t, ht, hl, ?_⟩
  simp only [load] at ht
  cases hc : s.cfg.colorMode with
  | grb =>
    rw [hc] at ht
    rw [frameByte_grb hc]
    have hsize : j < s.cfg.size .scaled := by rw [size_scaled_grb hc]; exact hj
    have hshreg := loadGrb_shreg (s := { s with byteIx := BitVec.ofNat 18 j, bitIx := 7 }) hsize hr ht
    exact ⟨hshreg, by simp⟩
  | hsv =>
    rw [hc] at ht
    rw [frameByte_hsv hc]
    obtain ⟨hcur, hnxt⟩ := hp hc
    obtain ⟨hshreg, hcur, hnxt⟩ :=
      loadHsv_pipeline (s := { s with byteIx := BitVec.ofNat 18 j, bitIx := 7 }) hc hr ⟨hcur, hnxt⟩ ht
    exact ⟨hshreg, fun _ => ⟨hcur, hnxt⟩⟩

/-! ### The end of a LOW phase by its case (R262, R264) -/

section endLow
variable {s : State}

theorem endLow_bit (h : 0 < s.bitIx.toNat) :
    endLow s = .next (emitBit (s.shreg.getLsbD (s.bitIx.toNat - 1)) { s with bitIx := s.bitIx - 1 }) := if_pos h

theorem endLow_byte (h : ¬0 < s.bitIx.toNat) (hj : s.byteIx.toNat + 1 < 3 * s.cfg.nEff) :
    endLow s = load (s.byteIx.toNat + 1) s := (if_neg h).trans (if_pos hj)

theorem endLow_end (h : ¬0 < s.bitIx.toNat) (hj : ¬s.byteIx.toNat + 1 < 3 * s.cfg.nEff) :
    endLow s = .next { s with encState := .idle } := (if_neg h).trans (if_neg hj)

end endLow

/-! ### A frame in flight -/

/-- What the state right after an accepted REFRESH says of the frame: legal counts, byte indices that fit BYTE_IX, a
host that stays quiet, and no byte raced. -/
structure FrameBegun (s : State) : Prop where
  timing : s.cfg.timingLegal = true
  small : 3 * s.cfg.nEff < 2 ^ 18
  quiet : QuietHost s
  raced : s.raced = []

/-- The state `t` is at bit `i` of byte `j` of the frame that begins in `s`. -/
structure AtBit (s : State) (j i : Nat) (t : State) : Prop where
  kept : FrameKept s t
  byteIx : t.byteIx.toNat = j
  bitIx : t.bitIx.toNat = i
  shreg : t.shreg = s.frameByte s.gsnap j
  pipeline : s.cfg.colorMode = .hsv → Pipeline s j t

/-- The state `t` is in the first cycle of that bit's bit-frame. -/
structure BitStarts (s : State) (j i : Nat) (t : State) : Prop where
  place : AtBit s j i t
  sends : Sends .high (s.cfg.highCycles ((s.frameByte s.gsnap j).getLsbD i)) t

section frame
variable {s t : State} {j i : Nat}

theorem AtBit.samePlace {u : State} (h : AtBit s j i t) (hk : FrameKept t u) (hp : SamePlace t u) : AtBit s j i u where
  kept := h.kept.trans hk
  byteIx := hp.byteIx ▸ h.byteIx
  bitIx := hp.bitIx ▸ h.bitIx
  shreg := hp.shreg.trans h.shreg
  pipeline hc := ⟨hp.cur.trans (h.pipeline hc).cur, fun hlt => hp.nxt.trans ((h.pipeline hc).nxt hlt)⟩

theorem AtBit.currentBit (h : AtBit s j i t) : t.currentBit = (s.frameByte s.gsnap j).getLsbD i := by
  rw [State.currentBit, h.shreg, h.bitIx]

variable (hf : FrameBegun s)
include hf

/-- The edge that loads a byte starts its first bit-frame (R262). -/
theorem step_load {ph : Phase} {c : Nat} (hk : FrameKept s t) (hs : Sends ph c t) (hj : j < 3 * s.cfg.nEff)
    (hstep : step t = load j (sample t)) (hp : s.cfg.colorMode = .hsv → PipelineReady j (sample t)) :
    ∃ u, step t = .next u ∧ BitStarts s j 7 u := by
  have hks := hk.trans (sample_kept hs.noReset)
  have hmem := hks.mem hf.quiet
  obtain ⟨u, hu, hload, hshreg, hpipe⟩ := load_sends (s := sample t) (hks.cfg.symm ▸ hj)
    ((hks.raced hf.quiet).trans hf.raced) (hks.cfg.symm ▸ hp)
  rw [hks.gsnap, frameByte_congr hks.cfg hmem] at hshreg
  have hnext := hstep.trans hu
  refine ⟨u, hnext, ⟨hk.trans (step_kept hs.encState hs.noReset hnext), ?_, ?_, hshreg, fun hc => ?_⟩, ?_⟩
  · have := hf.small
    rw [hload.byteIx, BitVec.toNat_ofNat, Nat.mod_eq_of_lt (by omega)]
  · rw [hload.bitIx]
    rfl
  · obtain ⟨hcur, hnxt⟩ := hpipe (hks.cfg.symm ▸ hc)
    rw [pixelColour_congr hks.cfg hmem hks.gsnap] at hcur hnxt
    exact ⟨hcur, hks.cfg ▸ hnxt⟩
  · refine hs.next hnext (hload.encState.trans ((sample_encState t).trans hs.encState)) hload.phase ?_
    rw [hload.cnt, hshreg, hks.cfg]
    exact (count_bounds hf.timing (highCycles_mem _ _)).2

/-! ### After a bit-frame (R261, R264) -/

omit hf in
theorem step_low_end (hs : Sends .low 1 t) : step t = endLow (sample t) :=
  hs.step_eq_tick.trans (tick_low (by simp [hs.cnt]) ((sample_phase t).trans hs.phase))

/-- After a bit of a byte but the last comes its next bit. -/
theorem step_next_bit (h : AtBit s j (i + 1) t) (hs : Sends .low 1 t) :
    ∃ u, step t = .next u ∧ BitStarts s j i u := by
  have hat := h.samePlace (sample_kept hs.noReset) (sample_samePlace t)
  have hstep := (step_low_end hs).trans (endLow_bit (by rw [hat.bitIx]; omega))
  refine ⟨_, hstep, ?_, hs.next hstep ((sample_encState t).trans hs.encState) rfl ?_⟩
  · exact ⟨h.kept.trans (step_kept hs.encState hs.noReset hstep), hat.byteIx, toNat_sub_one hat.bitIx, hat.shreg,
      fun hc => ⟨(hat.pipeline hc).cur, (hat.pipeline hc).nxt⟩⟩
  · rw [emitBit_cnt, hat.bitIx, hat.shreg, hat.kept.cfg, Nat.add_sub_cancel]
    exact (count_bounds hf.timing (highCycles_mem _ _)).2

/-- After the last bit of a byte but the last comes the next byte. -/
theorem step_next_byte (h : AtBit s j 0 t) (hs : Sends .low 1 t) (hj : j + 1 < 3 * s.cfg.nEff) :
    ∃ u, step t = .next u ∧ BitStarts s (j + 1) 7 u := by
  have hstep := (step_low_end hs).trans
    (endLow_byte (by simp [h.bitIx]) (by simpa [h.byteIx, h.kept.cfg] using hj))
  rw [sample_byteIx, h.byteIx] at hstep
  have hks := h.kept.trans (sample_kept hs.noReset)
  have hmem := hks.mem hf.quiet
  have hat := h.samePlace (sample_kept hs.noReset) (sample_samePlace t)
  exact step_load hf h.kept hs hj hstep fun hc =>
    (hat.pipeline hc).ready hks.cfg (pixelColour_congr hks.cfg hmem hks.gsnap) hj

omit hf in
/-- After the last bit of the last byte the frame is over. -/
theorem step_last_byte (h : AtBit s j 0 t) (hs : Sends .low 1 t) (hj : j + 1 = 3 * s.cfg.nEff) :
    ∃ u, step t = .next u ∧ u.encState = .idle :=
  ⟨_, (step_low_end hs).trans
    (endLow_end (by simp [h.bitIx]) (by simp [h.byteIx, h.kept.cfg, hj])), rfl⟩

/-! ### The run of a frame (R243, R261) -/

/-- A bit-frame runs to the last cycle of its LOW phase, still at its bit, and the edge after it leads on. -/
theorem drives_bitFrame {P : State → Prop} (h : BitStarts s j i t)
    (hend : ∀ u, AtBit s j i u → Sends .low 1 u → ∃ v, step u = .next v ∧ P v) :
    ∃ v, Drives (bitWave s.cfg ((s.frameByte s.gsnap j).getLsbD i)) t v ∧ P v := by
  obtain ⟨hplace, hsends⟩ := h
  have hcfg := hplace.kept.cfg
  rw [← hplace.currentBit, ← hcfg] at hsends
  obtain ⟨u, hd, hu, hp⟩ := drives_bit (hcfg.symm ▸ hf.timing) hsends
  obtain ⟨v, hv, hP⟩ := hend u (hplace.samePlace (hd.kept hsends.noReset) hp) hu
  rw [hplace.currentBit, hcfg] at hd
  exact ⟨v, bitWaveButLast_append hf.timing _ ▸ hd.append (hu.drives_single hv), hP⟩

/-- From bit `i` on, the bit-frames of a byte's bits, without a gap. -/
theorem drives_bits {P : State → Prop} (h : BitStarts s j i t)
    (hend : ∀ u, AtBit s j 0 u → Sends .low 1 u → ∃ v, step u = .next v ∧ P v) :
    ∃ v, Drives (((List.range (i + 1)).reverse.map (s.frameByte s.gsnap j).getLsbD).flatMap (bitWave s.cfg)) t v ∧
      P v := by
  induction i generalizing t with
  | zero => simpa using drives_bitFrame hf h hend
  | succ i ih =>
    obtain ⟨u, du, hu⟩ := drives_bitFrame hf h fun _ => step_next_bit hf
    obtain ⟨v, dv, hv⟩ := ih hu
    refine ⟨v, ?_, hv⟩
    rw [List.range_succ, List.reverse_concat, List.map_cons, List.flatMap_cons]
    exact du.append dv

/-- All the bit-frames of a byte, the most significant bit first (R243). -/
theorem drives_byte {P : State → Prop} (h : BitStarts s j 7 t)
    (hend : ∀ u, AtBit s j 0 u → Sends .low 1 u → ∃ v, step u = .next v ∧ P v) :
    ∃ v, Drives ((bitsOfByte (s.frameByte s.gsnap j)).flatMap (bitWave s.cfg)) t v ∧ P v :=
  drives_bits hf h hend

/-- From byte `j` on, the bytes of the frame, without a gap; then the encoder is idle. -/
theorem drives_bytes {n : Nat} (h : BitStarts s j 7 t) (hn : j + (n + 1) = 3 * s.cfg.nEff) :
    ∃ v, Drives ((((List.range' j (n + 1)).map (s.frameByte s.gsnap)).flatMap bitsOfByte).flatMap (bitWave s.cfg))
      t v ∧ v.encState = .idle := by
  induction n generalizing j t with
  | zero =>
    obtain ⟨v, dv, hv⟩ := drives_byte hf h fun _ hu hs => step_last_byte hu hs hn
    exact ⟨v, by simpa using dv, hv⟩
  | succ n ih =>
    obtain ⟨u, du, hu⟩ := drives_byte hf h fun _ hu hs => step_next_byte hf hu hs (by omega)
    obtain ⟨v, dv, hv⟩ := ih hu (by omega)
    refine ⟨v, ?_, hv⟩
    rw [List.range'_succ, List.map_cons, List.flatMap_cons, List.flatMap_append]
    exact du.append dv

/-- From the start phase, the whole frame: the line follows the waveform of its bits, and the encoder ends idle
(R261). -/
theorem drives_frame (hs : Sends .start s.cfg.startLat s) (hn : 0 < s.cfg.nEff)
    (hcur : s.cfg.colorMode = .hsv → s.cur = pixelColour s 0) :
    ∃ v, Drives (frameWave s.cfg (s.frameBits s.gsnap)) s v ∧ v.encState = .idle := by
  have hlat := Nat.sub_add_cancel (count_bounds hf.timing (c := s.cfg.startLat) (by simp)).1
  obtain ⟨t, dt, ht, hp⟩ := drives_countdown (hlat ▸ hs)
  have hk := dt.kept hs.noReset
  have hks := hk.trans (sample_kept ht.noReset)
  have hstep : step t = load 0 (sample t) :=
    ht.step_eq_tick.trans (tick_start (by simp [ht.cnt]) ((sample_phase t).trans ht.phase))
  obtain ⟨u, hu, hbit⟩ := step_load hf hk ht (by omega) hstep fun hc => by
    refine ⟨?_, fun h => absurd rfl h⟩
    rw [pixelColour_congr hks.cfg (hks.mem hf.quiet) hks.gsnap]
    exact (sample_cur t).trans (hp.cur.trans (hcur hc))
  obtain ⟨v, dv, hv⟩ := drives_bytes hf (n := 3 * s.cfg.nEff - 1) hbit (by omega)
  refine ⟨v, ?_, hv⟩
  have hwave := (dt.append (ht.drives_single hu)).append dv
  rwa [show (Phase.start == Phase.high) = false from rfl, ← List.replicate_succ', hlat,
    Nat.sub_add_cancel (by omega), ← List.range_eq_range'] at hwave

end frame

/-! ### An accepted REFRESH (R241) -/

/-- What accepting a REFRESH does to the encoder, where there are pixels. -/
structure FrameStarted (s t : State) : Prop where
  only : EncoderOnly s t
  encState : t.encState = .xmit
  phase : t.phase = .start
  cnt : t.cnt = BitVec.ofNat 16 s.cfg.startLat
  gsnap : t.gsnap = s.gbright
  raced : t.raced = []
  cur : s.cfg.colorMode = .hsv → t.cur = pixelColour t 0

theorem execRefresh_frameStarted {s t : State} (hn : 0 < s.cfg.nEff) (h : exec .refresh s = .next t) :
    FrameStarted s t := by
  have honly := execRefresh_only h
  have h' : execRefresh s = .next t := h
  rw [execRefresh, if_neg (by omega)] at h'
  cases hc : s.cfg.colorMode with
  | grb =>
    rw [hc] at h'
    injection h' with h'
    subst h'
    exact ⟨honly, rfl, rfl, rfl, rfl, rfl, by simp [hc]⟩
  | hsv =>
    have hslot : 4 * 0 + 3 < (startFrame s).cfg.size .scaled := by rw [startFrame_cfg, size_scaled_hsv hc]; omega
    rw [hc, readRaw_exact hslot (slotRaced_nil rfl 0)] at h'
    injection h' with h'
    subst h'
    exact ⟨honly, rfl, rfl, rfl, rfl, rfl, fun _ => rfl⟩

/-- The waveform of a frame has `e - a` levels (R270). -/
theorem length_frameWave (cfg : Config) (bits : List Bool) : (frameWave cfg bits).length = frameCycles cfg bits := by
  have hbits : (bits.flatMap (bitWave cfg)).length = bits.count true * (cfg.counts.t1h + cfg.counts.t1l) +
      bits.count false * (cfg.counts.t0h + cfg.counts.t0l) := by
    induction bits with
    | nil => simp
    | cons b bits ih =>
      rw [List.flatMap_cons, List.length_append, ih]
      cases b <;> simp [bitWave, Config.highCycles, Config.lowCycles, Nat.succ_mul] <;> omega
  rw [frameWave, List.length_append, List.length_replicate, hbits, frameCycles, Nat.add_assoc]

/-- The waveform depends on the configuration by its counts and start latency only. -/
theorem frameWave_congr {cfg cfg' : Config} (hcounts : cfg'.counts = cfg.counts) (hlat : cfg'.startLat = cfg.startLat)
    (bits : List Bool) : frameWave cfg' bits = frameWave cfg bits := by
  have hbit : bitWave cfg' = bitWave cfg := by
    funext b
    simp only [bitWave, Config.highCycles, Config.lowCycles, hcounts]
  rw [frameWave, frameWave, hlat, hbit]

theorem nEff_le (cfg : Config) : cfg.nEff ≤ cfg.n := by
  unfold Config.nEff
  split <;> omega

/-- From an accepted REFRESH under a quiet host, the line follows the frame's waveform, and the block that follows is
idle (R242, R243, R261). -/
theorem refresh_drives {s t : State} (hinv : Inv s) (hready : ReadyToSend s) (hn : 0 < s.cfg.nEff)
    (h : exec .refresh s = .next t) :
    ∃ u, Drives (frameWave s.cfg (s.frameBits s.gbright)) t u ∧ u.encState = .idle ∧ u.rst = false ∧
      u.mem = s.mem ∧ u.gbright = s.gbright ∧ u.status = s.status := by
  obtain ⟨-, hrst, hquiet⟩ := hready
  obtain ⟨hranges, -, htiming, -, -⟩ := legal_iff.1 hinv.legal
  have hstart := execRefresh_frameStarted hn h
  obtain ⟨hcfg, hmem, hgbright, hseen, -, -, hrst', -, -, hinputs⟩ := hstart.only.kept
  have hquiet' : QuietHost t := fun e he => hquiet e (hinputs ▸ he)
  have hf : FrameBegun t := by
    refine ⟨hcfg.symm ▸ htiming, ?_, hquiet', hstart.raced⟩
    have hpixels := (rangesLegal_iff.1 hranges).1
    have hle := nEff_le s.cfg
    rw [hcfg]
    omega
  have hsends : Sends .start t.cfg.startLat t := by
    refine ⟨hstart.encState, hrst'.trans hrst, hstart.phase, ?_, noReset_of_quietHost hquiet'⟩
    rw [hstart.cnt, ← hcfg]
    exact (count_bounds hf.timing (by simp)).2
  obtain ⟨u, hd, hu⟩ := drives_frame hf hsends (hcfg.symm ▸ hn) (hcfg.symm ▸ hstart.cur)
  have hk := hd.kept hsends.noReset
  rw [hstart.gsnap, frameBits_congr hcfg hmem, hcfg] at hd
  refine ⟨u, hd, hu, hk.rst hsends.rst, (hk.mem hquiet').trans hmem, hk.gbright.trans hgbright, ?_⟩
  simp only [State.status, hk.cfg, hk.rsvdSeen, hcfg, hseen]

section idle
variable {s : State} (h : s.encState = .idle)
include h

theorem dout_of_idle : s.dout = false := by simp [State.dout, h]
theorem busy_of_idle : s.busy = false := by simp [State.busy, h]

end idle

/-- Two accepted REFRESHes whose frames have equal waveforms drive equal lines, in the cycle after the frame too. -/
theorem refresh_same_line {s d ts td : State} (hs : Inv s) (hd : Inv d) (rs : ReadyToSend s) (rd : ReadyToSend d)
    (hn : 0 < s.cfg.nEff) (hm : 0 < d.cfg.nEff)
    (hwave : frameWave d.cfg (d.frameBits d.gbright) = frameWave s.cfg (s.frameBits s.gbright))
    (es : exec .refresh s = .next ts) (ed : exec .refresh d = .next td) {k : Nat}
    (hk : k ≤ frameCycles s.cfg (s.frameBits s.gbright)) :
    ∃ us ud, after k ts = .next us ∧ after k td = .next ud ∧ us.dout = ud.dout ∧ us.busy = ud.busy := by
  obtain ⟨u, hu, hidle, -⟩ := refresh_drives hs rs hn es
  obtain ⟨u', hu', hidle', -⟩ := refresh_drives hd rd hm ed
  rw [hwave] at hu'
  exact hu.same_line hu' ((dout_of_idle hidle).trans (dout_of_idle hidle').symm)
    ((busy_of_idle hidle).trans (busy_of_idle hidle').symm) ((length_frameWave _ _).symm ▸ hk)

end Sys2Proof.Laws

namespace Sys2Proof.Proofs
open Sys2Proof.Machine Sys2Proof.Safety Sys2Proof.Laws

/-- Settles O46: the run of the frame, and the idle block it leaves. -/
theorem frameDrivesItsWaveform : Obligations.FrameDrivesItsWaveform := by
  intro s t hinv hready hn h
  obtain ⟨u, hd, hidle, hrst, hmem, hgbright, hstatus⟩ := refresh_drives hinv hready hn h
  have hlen := length_frameWave s.cfg (s.frameBits s.gbright)
  have hbusy := busy_of_idle hidle
  exact ⟨hlen, fun k b hk => hd.during hk, u, hlen ▸ hd.after_length, dout_of_idle hidle, hbusy,
    by simp [State.cmdReady, hbusy, hrst], hmem, hgbright, hstatus⟩

/-- Settles O47: both frames have the bytes of the converted colours. -/
theorem fusedPathEqualsDirectPath : Obligations.FusedPathEqualsDirectPath := by
  intro s d ts td hs hd rs rd hsc hdc hn hdn hcounts hlat hbytes es ed k hk
  have hbits : d.frameBits d.gbright = s.frameBits s.gbright := by
    refine frameBits_eq hdn fun j hj => ?_
    have hbyte := hbytes (j / 3) (by omega) (j % 3) (by omega)
    rwa [Nat.div_add_mod, ← frameByte_hsv hsc, ← frameByte_grb hdc d.gbright] at hbyte
  refine refresh_same_line hs hd rs rd hn (hdn.symm ▸ hn) ?_ es ed hk
  rw [hbits, frameWave_congr hcounts hlat]

/-- Settles O48: a byte of the frame reads nothing but SCALED, the configuration and the sampled brightness. -/
theorem equalStoresSendEqualFrames : Obligations.EqualStoresSendEqualFrames := by
  intro s d ts td hs hd rs rd hcfg hg hn hbytes es ed k hk
  have hbits : d.frameBits d.gbright = s.frameBits s.gbright := by
    refine frameBits_eq (by rw [hcfg]) fun j hj => ?_
    rw [hg]
    cases hc : s.cfg.colorMode with
    | grb =>
      rw [frameByte_grb hc, frameByte_grb (hcfg ▸ hc)]
      exact hbytes j (by rw [size_scaled_grb hc]; exact hj)
    | hsv =>
      rw [size_scaled_hsv hc] at hbytes
      have hslot : d.rawSlot (j / 3) = s.rawSlot (j / 3) := by
        simp only [State.rawSlot]
        rw [hbytes _ (by omega), hbytes _ (by omega), hbytes _ (by omega), hbytes _ (by omega)]
      rw [frameByte_hsv hc, frameByte_hsv (hcfg ▸ hc), hslot, hcfg]
  exact refresh_same_line hs hd rs rd hn (hcfg.symm ▸ hn) (by rw [hbits, hcfg]) es ed hk

end Sys2Proof.Proofs
end

section
/-!
SUPPORT. The timing profile (spec 43_timing_profile R302, R303, R306): where the counts come from, and a phase that
counts down in place and then gives way, whatever the host does but reset.
-/
namespace Sys2Proof.Laws
open Sys2Proof.Machine Sys2Proof.Safety

/-! ### Where the counts come from (R302) -/

section counts
variable {cfg : Config}

theorem counts_of_lookup {c : Counts} (h : cfg.timingTable.lookup cfg.clkHz = some c) :
    cfg.counts = c ∧ cfg.cal = true := by
  simp only [Config.counts, Config.cal, h, Option.isSome_some, and_self]

theorem counts_of_lookup_none (h : cfg.timingTable.lookup cfg.clkHz = none) :
    cfg.cal = false ∧ cfg.counts = ⟨bestEffortCycles cfg.t0hNs cfg.clkHz, bestEffortCycles cfg.t0lNs cfg.clkHz,
      bestEffortCycles cfg.t1hNs cfg.clkHz, bestEffortCycles cfg.t1lNs cfg.clkHz⟩ := by
  simp only [Config.counts, Config.cal, h, Option.isSome_none, and_self]

end counts

/-! ### Runs by their last edge -/

theorem after_succ (k : Nat) (s : State) : after (k + 1) s = andThen (step s) (after k) := by
  have hcore : Sys2Proof.core.step s = step s := rfl
  simp only [after, Host.Core.run, hcore]
  cases step s <;> rfl

/-- One more edge at the end of a run. -/
theorem after_succ_of_after {k : Nat} {s t u : State} (h : after k s = .next t) (hstep : step t = .next u) :
    after (k + 1) s = .next u := by
  induction k generalizing s with
  | zero =>
    obtain rfl : s = t := Host.Outcome.next.inj h
    exact after_succ_of_step hstep 0
  | succ k ih =>
    obtain ⟨v, hv, h⟩ := andThen_eq_next.1 ((after_succ k s).symm.trans h)
    exact (after_succ_of_step hv (k + 1)).trans (ih h)

/-! ### A delay of D cycles (R306) -/

/-- The state `t` is that of a frame in flight `k` cycles after `s`, in the same phase. -/
structure CountedDown (s : State) (k : Nat) (t : State) : Prop where
  kept : FrameKept s t
  place : SamePlace s t
  encState : t.encState = .xmit
  phase : t.phase = s.phase
  cnt : t.cnt.toNat = s.cnt.toNat - k

section delay
variable {s t : State} {k : Nat}

theorem CountedDown.zero (hx : s.encState = .xmit) : CountedDown s 0 s := ⟨.refl s, .refl s, hx, rfl, rfl⟩

theorem CountedDown.step_eq_tick (h : CountedDown s k t) (hn : NoReset s) : step t = tick (sample t) :=
  step_frame (nextInput_rst (h.kept.noReset hn)) h.encState

/-- An edge before the phase's last one counts down. -/
theorem CountedDown.step (h : CountedDown s k t) (hn : NoReset s) (hk : k + 1 < s.cnt.toNat) :
    ∃ u, step t = .next u ∧ CountedDown s (k + 1) u := by
  have hcnt : t.cnt.toNat = s.cnt.toNat - (k + 1) + 1 := by rw [h.cnt]; omega
  have hstep := (h.step_eq_tick hn).trans (tick_counting (by rw [sample_cnt, hcnt]; omega))
  exact ⟨_, hstep, h.kept.trans (step_kept h.encState (h.kept.noReset hn) hstep),
    (h.place.trans (sample_samePlace t)).trans ⟨rfl, rfl, rfl, rfl, rfl⟩, (sample_encState t).trans h.encState,
    (sample_phase t).trans h.phase, toNat_sub_one ((congrArg _ (sample_cnt t)).trans hcnt)⟩

/-- For the cycles of its count a phase stays as it is, counting down. -/
theorem after_countedDown (hx : s.encState = .xmit) (hn : NoReset s) (hk : k < s.cnt.toNat) :
    ∃ t, after k s = .next t ∧ CountedDown s k t := by
  induction k with
  | zero => exact ⟨s, rfl, .zero hx⟩
  | succ k ih =>
    obtain ⟨t, ht, h⟩ := ih (Nat.lt_of_succ_lt hk)
    obtain ⟨u, hu, h'⟩ := h.step hn hk
    exact ⟨u, after_succ_of_after ht hu, h'⟩

/-- The end of a LOW phase starts a HIGH phase or ends the frame (R262, R264). -/
theorem endLow_next (hx : s.encState = .xmit) :
    ∃ t, endLow s = .next t ∧ (t.encState = .idle ∨ (t.encState = .xmit ∧ t.phase = .high)) := by
  by_cases hbit : 0 < s.bitIx.toNat
  · exact ⟨_, endLow_bit hbit, .inr ⟨hx, rfl⟩⟩
  · by_cases hbyte : s.byteIx.toNat + 1 < 3 * s.cfg.nEff
    · obtain ⟨t, ht, hload⟩ := load_next hbyte
      exact ⟨t, (endLow_byte hbit hbyte).trans ht, .inr ⟨hload.encState.trans hx, hload.phase⟩⟩
    · exact ⟨_, endLow_end hbit hbyte, .inl rfl⟩

end delay

end Sys2Proof.Laws

namespace Sys2Proof.Proofs
open Sys2Proof.Machine Sys2Proof.Safety Sys2Proof.Laws

/-- Settles O44: after one cycle less than its count the phase stands at `CNT = 1`, and the next edge ends it. -/
theorem delayLastsExactlyItsCount : Obligations.DelayLastsExactlyItsCount := by
  intro s hx hpos hpix hn
  refine ⟨fun k hk => ?_, ?_⟩
  · obtain ⟨t, ht, h⟩ := after_countedDown hx hn hk
    exact ⟨t, ht, h.cnt, h.phase, h.encState, h.place.byteIx, h.place.bitIx, h.place.shreg⟩
  · obtain ⟨k, hk⟩ := Nat.exists_eq_add_of_le' hpos
    obtain ⟨t, ht, h⟩ := after_countedDown (k := k) hx hn (by omega)
    have hlast : ¬1 < (sample t).cnt.toNat := by rw [sample_cnt, h.cnt]; omega
    have hphase : (sample t).phase = s.phase := (sample_phase t).trans h.phase
    have hrun {u : State} (hu : tick (sample t) = .next u) : after s.cnt.toNat s = .next u :=
      hk ▸ after_succ_of_after ht ((h.step_eq_tick hn).trans hu)
    cases hp : s.phase with
    | start =>
      obtain ⟨u, hu, hload⟩ := load_next (j := 0) (s := sample t) (by rw [sample_cfg, h.kept.cfg]; omega)
      exact ⟨u, hrun ((tick_start hlast (hphase.trans hp)).trans hu), hload.phase, hload.byteIx, hload.bitIx⟩
    | high =>
      exact ⟨_, hrun (tick_high hlast (hphase.trans hp)), rfl, (sample_bitIx t).trans h.place.bitIx,
        (sample_byteIx t).trans h.place.byteIx⟩
    | low =>
      obtain ⟨u, hu, hmoved⟩ := endLow_next ((sample_encState t).trans h.encState)
      exact ⟨u, hrun ((tick_low hlast (hphase.trans hp)).trans hu), hmoved⟩

/-- Settles O52: the rate is a key of the table, or the lookup finds nothing. -/
theorem countsComeFromTheTableOrTheFormula : Obligations.CountsComeFromTheTableOrTheFormula := by
  refine ⟨fun cfg c h => counts_of_lookup h, fun cfg h => counts_of_lookup_none ?_⟩
  exact List.lookup_eq_none_iff.2 fun e he => bne_iff_ne.2 (h e he).symm

/-- Settles O53: the formula at the three keys. -/
theorem defaultTableIsTheFormula : Obligations.DefaultTableIsTheFormula :=
  ⟨rfl, by decide⟩

end Sys2Proof.Proofs
end

section
/-!
SUPPORT. The device facade (spec 44_device R330 to R334): the zero-pixel flag, the bits of STATUS, and the commands of a
block without pixels.
-/
namespace Sys2Proof.Laws
open Sys2Proof.Machine Sys2Proof.Safety

/-! ### The zero-pixel flag and the pixel count (R9) -/

section config
variable {cfg : Config}

theorem zeroPixel_eq_true_iff : cfg.zeroPixel = true ↔ cfg.memMode = .engine ∧ cfg.allocOk = false := by
  simp [Config.zeroPixel]

theorem nEff_of_zeroPixel (h : cfg.zeroPixel = true) : cfg.nEff = 0 := if_pos h

theorem nEff_of_pixels (h : cfg.zeroPixel = false) : cfg.nEff = cfg.n := if_neg (by simp [h])

/-- The block is calibrated exactly when its clock rate is a key of the table (R302). -/
theorem cal_eq_true_iff : cfg.cal = true ↔ ∃ c, (cfg.clkHz, c) ∈ cfg.timingTable := by
  simp [Config.cal, List.lookup_isSome_iff]

end config

/-! ### The bits of STATUS (R33) -/

/-- The six defined bits of STATUS, bit 0 first. -/
def statusBits (s : State) : List Bool :=
  [s.cfg.cal, s.rsvdSeen, s.cfg.zeroPixel, s.cfg.colorMode == .hsv, s.cfg.brightMode == .perpix,
    s.cfg.memMode == .caller]

/-- A bit appended at the low end is the head of the bits, low end first. -/
theorem getLsbD_append_ofBool {w : Nat} {x : BitVec w} {l : List Bool} (b : Bool)
    (h : ∀ k, x.getLsbD k = l.getD k false) : ∀ k, (x ++ BitVec.ofBool b).getLsbD k = (b :: l).getD k false
  | 0 => BitVec.getLsbD_concat_zero
  | k + 1 => BitVec.getLsbD_concat_succ.trans (h k)

theorem status_getLsbD (s : State) : ∀ k, s.status.getLsbD k = (statusBits s).getD k false := by
  have hzero (k : Nat) : (0#26).getLsbD k = [].getD k false := BitVec.getLsbD_zero
  exact getLsbD_append_ofBool _ <| getLsbD_append_ofBool _ <| getLsbD_append_ofBool _ <| getLsbD_append_ofBool _ <|
    getLsbD_append_ofBool _ <| getLsbD_append_ofBool _ hzero

/-! ### Commands of a block without pixels (R333) -/

theorem exec_refresh_noop {s : State} (h : s.cfg.nEff = 0) : exec .refresh s = .next s := if_pos h

theorem exec_clrall_noop {s : State} (h : s.cfg.nEff = 0) : exec .clrall s = .next s := by
  rw [exec_clrall, h, clearPixels]

end Sys2Proof.Laws

namespace Sys2Proof.Proofs
open Sys2Proof.Machine Sys2Proof.Safety Sys2Proof.Laws

/-- Settles O38: both commands answer the state they are given. -/
theorem nopAndBeginChangeNothing : Obligations.NopAndBeginChangeNothing := fun _ => ⟨rfl, rfl⟩

/-- Settles O39: the answer is `N_eff` by definition, and `N_eff` by the zero-pixel flag. -/
theorem getcntAnswersThePixelCount : Obligations.GetcntAnswersThePixelCount :=
  fun _ => ⟨rfl, nEff_of_zeroPixel, nEff_of_pixels⟩

/-- Settles O40: the answer is STATUS, read bit by bit. -/
theorem getstatAnswersTheStatusBits : Obligations.GetstatAnswersTheStatusBits := by
  intro s
  refine ⟨s.status, rfl, ?cal, ?rsvdSeen, ?zeroPixel, ?hsv, ?perpix, ?caller, fun k hk => ?above⟩ <;>
    rw [status_getLsbD]
  case cal => exact cal_eq_true_iff
  case rsvdSeen => rfl
  case zeroPixel => exact zeroPixel_eq_true_iff
  case hsv | perpix | caller => exact beq_iff_eq
  case above => exact List.getD_eq_default _ _ hk

/-- Settles O41: no index is in range, the stores are empty, and SETGB and REFRESH see the flag themselves. -/
theorem zeroPixelBlockIsInert : Obligations.ZeroPixelBlockIsInert := by
  intro s hz
  have hn : s.cfg.nEff = 0 := nEff_of_zeroPixel hz
  have hout (i : Idx) : s.cfg.nEff ≤ i.toNat := hn ▸ Nat.zero_le _
  refine ⟨fun i hi => ?_, fun i => ?_, fun a => ?_, ?_, ?_⟩
  · cases i with
    | nop => exact (nopAndBeginChangeNothing s).1
    | beginCmd => exact (nopAndBeginChangeNothing s).2
    | setgrb i => exact setGrb_noop (.inr (hout i))
    | setgrbp i w => rw [exec_setgrbp, exec_setgrb, setGrb_noop (.inr (hout i))]
    | sethsv i => exact setHsv_noop (.inr (hout i))
    | sethsvp i w => rw [exec_sethsvp, exec_sethsv, setHsv_noop (.inr (hout i))]
    | setpb i v => exact exec_setpb_noop v (.inr (hout i))
    | clrall => exact exec_clrall_noop hn
    | clrone i => exact exec_clrone_noop (hout i)
    | setgb v => rw [setgbSetsGbrightOnly v s, if_pos hz]
    | refresh => exact exec_refresh_noop hn
    | getpb | getcnt | rdbuf | getstat => cases hi
  · obtain ⟨-, -, -, -, -, -, h⟩ := outOfRangeIndexIsANoOp i s (hout i)
    exact h
  · rw [rdbufAnswersOneByte a s, if_neg]
    simp [Config.size, hn]
  · obtain ⟨h, -⟩ := getcntAnswersThePixelCount s
    rw [h, hn]
    rfl
  · obtain ⟨st, h, -, -, hbit, -⟩ := getstatAnswersTheStatusBits s
    exact ⟨st, h, hbit.2 (zeroPixel_eq_true_iff.1 hz)⟩

end Sys2Proof.Proofs
end

section
/-!
SUPPORT. Reset and hazards (spec 70_reset_and_hazards): the bounds of a frame's duration (R421), and what an edge with
`rst` high leaves in the stores (R400).
-/
namespace Sys2Proof.Laws
open Sys2Proof.Machine

/-! ### The duration of a frame (R421) -/

/-- A frame has eight bits a byte and three bytes a pixel (R242, R243). -/
theorem length_frameBits (s : State) (g : Byte) : (s.frameBits g).length = 24 * s.cfg.nEff := by
  have hbyte (v : Byte) : (bitsOfByte v).length = 8 := rfl
  simp only [State.frameBits, State.frameBytes, List.length_flatMap, hbyte, List.map_const', List.sum_replicate,
    List.length_map, List.length_range, smul_eq_mul]
  omega

section bounds
variable (cfg : Config) (bits : List Bool)

/-- The sum of `frameCycles` when a 1-bit and a 0-bit both last `p` cycles. -/
theorem startLat_add_length_mul (p : Nat) : cfg.startLat + bits.length * p =
    cfg.startLat + bits.count true * p + bits.count false * p := by
  rw [← List.count_true_add_count_false bits, Nat.add_mul, Nat.add_assoc]

theorem le_frameCycles {p : Nat} (h1 : p ≤ cfg.counts.t1h + cfg.counts.t1l) (h0 : p ≤ cfg.counts.t0h + cfg.counts.t0l) :
    cfg.startLat + bits.length * p ≤ frameCycles cfg bits := by
  rw [startLat_add_length_mul, frameCycles]
  gcongr

theorem frameCycles_le {p : Nat} (h1 : cfg.counts.t1h + cfg.counts.t1l ≤ p) (h0 : cfg.counts.t0h + cfg.counts.t0l ≤ p) :
    frameCycles cfg bits ≤ cfg.startLat + bits.length * p := by
  rw [startLat_add_length_mul, frameCycles]
  gcongr

end bounds

/-! ### The stores after an edge with `rst` high (R400) -/

theorem resetRegs_byteAt {s : State} (h : s.cfg.memMode = .engine) (x : Store) (a : Nat) :
    (resetRegs s).byteAt x a = Loc.blank (.cell x a) := by
  simp only [State.byteAt, resetRegs_cfg, resetRegs_mem, loc, resetStores, h]
  cases x <;> rfl

theorem readLoc_resetStores_ext (cfg : Config) (m : Mem) (a : Nat) :
    (resetStores cfg m).readLoc (.ext a) = m.readLoc (.ext a) := by
  unfold resetStores
  split <;> rfl

end Sys2Proof.Laws

namespace Sys2Proof.Proofs
open Sys2Proof.Machine Sys2Proof.Laws

/-- Settles O55: each of the `24 * N_eff` bits lasts `P1` or `P0` cycles. -/
theorem frameDurationIsBounded : Obligations.FrameDurationIsBounded := by
  refine ⟨fun s g => ?_, rfl, rfl, rfl, rfl⟩
  rw [← length_frameBits s g]
  exact ⟨le_frameCycles _ _ (min_le_left _ _) (min_le_right _ _),
    frameCycles_le _ _ (le_max_left _ _) (le_max_right _ _)⟩

/-- Settles O10: reset wins the edge, and what it leaves is idle. -/
theorem resetEdgeSetsEveryRegister : Obligations.ResetEdgeSetsEveryRegister := by
  intro s hrst
  have hidle : (resetRegs (sample s)).encState = .idle := resetRegs_encState _
  have hready : (resetRegs (sample s)).cmdReady = false := by simp [State.cmdReady, hrst]
  have hengine (hm : s.cfg.memMode = .engine) (x : Store) (a : Nat) :
      (resetRegs (sample s)).byteAt x a = Loc.blank (.cell x a) :=
    resetRegs_byteAt ((congrArg _ (sample_cfg s)).trans hm) x a
  exact ⟨resetRegs (sample s), step_reset hrst, hidle, rfl, rfl, rfl, rfl, rfl, rfl, rfl, rfl, rfl, rfl, rfl, rfl, rfl,
    fun hm a => ⟨hengine hm .scaled a, hengine hm .orig a, hengine hm .pb a⟩,
    readLoc_resetStores_ext _ _, dout_of_idle hidle, busy_of_idle hidle, busy_of_idle hidle, hready, sample_cfg s⟩

end Sys2Proof.Proofs
end

section
/-!
SUPPORT. Decoding and encoding undo each other (spec 30_encoding R110, R115, R131): the operands inside a D32 field, and
the command that each opcode's zero fields leave.
-/
namespace Sys2Proof.Laws

/-! ### The operands inside D32 (R115) -/

/-- Four bytes taken out of the word they make up. -/
theorem extractLsb'_four_bytes (z g r b : Byte) : (z ++ g ++ r ++ b).extractLsb' 24 8 = z ∧
    (z ++ g ++ r ++ b).extractLsb' 16 8 = g ∧ (z ++ g ++ r ++ b).extractLsb' 8 8 = r ∧
    (z ++ g ++ r ++ b).extractLsb' 0 8 = b := by
  simp (disch := decide) only [BitVec.extractLsb'_append_eq_of_le, BitVec.extractLsb'_append_eq_right, Nat.reduceSub,
    BitVec.extractLsb'_eq_self, and_self]

theorem extractLsb'_hue_sat_val (hue : BitVec 16) (sat val : Byte) : (hue ++ sat ++ val).extractLsb' 16 16 = hue ∧
    (hue ++ sat ++ val).extractLsb' 8 8 = sat ∧ (hue ++ sat ++ val).extractLsb' 0 8 = val := by
  simp (disch := decide) only [BitVec.extractLsb'_append_eq_of_le, BitVec.extractLsb'_append_eq_right, Nat.reduceSub,
    BitVec.extractLsb'_eq_self, and_self]

theorem hue_sat_val_append (d : Word32) : d.extractLsb' 16 16 ++ d.extractLsb' 8 8 ++ d.extractLsb' 0 8 = d := by
  have hupper : d.extractLsb' 16 16 ++ d.extractLsb' 8 8 = d.extractLsb' 8 24 :=
    BitVec.extractLsb'_append_extractLsb'_eq_extractLsb' rfl
  exact (congrArg (· ++ _) hupper).trans BitVec.extractLsb'_append_extractLsb'

/-- A word is made up of its four bytes. -/
theorem four_bytes_append (d : Word32) :
    d.extractLsb' 24 8 ++ d.extractLsb' 16 8 ++ d.extractLsb' 8 8 ++ d.extractLsb' 0 8 = d := by
  have hupper : d.extractLsb' 24 8 ++ d.extractLsb' 16 8 = d.extractLsb' 16 16 :=
    BitVec.extractLsb'_append_extractLsb'_eq_extractLsb' rfl
  exact (congrArg (· ++ _ ++ _) hupper).trans (hue_sat_val_append d)

/-! ### The flag P (R110) -/

theorem ofBool_beq_one : ∀ p : BitVec 1, BitVec.ofBool (p == 1#1) = p := by decide
theorem beq_one_ofBool : ∀ p : Bool, (BitVec.ofBool p == 1#1) = p := by decide

/-! ### The fields of a word that decodes (R130, R131) -/

theorem eq_ofNat_of_toNat {n k : Nat} {x : BitVec n} (h : x.toNat = k) : x = BitVec.ofNat n k := by
  rw [← h, BitVec.ofNat_toNat, BitVec.setWidth_eq]

/-- A word that decodes has zeros where its row asks for them, and its other fields are the command's operands. -/
theorem encode_of_decode_packWord {op : BitVec 4} {p : BitVec 1} {z : BitVec 3} {idx : Idx} {b8 : Byte} {d : Word32}
    {i : Instr} (h : decode (packWord op p z idx b8 d) = .ok i) : encode i = packWord op p z idx b8 d := by
  unfold decode at h
  simp only [fieldOp_packWord, fieldP_packWord, fieldZ_packWord, fieldIdx_packWord, fieldB8_packWord,
    fieldD32_packWord] at h
  split at h
  case h_16 => cases h
  all_goals
    rename_i hop
    obtain ⟨hzeros, rfl⟩ := unlessReserved_eq_ok_iff.mp h
    simp only [Bool.and_eq_true, beq_iff_eq] at hzeros
    rw [eq_ofNat_of_toNat hop]
  case h_3 =>
    obtain ⟨hz, htop⟩ := hzeros
    have hd := four_bytes_append d
    rw [htop, BitVec.ofNat_eq_ofNat] at hd
    simp [encode, hz, hd, ofBool_beq_one]
  case h_5 => simp [encode, hzeros, hue_sat_val_append]
  all_goals simp [encode, hzeros]

end Sys2Proof.Laws

namespace Sys2Proof.Proofs
open Sys2Proof.Laws

/-- Settles O1: each command's word has the opcode of its row, zeros where the row asks for them, and its operands in
their fields. -/
theorem decodeInvertsEncode : Obligations.DecodeInvertsEncode := by
  intro i
  cases i with
  | setgrb ix p pb g r b =>
    obtain ⟨hz, hg, hr, hb⟩ := extractLsb'_four_bytes 0#8 g r b
    simp [decode, encode, unlessReserved, hz, hg, hr, hb, beq_one_ofBool]
  | sethsv ix hue sat val =>
    obtain ⟨hhue, hsat, hval⟩ := extractLsb'_hue_sat_val hue sat val
    simp [decode, encode, unlessReserved, hhue, hsat, hval]
  | _ => simp [decode, encode, unlessReserved]

/-- Settles O2: a word is packed from its own fields. -/
theorem encodeInvertsDecode : Obligations.EncodeInvertsDecode := by
  intro w i h
  rw [← packWord_fields w] at h ⊢
  exact encode_of_decode_packWord h

end Sys2Proof.Proofs
end

section
/-!
SUPPORT. What an accepted command can do besides starting a frame (spec 30_encoding R113, 44_device R335), and what
each case of an edge leaves alone (10_state R30, R39, 20_memory R84, R87, 42_frame_encoder R266).
-/
namespace Sys2Proof.Laws
open Sys2Proof.Machine Sys2Proof.Safety Sys2Proof.Proofs

/-! ### STATUS (R33) -/

/-- STATUS is a function of the configuration and RSVD_SEEN. -/
theorem status_congr {s t : State} (hcfg : t.cfg = s.cfg) (hseen : t.rsvdSeen = s.rsvdSeen) : t.status = s.status := by
  simp only [State.status, hcfg, hseen]

/-! ### What a command does (R113, R335) -/

/-- A byte answer keeps the upper bits of `rsp_data` low (R113). -/
theorem setWidth_byte_lt (v : Byte) : (v.setWidth 32 : Word32).toNat < 256 := by
  have hle := byte_le v
  rw [BitVec.toNat_setWidth]
  omega

/-- The effect of a command that leads from `s` to `t`: it writes store bytes, answers, sets `GBRIGHT` where there are
pixels, or starts a frame. -/
inductive Effect (i : Instr) (s t : State) : Prop
  | wrote (hread : isRead i = false) (h : Wrote s t)
  | answered (hread : isRead i = true) (v : Word32) (ht : t = respond v s)
      (hbyte : (∃ j, i = .getpb j) ∨ (∃ a, i = .rdbuf a) → v.toNat < 256)
  | brightened (hread : isRead i = false) (hpixels : s.cfg.zeroPixel = false) (v : Byte)
      (ht : t = { s with gbright := v })
  | refreshed (hi : i = .refresh) (h : EncoderOnly s t)

theorem execSetpb_wrote {i : Idx} {v : Byte} {s t : State} (h : execSetpb i v s = .next t) : Wrote s t := by
  unfold execSetpb at h
  split at h
  · injection h with h
    exact h ▸ .refl s
  · obtain ⟨u, hu, h⟩ := andThen_eq_next.1 h
    exact (memWrite_wrote hu).trans (recompute_wrote h)

theorem execClrone_wrote {i : Idx} {s t : State} (h : execClrone i s = .next t) : Wrote s t := by
  unfold execClrone at h
  split at h
  · exact clearPixel_wrote h
  · injection h with h
    exact h ▸ .refl s

/-- What a command that answers a next state has done. -/
theorem exec_effect {i : Instr} {s t : State} (h : exec i s = .next t) : Effect i s t := by
  cases i with
  | nop | beginCmd =>
    injection h with h
    exact .wrote rfl (h ▸ .refl s)
  | setgrb i p pb g r b => exact .wrote rfl (setGrb_wrote h)
  | setgrbp i w => exact .wrote rfl (setGrb_wrote (pb := none) h)
  | sethsv i hue sat val => exact .wrote rfl (setHsv_wrote h)
  | sethsvp i w => exact .wrote rfl (setHsv_wrote h)
  | setpb i v => exact .wrote rfl (execSetpb_wrote h)
  | clrall => exact .wrote rfl (clearPixels_wrote h)
  | clrone i => exact .wrote rfl (execClrone_wrote h)
  | setgb v =>
    rw [setgbSetsGbrightOnly] at h
    injection h with h
    subst h
    cases hz : s.cfg.zeroPixel with
    | true => exact .wrote rfl (.refl s)
    | false => exact .brightened rfl hz v rfl
  | getpb i =>
    rw [getpbAnswersTheBrightness] at h
    injection h with h
    refine .answered rfl _ h.symm fun _ => ?_
    split
    · exact setWidth_byte_lt _
    · decide
  | rdbuf a =>
    rw [rdbufAnswersOneByte] at h
    injection h with h
    refine .answered rfl _ h.symm fun _ => ?_
    split
    · exact setWidth_byte_lt _
    · decide
  | getcnt | getstat =>
    injection h with h
    exact .answered rfl _ h.symm (by simp)
  | refresh => exact .refreshed rfl (execRefresh_only h)

theorem exec_cfg {i : Instr} {s t : State} (h : exec i s = .next t) : t.cfg = s.cfg := by
  cases exec_effect h with
  | wrote _ h => exact h.cfg
  | answered _ v ht _ => rw [ht, respond_cfg]
  | brightened _ _ v ht => rw [ht]
  | refreshed _ h => exact h.kept.1

/-- A command that is no read command answers nothing (R113). -/
theorem exec_rsp_of_not_read {i : Instr} {s t : State} (hi : isRead i = false) (h : exec i s = .next t) :
    t.rspValid = s.rspValid ∧ t.rspData = s.rspData := by
  cases exec_effect h with
  | wrote _ h =>
    obtain ⟨es, rfl, -⟩ := h
    exact ⟨rfl, rfl⟩
  | answered hread => exact absurd (hi.symm.trans hread) (by decide)
  | brightened _ _ v ht => exact ht ▸ ⟨rfl, rfl⟩
  | refreshed _ h =>
    obtain ⟨-, -, -, -, hvalid, hdata, -⟩ := h.kept
    exact ⟨hvalid, hdata⟩

/-- A read command answers, GETPB and RDBUF with a byte (R113). -/
theorem exec_rsp_of_read {i : Instr} {s t : State} (hi : isRead i = true) (h : exec i s = .next t) :
    t.rspValid = true ∧ ((∃ j, i = .getpb j) ∨ (∃ a, i = .rdbuf a) → t.rspData.toNat < 256) := by
  cases exec_effect h with
  | answered _ v ht hbyte => exact ht ▸ ⟨rfl, hbyte⟩
  | wrote hread | brightened hread => exact absurd (hi.symm.trans hread) (by decide)
  | refreshed hi' => exact absurd (hi' ▸ hi) (by decide)

/-! ### What the host's part of an edge leaves alone (R39, R84) -/

/-- The host's writes reach no internal store (R84). -/
theorem hostWrites_internal (es : List (Word32 × Byte)) (s : State) :
    (hostWrites es s).mem.scaled = s.mem.scaled ∧ (hostWrites es s).mem.orig = s.mem.orig ∧
      (hostWrites es s).mem.pb = s.mem.pb := by
  induction es generalizing s with
  | nil => exact ⟨rfl, rfl, rfl⟩
  | cons e es ih => exact ih (hostWrite s e)

/-- The host's writes leave marks during a frame only (R88). -/
theorem hostWrites_raced_of_idle (es : List (Word32 × Byte)) {s : State} (h : s.encState = .idle) :
    (hostWrites es s).raced = s.raced := by
  induction es generalizing s with
  | nil => rfl
  | cons e es ih => exact (ih (s := hostWrite s e) h).trans (if_neg (by simp [h]))

/-- A byte that the host did not write reads as before at the edge (R87). -/
theorem sample_unchangedOutside (s : State) :
    UnchangedOutside (s.nextInput.writes.map fun e => .ext e.1.toNat) s (sample s) := by
  intro l hl
  rw [sample_mem]
  exact hostWrites_outside fun e he hle => hl (List.mem_map.2 ⟨e, he, hle.symm⟩)

/-- The port at the edge is the one the host's action drives (R112). -/
theorem sample_port (s : State) : (sample s).cmdValid = (drivePort s.nextInput.cmd s).cmdValid ∧
    (sample s).cmdWord = (drivePort s.nextInput.cmd s).cmdWord := by
  unfold sample
  simp only []
  rw [hostWrites_eq]
  cases s.nextInput.cmd <;> exact ⟨rfl, rfl⟩

end Sys2Proof.Laws

namespace Sys2Proof.Proofs
open Sys2Proof.Machine Sys2Proof.Safety Sys2Proof.Laws

/-- Settles O6: an accepted word runs, and `withFetchWord` is a state whose next edge accepts the word. -/
theorem stepRunsTheDecodedCommand : Obligations.StepRunsTheDecodedCommand := by
  refine ⟨fun s i ha hi => (step_accepted ha).trans (runCommand_ok hi), fun s w i hw hi => ?_⟩
  have hfetch : s.withFetchWord 64 w = presentWord (BitVec.ofNat 64 w) s := by
    rw [State.withFetchWord, Nat.mod_eq_of_lt hw]
  have ha : Accepts (presentWord (BitVec.ofNat 64 w) s) := ⟨rfl, rfl, rfl⟩
  exact (congrArg step hfetch).trans ((step_accepted ha).trans (runCommand_ok hi))

/-- Settles O7: the accepted word is recorded, at a sampled state without an answer. -/
theorem reservedWordOnlyRecordsItself : Obligations.ReservedWordOnlyRecordsItself := fun s _ ha he =>
  ⟨(step_accepted ha).trans (runCommand_error he), sample_rspValid s, sample_rspData s⟩

/-- Settles O8: the edge is the host's part followed by a tick, which touches encoder registers only. -/
theorem frameEdgeHoldsThePortAndTheStores : Obligations.FrameEdgeHoldsThePortAndTheStores := by
  intro s t hx hrst h
  rw [step_frame hrst hx] at h
  obtain ⟨hcfg, hmem, hgbright, hseen, hvalid, hdata, -, hcmdValid, hcmdWord, hinputs⟩ := (tick_only h).kept
  rw [sample_cfg] at hcfg
  rw [sample_rsvdSeen] at hseen
  exact ⟨hcmdValid, hcmdWord, hmem, hgbright.trans (sample_gbright s), hseen, hdata.trans (sample_rspData s), hvalid,
    hinputs, status_congr hcfg hseen⟩

/-- Settles O9: by the case of the edge; only an accepted command can answer. -/
theorem responsesOnlyFromReadCommands : Obligations.ResponsesOnlyFromReadCommands := by
  intro s t hrst h
  have hsample : (sample s).rspValid = false ∧ (sample s).rspData = s.rspData := ⟨sample_rspValid s, sample_rspData s⟩
  have hexec {i : Instr} (ha : Accepts s) (hi : decode (sample s).cmdWord = .ok i) :
      exec i (takeCommand (sample s)) = .next t := runCommand_ok hi ▸ step_accepted ha ▸ h
  refine ⟨fun i ha hi hread => exec_rsp_of_read hread (hexec ha hi), fun hnone => ?_⟩
  cases step_eq_next_iff.1 h with
  | reset hrst' => exact absurd (hrst.symm.trans hrst') (by decide)
  | frame _ _ ht =>
    obtain ⟨-, -, -, -, hvalid, hdata, -⟩ := (tick_only ht).kept
    exact ⟨hvalid.trans hsample.1, hdata.trans hsample.2⟩
  | idle _ _ _ ht => exact ht ▸ hsample
  | reserved _ _ _ ht => exact ht ▸ hsample
  | command ha i hi ht =>
    obtain ⟨hvalid, hdata⟩ := exec_rsp_of_not_read (hnone i ha hi) ht
    exact ⟨hvalid.trans hsample.1, hdata.trans hsample.2⟩

/-- Settles O16: by the case of the edge. -/
theorem configurationNeverChanges : Obligations.ConfigurationNeverChanges := by
  intro s t h
  cases step_eq_next_iff.1 h with
  | reset _ ht => exact ht ▸ sample_cfg s
  | frame _ _ ht => exact (tick_only ht).kept.1.trans (sample_cfg s)
  | idle _ _ _ ht => exact ht ▸ sample_cfg s
  | reserved _ _ _ ht => exact ht ▸ sample_cfg s
  | command _ i _ ht => exact (exec_cfg ht).trans (sample_cfg s)

/-- Settles O37: what a command writes are store bytes, and answering, SETGB and REFRESH write none. -/
theorem commandsWriteOnlyStoreBytes : Obligations.CommandsWriteOnlyStoreBytes := by
  intro i s t l h hl
  cases exec_effect h with
  | wrote _ h => exact h.outside hl
  | answered _ v ht _ => rw [ht, respond_mem]
  | brightened _ _ v ht => rw [ht]
  | refreshed _ h =>
    obtain ⟨-, hmem, -⟩ := h.kept
    rw [hmem]

/-- Settles O51: the host's last write to a byte stands, and the byte of a CALLER-mode store is an external one. -/
theorem hostWriteIsSeenAtTheNextEdge : Obligations.HostWriteIsSeenAtTheNextEdge := by
  intro s hm
  refine ⟨fun x a es fs e hmode hwrites hlast haddr => ?_, sample_unchangedOutside s, sample_gbright s,
    sample_rsvdSeen s⟩
  have hloc : loc (sample s).cfg x a = .ext e.1.toNat := by simp only [loc, sample_cfg, hmode, haddr]
  rw [State.byteAt, hloc, sample_mem, hwrites]
  exact hostWrites_last hm hlast

/-- Settles O56: the host's writes reach the external bytes and the marks, its action the port. -/
theorem samplingTakesTheHostsActionsOnly : Obligations.SamplingTakesTheHostsActionsOnly := by
  intro s
  obtain ⟨hscaled, horig, hpb⟩ := hostWrites_internal s.nextInput.writes s
  obtain ⟨hvalid, hword⟩ := sample_port s
  rw [hvalid, hword, sample_raced, sample_mem]
  refine ⟨?_, hscaled, horig, hpb, status_congr (sample_cfg s) (sample_rsvdSeen s), ?_, ?_, ?_⟩
  · rw [← hvalid, ← hword, ← sample_raced, ← sample_mem]
    exact sample_eq s
  · intro hnone
    rw [hnone, hostWrites_nil]
  · rintro (hnone | hidle)
    · rw [hnone, hostWrites_nil]
    · exact hostWrites_raced_of_idle _ hidle
  · cases s.nextInput.cmd <;> exact ⟨rfl, rfl⟩

/-- Settles O57: the edge answers the sampled state. -/
theorem idleEdgeChangesNothing : Obligations.IdleEdgeChangesNothing := fun s hidle hrst hcmd =>
  ⟨step_eq_next_iff.2 (.idle hrst hidle hcmd rfl), (sample_encState s).trans hidle, sample_gbright s,
    sample_rsvdSeen s, sample_rspValid s, sample_rspData s, sample_cfg s, sample_unchangedOutside s⟩

/-- Settles O59: the host's writes leave every other external byte of the empty memory alone. -/
theorem unwrittenExternalByteReadsZero : Obligations.UnwrittenExternalByteReadsZero := by
  intro cfg ext t a h hext
  unfold elaborate at h
  split at h
  · injection h with h
    subst h
    exact hostWrites_outside fun e he hl => hext e he (Loc.ext.inj hl).symm
  · cases h

end Sys2Proof.Proofs
end

section
/-!
SUPPORT. The fused HSV pipeline at a pixel boundary (spec 42_frame_encoder R241, R250 to R252) and the bytes the host
raced (20_memory R88).
-/
namespace Sys2Proof.Laws
open Sys2Proof.Machine Sys2Proof.Safety

/-! ### The colour of a raw slot (R241, R251, R252) -/

/-- The fields of a raw slot's packed word are the hue's two bytes, the saturation and the value (R82, R192). -/
theorem slotColour_rawWord (cfg : Config) (b0 b1 b2 b3 g : Byte) :
    slotColour cfg (rawWord b0 b1 b2 b3) g = grb (hsvColour cfg (b1 ++ b0) b2 b3 g) := by
  obtain ⟨hhue, hsat, hval⟩ := extractLsb'_hue_sat_val (b1 ++ b0) b2 b3
  rw [slotColour, rawWord, packedHue, packedSat, packedVal, hhue, hsat, hval]

/-- A value byte of 0 is black, scaled or not (R153, R252). -/
theorem hsvColour_val_zero (cfg : Config) (hue : BitVec 16) (sat g : Byte) :
    grb (hsvColour cfg hue sat 0 g) = 0 := by
  have hblack : grb ⟨0, 0, 0⟩ = 0 := by decide
  simp only [hsvColour, hsvToRgb_val_zero, composeG_zero_left, ite_self, hblack]

/-! ### Loading the first byte of a pixel in HSV mode (R250, R251, R262) -/

/-- The state from which pixel `k` is started: at its first byte, its colour in CUR. -/
def atPixel (k : Nat) (s : State) : State :=
  { s with byteIx := BitVec.ofNat 18 (3 * k), bitIx := 7, cur := if k = 0 then s.cur else s.nxt }

@[simp] theorem atPixel_cfg (k : Nat) (s : State) : (atPixel k s).cfg = s.cfg := rfl

theorem advanceColour_pixel (k : Nat) (s : State) :
    advanceColour (3 * k) { s with byteIx := BitVec.ofNat 18 (3 * k), bitIx := 7 } = atPixel k s := by
  have hdiv : 3 * k / 3 = k := by omega
  have hmod : 3 * k % 3 = 0 := by omega
  rw [advanceColour_eq, hdiv, hmod, atPixel]
  by_cases hk : k = 0
  · simp [hk]
  · simp [hk, Nat.one_le_iff_ne_zero]

/-- Starting a pixel latches the one after it, if there is one, and sends the green byte of CUR. -/
theorem load_pixel {k : Nat} {s : State} (hc : s.cfg.colorMode = .hsv) : load (3 * k) s =
    andThen (if k + 1 < s.cfg.nEff then latchNext (k + 1) (atPixel k s) else .next (atPixel k s))
      fun u => .next (startByte (u.cur.extractLsb' 16 8) u) := by
  have hdiv : 3 * k / 3 = k := by omega
  have hmod : 3 * k % 3 = 0 := by omega
  simp only [load, hc, loadHsv, advanceColour_pixel, latchIfNeeded, hdiv, hmod, true_and, atPixel_cfg, colourByte,
    Nat.mul_zero, Nat.sub_zero]

/-- For a pixel that is not the last, with the slot `w` read for the next. -/
theorem load_pixel_latching {k : Nat} {s : State} (hc : s.cfg.colorMode = .hsv) (hk : k + 1 < s.cfg.nEff) {w : Word32}
    (hw : readRaw (k + 1) (atPixel k s) = .next w) : ∃ t, load (3 * k) s = .next t ∧
      t.cur = (if k = 0 then s.cur else s.nxt) ∧ t.shreg = t.cur.extractLsb' 16 8 ∧ t.mem = s.mem ∧ t.nxtRaw = w ∧
      t.nxt = (if s.slotRaced (k + 1) then Config.freeColour s.draws else slotColour s.cfg w s.gsnap) ∧
      t.draws = (if s.slotRaced (k + 1) then s.draws + 1 else s.draws) := by
  rw [load_pixel hc, if_pos hk, latchNext, hw]
  exact ⟨_, rfl, rfl, rfl, rfl, rfl, rfl, rfl⟩

theorem slot_lt {k : Nat} {cfg : Config} (hc : cfg.colorMode = .hsv) (hk : k < cfg.nEff) :
    4 * k + 3 < cfg.size .scaled := by
  rw [size_scaled_hsv hc]
  omega

/-! ### Raced bytes (R88) -/

/-- A raced byte makes its slot raced. -/
theorem slotRaced_of_isRaced {s : State} {k q : Nat} (hq : q < 4) (h : s.isRaced (4 * k + q) = true) :
    s.slotRaced k = true := by
  simp only [State.slotRaced, Bool.or_eq_true]
  obtain rfl | rfl | rfl | rfl : q = 0 ∨ q = 1 ∨ q = 2 ∨ q = 3 := by omega
  · exact .inl (.inl (.inl h))
  · exact .inl (.inl (.inr h))
  · exact .inl (.inr h)
  · exact .inr h

/-- A host write during a frame marks its address. -/
theorem mem_raced_hostWrite {s : State} (h : s.encState = .xmit) (e : Word32 × Byte) :
    e.1.toNat ∈ (hostWrite s e).raced := by
  by_cases hmem : e.1.toNat ∈ s.raced <;> simp [hostWrite, h, hmem]

end Sys2Proof.Laws

namespace Sys2Proof.Proofs
open Sys2Proof.Machine Sys2Proof.Safety Sys2Proof.Laws

/-- Settles O43: at acceptance no byte is raced, so pixel 0's slot is read as it is. -/
theorem refreshStartsAFrame : Obligations.RefreshStartsAFrame := by
  refine fun s => ⟨exec_refresh_noop, fun hn => ⟨_, ?_, rfl, fun hrst => by simp [State.busy, hrst]⟩⟩
  have hn' : s.cfg.nEff ≠ 0 := by omega
  cases hc : s.cfg.colorMode with
  | grb => simp only [exec, execRefresh, if_neg hn', hc, startFrame]
  | hsv =>
    have hraw := readRaw_exact (k := 0) (s := startFrame s) (slot_lt hc hn) (slotRaced_nil rfl 0)
    simp only [exec, execRefresh, if_neg hn', hc, hraw, andThen_next, State.rawSlot, slotColour_rawWord]
    rfl

/-- Settles O49: with no byte of the next slot raced it is read as the store holds it; the last pixel latches
nothing. -/
theorem nextColourIsLatchedAtThePixelBoundary : Obligations.NextColourIsLatchedAtThePixelBoundary := by
  refine ⟨fun k s hc hk hr => ?_, fun k s hc hk => ?_⟩
  · obtain ⟨t, ht, hcur, hshreg, -, hraw, hnxt, -⟩ :=
      load_pixel_latching hc hk (readRaw_exact (s := atPixel k s) (slot_lt hc hk) hr)
    rw [hr] at hnxt
    have hcolour := hnxt.trans (slotColour_rawWord _ _ _ _ _ _)
    refine ⟨t, ht, hcur, hshreg, hraw, hcolour, fun hzero => ?_⟩
    have hval : (atPixel k s).byteAt .scaled (4 * (k + 1) + 3) = 0 := hzero
    rw [hcolour, hval, hsvColour_val_zero]
  · rw [load_pixel hc, if_neg (by omega)]
    exact ⟨_, rfl, rfl, rfl, rfl⟩

/-- Settles O50: the read of a raced byte, the latch of a raced slot, and the marks of a host write. -/
theorem racedByteIsAFreeDraw : Obligations.RacedByteIsAFreeDraw := by
  refine ⟨fun j s hc hj => ?_, fun k s hc hk hr => ?_, fun s k q => slotRaced_of_isRaced, ?_⟩
  · have hread := memRead_inBounds (s := { s with byteIx := BitVec.ofNat 18 j, bitIx := 7 }) hj
    simp only [load, hc, loadGrb, encRead, hread, andThen_next]
    exact ⟨_, rfl, rfl, rfl, rfl⟩
  · obtain ⟨w, hw⟩ := readRaw_next (k + 1) (s := atPixel k s) (slot_lt hc hk)
    obtain ⟨t, ht, hcur, hshreg, hmem, -, hnxt, hdraws⟩ := load_pixel_latching hc hk hw
    rw [hr] at hnxt hdraws
    exact ⟨t, ht, hnxt, hdraws, hcur, hshreg, hmem⟩
  · intro s a v j hmode hx ha
    have hmem := mem_raced_hostWrite hx (a, v)
    have hcfg : (hostWrite s (a, v)).cfg = s.cfg := rfl
    simp only [State.isRaced, hcfg, hmode, ← ha]
    simpa using hmem

end Sys2Proof.Proofs
end

section
/-!
SUPPORT. The invariant of every reachable state (spec 10_state R36, 20_memory R84, 41_pixel_store R180): its memory part
under one byte write, its frame part under one edge of a frame, and the progress of every edge.
-/
namespace Sys2Proof.Laws
open Sys2Proof.Machine Sys2Proof.Safety Sys2Proof.Proofs

/-! ### The stores (R84) -/

/-- What `Inv` says of the memory. -/
structure StoresGood (cfg : Config) (m : Mem) : Prop where
  memWf : m.wf = true
  inBounds : cfg.memMode = .engine →
    storeInBounds (cfg.size .scaled) m.scaled ∧ storeInBounds (cfg.size .orig) m.orig ∧
      storeInBounds (cfg.size .pb) m.pb
  noInternal : cfg.memMode = .caller → m.scaled = [] ∧ m.orig = [] ∧ m.pb = []
  extBounds : storeInBounds (2 ^ 32) m.ext

/-- The locations a block of this configuration and its host can write. -/
def Reaches (cfg : Config) : Loc → Prop
  | .cell x a => cfg.memMode = .engine ∧ a < cfg.size x
  | .ext a => a < 2 ^ 32

/-- A byte of a placed store is in reach. -/
theorem reaches_loc {cfg : Config} (hp : cfg.storesPlaced = true) {x : Store} {a : Nat} (ha : a < cfg.size x) :
    Reaches cfg (loc cfg x a) := by
  cases hm : cfg.memMode with
  | engine =>
    simp only [loc, hm]
    exact ⟨hm, ha⟩
  | caller =>
    have hend := store_end_le hp hm x
    simp only [loc, hm, Reaches]
    omega

theorem storeInBounds_nil (n : Nat) : storeInBounds n [] := fun _ hc => absurd hc List.not_mem_nil

theorem storeInBounds_write {n a : Nat} {b v : Byte} {m : Memory} (hm : storeInBounds n m) (ha : a < n) :
    storeInBounds n (Memory.write b a v m) := by
  intro c hc
  rcases memory_mem_write hc with ⟨rfl, -⟩ | hc
  · exact ha
  · exact hm c hc

theorem StoresGood.writeLoc {cfg : Config} {m : Mem} (h : StoresGood cfg m) {l : Loc} (hl : Reaches cfg l) (v : Byte) :
    StoresGood cfg (m.writeLoc l v) := by
  have hwf := mem_wf_writeLoc h.memWf l v
  rcases l with ⟨x, a⟩ | a
  · obtain ⟨hengine, ha⟩ := hl
    obtain ⟨hscaled, horig, hpb⟩ := h.inBounds hengine
    have hcaller {p : Prop} (hc : cfg.memMode = .caller) : p := by simp [hengine] at hc
    cases x with
    | scaled => exact ⟨hwf, fun _ => ⟨storeInBounds_write hscaled ha, horig, hpb⟩, hcaller, h.extBounds⟩
    | orig => exact ⟨hwf, fun _ => ⟨hscaled, storeInBounds_write horig ha, hpb⟩, hcaller, h.extBounds⟩
    | pb => exact ⟨hwf, fun _ => ⟨hscaled, horig, storeInBounds_write hpb ha⟩, hcaller, h.extBounds⟩
  · exact ⟨hwf, h.inBounds, h.noInternal, storeInBounds_write h.extBounds hl⟩

theorem StoresGood.wrote {s t : State} (h : StoresGood s.cfg s.mem) (hp : s.cfg.storesPlaced = true)
    (hw : Wrote s t) : StoresGood s.cfg t.mem := by
  obtain ⟨es, rfl, hes⟩ := hw
  show StoresGood s.cfg (applyWrites es s.mem)
  generalize s.mem = m at h
  induction es generalizing m with
  | nil => exact h
  | cons e es ih =>
    obtain ⟨x, a, ha, he⟩ := hes e List.mem_cons_self
    exact ih (fun f hf => hes f (List.mem_cons_of_mem _ hf)) _ (h.writeLoc (he ▸ reaches_loc hp ha) e.2)

theorem StoresGood.hostWrites {s : State} (h : StoresGood s.cfg s.mem) (es : List (Word32 × Byte)) :
    StoresGood s.cfg (hostWrites es s).mem := by
  induction es generalizing s with
  | nil => exact h
  | cons e es ih => exact ih (s := hostWrite s e) (h.writeLoc (l := .ext e.1.toNat) e.1.isLt e.2)

theorem StoresGood.reset {cfg : Config} {m : Mem} (h : StoresGood cfg m) : StoresGood cfg (resetStores cfg m) := by
  have hwf := mem_wf_resetStores h.memWf cfg
  cases hm : cfg.memMode with
  | engine =>
    simp only [resetStores, hm] at hwf ⊢
    exact ⟨hwf, fun _ => ⟨storeInBounds_nil _, storeInBounds_nil _, storeInBounds_nil _⟩, fun _ => ⟨rfl, rfl, rfl⟩,
      h.extBounds⟩
  | caller =>
    simp only [resetStores, hm]
    exact h

/-! ### The invariant by its parts -/

/-- What `Inv` says of a frame in flight (R36, R263). -/
structure InFrame (s : State) : Prop where
  pixels : 0 < s.cfg.nEff
  byteIx : s.byteIx.toNat < 3 * s.cfg.nEff
  cnt : 1 ≤ s.cnt.toNat
  start : s.phase = .start → s.byteIx = 0 ∧ s.bitIx = 7

theorem inv_iff {s : State} : Inv s ↔ s.cfg.legal = true ∧ StoresGood s.cfg s.mem ∧
    (s.encState = .xmit → InFrame s) ∧ (s.cfg.zeroPixel = true → s.gbright = 255) := by
  constructor
  · rintro ⟨hlegal, hwf, hin, hno, hext, hframe, hzero⟩
    refine ⟨hlegal, ⟨hwf, hin, hno, hext⟩, fun hx => ?_, hzero⟩
    obtain ⟨hpix, hbyte, hcnt, hstart⟩ := hframe hx
    exact ⟨hpix, hbyte, hcnt, hstart⟩
  · rintro ⟨hlegal, ⟨hwf, hin, hno, hext⟩, hframe, hzero⟩
    refine ⟨hlegal, hwf, hin, hno, hext, fun hx => ?_, hzero⟩
    obtain ⟨hpix, hbyte, hcnt, hstart⟩ := hframe hx
    exact ⟨hpix, hbyte, hcnt, hstart⟩

/-- The invariant reads the configuration, the memory, GBRIGHT and the position in the frame only. -/
theorem inv_congr {s t : State} (h : Inv s) (hcfg : t.cfg = s.cfg) (hmem : StoresGood s.cfg t.mem)
    (hgbright : t.gbright = s.gbright) (hframe : t.encState = .xmit → InFrame t) : Inv t := by
  obtain ⟨hlegal, -, -, hzero⟩ := inv_iff.1 h
  exact inv_iff.2 ⟨hcfg ▸ hlegal, hcfg ▸ hmem, hframe, fun hz => hgbright.trans (hzero (hcfg ▸ hz))⟩

theorem inv_placed {s : State} (h : Inv s) : s.cfg.storesPlaced = true := by
  obtain ⟨-, -, -, hplaced, -⟩ := legal_iff.1 h.legal
  exact hplaced

theorem inFrame_congr {s t : State} (h : InFrame s) (hcfg : t.cfg = s.cfg) (hbyte : t.byteIx = s.byteIx)
    (hbit : t.bitIx = s.bitIx) (hphase : t.phase = s.phase) (hcnt : 1 ≤ t.cnt.toNat) : InFrame t :=
  ⟨hcfg ▸ h.pixels, by rw [hcfg, hbyte]; exact h.byteIx, hcnt, by rw [hphase, hbyte, hbit]; exact h.start⟩

theorem inFrame_sample {s : State} (h : InFrame s) : InFrame (sample s) :=
  inFrame_congr h (sample_cfg s) (sample_byteIx s) (sample_bitIx s) (sample_phase s) (by rw [sample_cnt]; exact h.cnt)

theorem inv_sample {s : State} (h : Inv s) : Inv (sample s) := by
  obtain ⟨-, hmem, hframe, -⟩ := inv_iff.1 h
  refine inv_congr h (sample_cfg s) ?_ (sample_gbright s) fun hx => inFrame_sample (hframe (sample_encState s ▸ hx))
  rw [sample_mem]
  exact hmem.hostWrites _

theorem inv_takeCommand {s : State} (h : Inv s) : Inv (takeCommand s) := by
  obtain ⟨-, hmem, hframe, -⟩ := inv_iff.1 h
  exact inv_congr h rfl hmem rfl fun hx => inFrame_congr (hframe hx) rfl rfl rfl rfl (hframe hx).cnt

theorem inv_resetRegs {s : State} (h : Inv s) : Inv (resetRegs s) := by
  obtain ⟨hlegal, hmem, -, -⟩ := inv_iff.1 h
  exact inv_iff.2 ⟨hlegal, hmem.reset, fun hx => absurd hx (by simp), fun _ => rfl⟩

/-! ### The frame's position under one edge (R262, R263) -/

/-- The frame of a legal configuration has fewer bytes than BYTE_IX has values (R36). -/
theorem frame_bytes_lt {cfg : Config} (h : cfg.legal = true) : 3 * cfg.nEff < 2 ^ 18 := by
  obtain ⟨hranges, -⟩ := legal_iff.1 h
  have hn := (rangesLegal_iff.1 hranges).1
  have hle := nEff_le cfg
  omega

theorem timingLegal_of_legal {cfg : Config} (h : cfg.legal = true) : cfg.timingLegal = true := by
  obtain ⟨-, -, htiming, -⟩ := legal_iff.1 h
  exact htiming

theorem one_le_count {cfg : Config} (h : cfg.legal = true) {c : Nat}
    (hc : c ∈ [cfg.counts.t0h, cfg.counts.t0l, cfg.counts.t1h, cfg.counts.t1l, cfg.startLat]) :
    1 ≤ (BitVec.ofNat 16 c).toNat := by
  obtain ⟨hpos, heq⟩ := count_bounds (timingLegal_of_legal h) hc
  rwa [heq]

theorem inFrame_load {j : Nat} {s t : State} (hlegal : s.cfg.legal = true) (hj : j < 3 * s.cfg.nEff)
    (h : load j s = .next t) : InFrame t := by
  obtain ⟨t', ht', hl⟩ := load_next hj
  obtain rfl : t' = t := Host.Outcome.next.inj (ht'.symm.trans h)
  have hcfg := hl.only.kept.1
  have hsmall := frame_bytes_lt hlegal
  refine ⟨by rw [hcfg]; omega, ?_, ?_, fun hp => absurd (hl.phase.symm.trans hp) (by decide)⟩
  · rw [hl.byteIx, hcfg, BitVec.toNat_ofNat, Nat.mod_eq_of_lt (by omega)]
    exact hj
  · rw [hl.cnt]
    exact one_le_count hlegal (highCycles_mem _ _)

theorem inFrame_endLow {s t : State} (hlegal : s.cfg.legal = true) (h : InFrame s) (ht : endLow s = .next t)
    (hx : t.encState = .xmit) : InFrame t := by
  by_cases hbit : 0 < s.bitIx.toNat
  · rw [endLow_bit hbit] at ht
    injection ht with ht
    subst ht
    exact ⟨h.pixels, h.byteIx, one_le_count hlegal (highCycles_mem _ _), fun hp => absurd hp (by simp)⟩
  · by_cases hbyte : s.byteIx.toNat + 1 < 3 * s.cfg.nEff
    · rw [endLow_byte hbit hbyte] at ht
      exact inFrame_load hlegal hbyte ht
    · rw [endLow_end hbit hbyte] at ht
      injection ht with ht
      subst ht
      exact absurd hx (by simp)

theorem inFrame_tick {s t : State} (hlegal : s.cfg.legal = true) (h : InFrame s) (ht : tick s = .next t)
    (hx : t.encState = .xmit) : InFrame t := by
  by_cases hc : 1 < s.cnt.toNat
  · rw [tick_counting hc] at ht
    injection ht with ht
    subst ht
    have hcnt : s.cnt.toNat = s.cnt.toNat - 1 + 1 := by omega
    exact inFrame_congr h rfl rfl rfl rfl (by rw [countDown_cnt, toNat_sub_one hcnt]; omega)
  · cases hp : s.phase with
    | start =>
      have hpix := h.pixels
      rw [tick_start hc hp] at ht
      exact inFrame_load hlegal (by omega) ht
    | high =>
      rw [tick_high hc hp] at ht
      injection ht with ht
      subst ht
      exact ⟨h.pixels, h.byteIx, one_le_count hlegal (lowCycles_mem _ _), fun hp => absurd hp (by simp)⟩
    | low =>
      rw [tick_low hc hp] at ht
      exact inFrame_endLow hlegal h ht hx

/-- In a frame every edge answers a next state (R262). -/
theorem tick_next {s : State} (h : InFrame s) (hx : s.encState = .xmit) : ∃ t, tick s = .next t := by
  by_cases hc : 1 < s.cnt.toNat
  · exact ⟨_, tick_counting hc⟩
  · cases hp : s.phase with
    | start =>
      have hpix := h.pixels
      obtain ⟨t, ht, -⟩ := load_next (j := 0) (s := s) (by omega)
      exact ⟨t, (tick_start hc hp).trans ht⟩
    | high => exact ⟨_, tick_high hc hp⟩
    | low =>
      obtain ⟨t, ht, -⟩ := endLow_next hx
      exact ⟨t, (tick_low hc hp).trans ht⟩

/-! ### Commands (R335) -/

/-- Accepting a REFRESH with pixels stands at the first bit of the frame, in the start phase (R241). -/
theorem inFrame_refresh {s t : State} (hlegal : s.cfg.legal = true) (hn : 0 < s.cfg.nEff)
    (h : exec .refresh s = .next t) : InFrame t := by
  obtain ⟨t', ht', heq, -⟩ := (refreshStartsAFrame s).2 hn
  obtain rfl : t' = t := Host.Outcome.next.inj (ht'.symm.trans h)
  rw [heq]
  exact ⟨hn, show 0 < 3 * s.cfg.nEff by omega, one_le_count hlegal (by simp), fun _ => ⟨rfl, rfl⟩⟩

theorem inv_exec {i : Instr} {s t : State} (hinv : Inv s) (hidle : s.encState = .idle) (h : exec i s = .next t) :
    Inv t := by
  obtain ⟨hlegal, hmem, -, hzero⟩ := inv_iff.1 hinv
  have hnone {p : Prop} (hx : s.encState = .xmit) : p := by simp [hidle] at hx
  cases exec_effect h with
  | wrote _ hw =>
    refine inv_congr hinv hw.cfg (hmem.wrote (inv_placed hinv) hw) hw.gbright fun hx => ?_
    obtain ⟨es, rfl, -⟩ := hw
    exact hnone hx
  | answered _ v ht _ => exact inv_iff.2 (ht ▸ ⟨hlegal, hmem, hnone, hzero⟩)
  | brightened _ hpixels v ht =>
    exact inv_iff.2 (ht ▸ ⟨hlegal, hmem, hnone, fun hz => absurd (hpixels.symm.trans hz) (by decide)⟩)
  | refreshed hi honly =>
    subst hi
    obtain ⟨hcfg, hmem', hgbright, -⟩ := honly.kept
    refine inv_congr hinv hcfg (hmem' ▸ hmem) hgbright fun hx => ?_
    rcases Nat.eq_zero_or_pos s.cfg.nEff with hn | hn
    · rw [exec_refresh_noop hn] at h
      injection h with h
      exact hnone (h ▸ hx)
    · exact inFrame_refresh hlegal hn h

/-- A GRB setter answers a next state in every mode and range (R185, R186). -/
theorem setGrb_next {i : Nat} {g r b : Byte} {pb : Option Byte} {s : State} (hp : s.cfg.storesPlaced = true)
    (hm : s.mem.wf = true) : ∃ t, setGrb i g r b pb s = .next t := by
  by_cases hno : s.cfg.colorMode ≠ .grb ∨ s.cfg.nEff ≤ i
  · exact ⟨s, setGrb_noop hno⟩
  · obtain ⟨hc, hi⟩ : s.cfg.colorMode = .grb ∧ i < s.cfg.nEff := by simpa using hno
    cases hb : s.cfg.brightMode with
    | global =>
      obtain ⟨t, ht, -⟩ := setGrb_global_spec g r b pb hc hi hb hm
      exact ⟨t, ht⟩
    | perpix =>
      obtain ⟨t, ht, -⟩ := setGrb_perpix_spec g r b pb ⟨hc, hb, hi, hp⟩ hm
      exact ⟨t, ht⟩

/-- An HSV setter answers a next state in every mode and range (R190, R191). -/
theorem setHsv_next {i : Nat} {hue : BitVec 16} {sat val : Byte} {s : State} (hm : s.mem.wf = true) :
    ∃ t, setHsv i hue sat val s = .next t := by
  by_cases hno : s.cfg.colorMode ≠ .hsv ∨ s.cfg.nEff ≤ i
  · exact ⟨s, setHsv_noop hno⟩
  · obtain ⟨hc, hi⟩ : s.cfg.colorMode = .hsv ∧ i < s.cfg.nEff := by simpa using hno
    obtain ⟨t, ht, -⟩ := setHsv_spec (hue := hue) (sat := sat) (val := val) hc hi hm
    exact ⟨t, ht⟩

/-- From a state that meets the invariant every command answers a next state (R336, R361). -/
theorem exec_next {s : State} (h : Inv s) (i : Instr) : ∃ t, exec i s = .next t := by
  obtain ⟨-, hmodes, -, hp, -⟩ := legal_iff.1 h.legal
  have hm := h.memWf
  cases i with
  | nop | beginCmd | getcnt | getstat => exact ⟨_, rfl⟩
  | setgrb i p pb g r b => exact setGrb_next hp hm
  | setgrbp i w => exact setGrb_next (pb := none) hp hm
  | sethsv i hue sat val => exact setHsv_next hm
  | sethsvp i w => exact setHsv_next hm
  | setpb i v =>
    obtain ⟨hnoop, hwrite⟩ := setpbWritesOneBrightness i v s hmodes hp hm
    by_cases hno : s.cfg.brightMode ≠ .perpix ∨ s.cfg.nEff ≤ i.toNat
    · exact ⟨s, hnoop hno⟩
    · obtain ⟨hb, hi⟩ : s.cfg.brightMode = .perpix ∧ i.toNat < s.cfg.nEff := by simpa using hno
      obtain ⟨t, ht, -⟩ := hwrite hb hi
      exact ⟨t, ht⟩
  | getpb i => exact ⟨_, getpbAnswersTheBrightness i s⟩
  | clrall =>
    obtain ⟨t, ht, -⟩ := clrallZeroesTheColours s hp hm
    exact ⟨t, ht⟩
  | clrone i =>
    obtain ⟨hnoop, hclear⟩ := clroneZeroesOnePixel i s hp hm
    rcases Nat.lt_or_ge i.toNat s.cfg.nEff with hi | hi
    · obtain ⟨t, ht, -⟩ := hclear hi
      exact ⟨t, ht⟩
    · exact ⟨s, hnoop hi⟩
  | setgb v => exact ⟨_, setgbSetsGbrightOnly v s⟩
  | rdbuf a => exact ⟨_, rdbufAnswersOneByte a s⟩
  | refresh =>
    obtain ⟨hnoop, hstart⟩ := refreshStartsAFrame s
    rcases Nat.eq_zero_or_pos s.cfg.nEff with hn | hn
    · exact ⟨s, hnoop hn⟩
    · obtain ⟨t, ht, -⟩ := hstart hn
      exact ⟨t, ht⟩

/-! ### Where the invariant starts (R41, R401) -/

theorem default_legal : Config.default.legal = true :=
  legal_iff.2 ⟨by decide, by decide, by decide, by decide, sectorFnLegal_default rfl⟩

theorem reset_encState_ne_xmit : State.reset.encState ≠ .xmit := by decide

/-- A block without external writes, right after its first reset. -/
theorem inv_reset {cfg : Config} (h : cfg.legal = true) : Inv { State.reset with cfg := cfg } := by
  have hnil := storeInBounds_nil
  exact inv_iff.2 ⟨h, ⟨reset_mem_wf, fun _ => ⟨hnil _, hnil _, hnil _⟩, fun _ => ⟨rfl, rfl, rfl⟩, hnil _⟩,
    fun hx => absurd hx reset_encState_ne_xmit, fun _ => rfl⟩

theorem inv_built {cfg : Config} (h : cfg.legal = true) (ext : List (Word32 × Byte)) : Inv (built cfg ext) := by
  have hreset := inv_reset h
  obtain ⟨-, hmem, -, -⟩ := inv_iff.1 hreset
  have hwritten := hmem.hostWrites ext
  rw [built, hostWrites_eq]
  exact inv_congr hreset rfl hwritten rfl fun hx => absurd hx reset_encState_ne_xmit

end Sys2Proof.Laws

namespace Sys2Proof.Proofs
open Sys2Proof.Machine Sys2Proof.Safety Sys2Proof.Laws

/-- Settles O14: by the case of the edge, each from the sampled state, which meets the invariant. -/
theorem everyStepKeepsTheInvariant : Obligations.EveryStepKeepsTheInvariant := by
  intro s t hinv h
  have hs := inv_sample hinv
  obtain ⟨hlegal, hmem, hframe, -⟩ := inv_iff.1 hs
  cases step_eq_next_iff.1 h with
  | reset _ ht => exact ht ▸ inv_resetRegs hs
  | frame _ henc ht =>
    obtain ⟨hcfg, hmem', hgbright, -⟩ := (tick_only ht).kept
    exact inv_congr hs hcfg (hmem' ▸ hmem) hgbright
      (inFrame_tick hlegal (hframe ((sample_encState s).trans henc)) ht)
  | idle _ _ _ ht => exact ht ▸ hs
  | reserved ha e he ht =>
    exact ht ▸ inv_congr hs rfl hmem rfl fun hx => absurd ((sample_encState s).symm.trans hx) (accepts_not_xmit ha)
  | command ha i _ ht =>
    obtain ⟨hidle, -⟩ := ha
    exact inv_exec (inv_takeCommand hs) ((sample_encState s).trans hidle) ht

/-- Settles O15: a frame's edges and the commands answer next states, and the other edges always do. -/
theorem noStepEverStops : Obligations.NoStepEverStops := by
  intro s hinv
  have hs := inv_sample hinv
  obtain ⟨-, -, hframe, -⟩ := inv_iff.1 hs
  cases hrst : s.nextInput.rst with
  | true => exact ⟨_, step_reset hrst⟩
  | false =>
    cases henc : s.encState with
    | xmit =>
      have hx := (sample_encState s).trans henc
      rw [step_frame hrst henc]
      exact tick_next (hframe hx) hx
    | idle =>
      cases hcmd : (sample s).cmdValid with
      | false => exact ⟨_, step_eq_next_iff.2 (.idle hrst henc hcmd rfl)⟩
      | true =>
        rw [step_accepted ⟨henc, hrst, hcmd⟩]
        cases hd : decode (sample s).cmdWord with
        | ok i =>
          rw [runCommand_ok hd]
          exact exec_next (inv_takeCommand hs) i
        | error e => exact ⟨_, runCommand_error hd⟩

/-- Settles O13: the reset state's configuration is legal, and elaboration checks that its own is. -/
theorem resetStateMeetsTheInvariant : Obligations.ResetStateMeetsTheInvariant := by
  refine ⟨inv_reset default_legal, fun cfg ext t h => ?_⟩
  unfold elaborate at h
  split at h
  · next hlegal =>
    injection h with h
    exact h ▸ inv_built hlegal ext
  · cases h

end Sys2Proof.Proofs
end

section
/-!
SUPPORT. The per-pixel relation of a PERPIX block (spec 10_state R38, 41_pixel_store R183, R211), pixel by pixel: what
keeps it, and that every command does.
-/
namespace Sys2Proof.Laws
open Sys2Proof.Machine Sys2Proof.Safety Sys2Proof.Proofs

/-! ### One pixel's relation (R38) -/

/-- Pixel `i`'s SCALED bytes are its ORIG bytes scaled by its PB byte and one global brightness. -/
def PixelScaled (s : State) (i : Nat) : Prop :=
  ∃ g : Byte, ∀ c < 3, s.byteAt .scaled (3 * i + c) = composePP (s.byteAt .orig (3 * i + c)) (s.byteAt .pb i) g

/-- The relation holds of every pixel of a PERPIX block. -/
def AllScaled (s : State) : Prop := ∀ i, PerpixPixel s.cfg i → PixelScaled s i

theorem grb_of_perpix {cfg : Config} (h : cfg.modesLegal = true) (hb : cfg.brightMode = .perpix) :
    cfg.colorMode = .grb := by
  cases hc : cfg.colorMode with
  | grb => rfl
  | hsv => exact absurd ⟨hc, hb⟩ (modesLegal_iff.mp h)

/-- In a legal block this is the relation of R38. -/
theorem pixelsScaled_iff {s : State} (h : s.cfg.legal = true) : PixelsScaled s ↔ AllScaled s := by
  obtain ⟨-, hmodes, -, hplaced, -⟩ := legal_iff.1 h
  exact ⟨fun hs i hi => hs hi.perpix i hi.inRange,
    fun hs hb i hi => hs i ⟨grb_of_perpix hmodes hb, hb, hi, hplaced⟩⟩

/-- The bytes of one pixel in the three stores. -/
def pixelLocs (s : State) (i : Nat) : List Loc :=
  bytesFrom s .scaled (3 * i) 3 ++ bytesFrom s .orig (3 * i) 3 ++ bytesFrom s .pb i 1

section pixel
variable {s t : State} {i j : Nat}

theorem PixelScaled.congr (h : PixelScaled s i)
    (hscaled : ∀ c < 3, t.byteAt .scaled (3 * i + c) = s.byteAt .scaled (3 * i + c))
    (horig : ∀ c < 3, t.byteAt .orig (3 * i + c) = s.byteAt .orig (3 * i + c))
    (hpb : t.byteAt .pb i = s.byteAt .pb i) : PixelScaled t i := by
  obtain ⟨g, hg⟩ := h
  exact ⟨g, fun c hc => by rw [hscaled c hc, horig c hc, hpb, hg c hc]⟩

/-- A black pixel is scaled by every brightness. -/
theorem pixelScaled_of_black (hscaled : ∀ c < 3, t.byteAt .scaled (3 * i + c) = 0)
    (horig : ∀ c < 3, t.byteAt .orig (3 * i + c) = 0) : PixelScaled t i :=
  ⟨0, fun c hc => by rw [hscaled c hc, horig c hc, composePP_zero_left]⟩

theorem PerpixPixel.scaled_lt {cfg : Config} (h : PerpixPixel cfg i) {c : Nat} (hc : c < 3) :
    3 * i + c < cfg.size .scaled := (Nat.add_lt_add_left hc _).trans_le h.scaled_le

/-- The relation reads bytes of the stores only. -/
theorem AllScaled.congr (h : AllScaled s) (hcfg : t.cfg = s.cfg)
    (hbytes : ∀ x a, a < s.cfg.size x → t.byteAt x a = s.byteAt x a) : AllScaled t := by
  intro i hi
  rw [hcfg] at hi
  exact (h i hi).congr (fun c hc => hbytes _ _ (hi.scaled_lt hc)) (fun c hc => hbytes _ _ (hi.orig_lt hc))
    (hbytes _ _ hi.pb_lt)

theorem AllScaled.congr_mem (h : AllScaled s) (hcfg : t.cfg = s.cfg) (hmem : t.mem = s.mem) : AllScaled t :=
  h.congr hcfg fun x a _ => byteAt_congr hcfg hmem x a

/-- A command known to answer a state with the same memory keeps every pixel scaled. -/
theorem AllScaled.of_next {r : Res State} {u : State} (h : AllScaled s) (hu : r = .next u) (ht : r = .next t)
    (hcfg : u.cfg = s.cfg) (hmem : u.mem = s.mem) : AllScaled t := by
  obtain rfl : u = t := Host.Outcome.next.inj (hu.symm.trans ht)
  exact h.congr_mem hcfg hmem

/-- Which bytes of the stores belong to a run. -/
theorem loc_mem_bytesFrom_iff (hp : s.cfg.storesPlaced = true) {x y : Store} {a k b : Nat}
    (hrun : a + k ≤ s.cfg.size x) (hb : b < s.cfg.size y) :
    loc s.cfg y b ∈ bytesFrom s x a k ↔ y = x ∧ a ≤ b ∧ b < a + k := by
  constructor
  · intro hmem
    obtain rfl : y = x := by
      by_contra hne
      exact loc_not_mem_bytesFrom_store hp hne hrun hb hmem
    obtain ⟨c, hc, he⟩ := mem_bytesFrom.1 hmem
    have := loc_inj.1 he
    exact ⟨rfl, by omega, by omega⟩
  · rintro ⟨rfl, hle, hlt⟩
    exact mem_bytesFrom.2 ⟨b - a, by omega, by rw [Nat.add_sub_cancel' hle]⟩

theorem loc_mem_pixelLocs_iff (h : PerpixPixel s.cfg i) {x : Store} {a : Nat} (ha : a < s.cfg.size x) :
    loc s.cfg x a ∈ pixelLocs s i ↔ x = .scaled ∧ 3 * i ≤ a ∧ a < 3 * i + 3 ∨ x = .orig ∧ 3 * i ≤ a ∧ a < 3 * i + 3 ∨
      x = .pb ∧ i ≤ a ∧ a < i + 1 := by
  have hpb : i + 1 ≤ s.cfg.size .pb := h.pb_lt
  simp only [pixelLocs, List.mem_append, loc_mem_bytesFrom_iff h.placed h.scaled_le ha,
    loc_mem_bytesFrom_iff h.placed h.orig_le ha, loc_mem_bytesFrom_iff h.placed hpb ha, or_assoc]

/-- Where only one pixel's bytes change, every other pixel stays scaled. -/
theorem AllScaled.of_pixel (h : AllScaled s) (hcfg : t.cfg = s.cfg) (hin : i < s.cfg.nEff)
    (hout : UnchangedOutside (pixelLocs s i) s t) (hi : PerpixPixel s.cfg i → PixelScaled t i) : AllScaled t := by
  intro j hj
  rw [hcfg] at hj
  have hpixel : PerpixPixel s.cfg i := { hj with inRange := hin }
  by_cases hij : j = i
  · exact hij ▸ hi hpixel
  · refine (h j hj).congr (fun c hc => ?_) (fun c hc => ?_) ?_ <;> refine byteAt_unchanged hcfg hout ?_
    · rw [loc_mem_pixelLocs_iff hpixel (hj.scaled_lt hc)]
      simp only [reduceCtorEq, false_and, true_and, or_false]
      omega
    · rw [loc_mem_pixelLocs_iff hpixel (hj.orig_lt hc)]
      simp only [reduceCtorEq, false_and, true_and, or_false, false_or]
      omega
    · rw [loc_mem_pixelLocs_iff hpixel hj.pb_lt]
      simp only [reduceCtorEq, false_and, true_and, false_or]
      omega

end pixel

/-! ### The pixel-store commands (R183, R205) -/

section commands
variable {s t : State} {i : Nat} {pb : Option Byte}

theorem pb_subset_pixelLocs : bytesFrom s .pb i pb.toList.length ⊆ pixelLocs s i :=
  List.Subset.trans (bytesFrom_subset le_rfl (Nat.add_le_add_left Option.length_toList_le i))
    (List.subset_append_right _ _)

theorem colours_subset_pixelLocs :
    bytesFrom s .scaled (3 * i) 3 ++ bytesFrom s .orig (3 * i) 3 ⊆ pixelLocs s i := List.subset_append_left _ _

theorem PixelSet.allScaled {g r b : Byte} (h : PixelSet i g r b pb s t) (hs : AllScaled s) (hi : i < s.cfg.nEff) :
    AllScaled t :=
  hs.of_pixel h.wrote.cfg hi
    (unchangedOutside_mono h.outside (List.append_subset.2 ⟨colours_subset_pixelLocs, pb_subset_pixelLocs⟩))
    fun _ => ⟨s.gbright, h.scaled⟩

theorem Brightened.allScaled (h : Brightened i pb s t) (hs : AllScaled s) (hi : i < s.cfg.nEff) : AllScaled t := by
  have hscaled : bytesFrom s .scaled (3 * i) 3 ⊆ pixelLocs s i :=
    List.Subset.trans (List.subset_append_left _ _) colours_subset_pixelLocs
  refine hs.of_pixel h.wrote.cfg hi
    (unchangedOutside_mono h.outside (List.append_subset.2 ⟨hscaled, pb_subset_pixelLocs⟩)) fun hp => ?_
  refine ⟨s.gbright, fun c hc => ?_⟩
  have horig : t.byteAt .orig (3 * i + c) = s.byteAt .orig (3 * i + c) := by
    refine byteAt_unchanged h.wrote.cfg h.outside ?_
    rw [List.mem_append, not_or]
    exact ⟨loc_not_mem_bytesFrom_store hp.placed (by decide) hp.scaled_le (hp.orig_lt hc),
      loc_not_mem_bytesFrom_store hp.placed (by decide) hp.pb_le (hp.orig_lt hc)⟩
  rw [h.scaled c hc, horig, h.pbByte]

/-- A GRB setter sets one pixel of a PERPIX block, or none. -/
theorem setGrb_allScaled {g r b : Byte} (hm : s.mem.wf = true) (hs : AllScaled s) (h : setGrb i g r b pb s = .next t) :
    AllScaled t := by
  intro j hj
  have hcfg := (setGrb_wrote h).cfg
  have hj' : PerpixPixel s.cfg j := hcfg ▸ hj
  rcases Nat.lt_or_ge i s.cfg.nEff with hi | hi
  · obtain ⟨t', ht', hset⟩ := setGrb_perpix_spec g r b pb { hj' with inRange := hi } hm
    obtain rfl : t' = t := Host.Outcome.next.inj (ht'.symm.trans h)
    exact hset.allScaled hs hi j hj
  · rw [setGrb_noop (.inr hi)] at h
    injection h with h
    exact h ▸ hs j hj'

/-- An HSV setter does nothing to a PERPIX block, which is in GRB mode. -/
theorem setHsv_allScaled {hue : BitVec 16} {sat val : Byte} (hs : AllScaled s)
    (h : setHsv i hue sat val s = .next t) : AllScaled t := by
  intro j hj
  have hj' : PerpixPixel s.cfg j := (setHsv_wrote h).cfg ▸ hj
  rw [setHsv_noop (.inl (by rw [hj'.grb]; decide))] at h
  injection h with h
  exact h ▸ hs j hj'

theorem setpb_allScaled {i : Idx} {v : Byte} (hm : s.mem.wf = true) (hs : AllScaled s)
    (h : exec (.setpb i v) s = .next t) : AllScaled t := by
  intro j hj
  have hj' : PerpixPixel s.cfg j := exec_cfg h ▸ hj
  rcases Nat.lt_or_ge i.toNat s.cfg.nEff with hi | hi
  · obtain ⟨t', ht', hbright⟩ := brighten_spec (some v) { hj' with inRange := hi } hm
    rw [exec_setpb v hj'.perpix hi] at h
    obtain rfl : t' = t := Host.Outcome.next.inj (ht'.symm.trans h)
    exact hbright.allScaled hs hi j hj
  · rw [exec_setpb_noop v (.inr hi)] at h
    injection h with h
    exact h ▸ hs j hj'

theorem clrone_allScaled {i : Idx} (hm : s.mem.wf = true) (hs : AllScaled s)
    (h : exec (.clrone i) s = .next t) : AllScaled t := by
  intro j hj
  have hcfg := exec_cfg h
  have hj' : PerpixPixel s.cfg j := hcfg ▸ hj
  have hbpp : s.cfg.bpp = 3 := by simp only [Config.bpp, hj'.grb]
  obtain ⟨hnoop, hclear⟩ := clroneZeroesOnePixel i s hj'.placed hm
  rcases Nat.lt_or_ge i.toNat s.cfg.nEff with hi | hi
  · obtain ⟨t', ht', -, hout, hscaled, horig⟩ := hclear hi
    obtain rfl : t' = t := Host.Outcome.next.inj (ht'.symm.trans h)
    rw [hbpp, if_pos hj'.perpix] at hout
    rw [hbpp] at hscaled
    exact hs.of_pixel hcfg hi (unchangedOutside_mono hout colours_subset_pixelLocs)
      (fun _ => pixelScaled_of_black hscaled (horig hj'.perpix)) j hj
  · rw [hnoop hi] at h
    injection h with h
    exact h ▸ hs j hj'

theorem clrall_allScaled (hm : s.mem.wf = true) (h : exec .clrall s = .next t) : AllScaled t := by
  intro j hj
  have hj' : PerpixPixel s.cfg j := exec_cfg h ▸ hj
  obtain ⟨t', ht', -, -, hscaled, horig⟩ := clrallZeroesTheColours s hj'.placed hm
  obtain rfl : t' = t := Host.Outcome.next.inj (ht'.symm.trans h)
  exact pixelScaled_of_black (fun c hc => hscaled _ (hj'.scaled_lt hc)) fun c hc => horig _ (hj'.orig_lt hc)

end commands

/-- Every command keeps every pixel scaled (R211). -/
theorem exec_allScaled {i : Instr} {s t : State} (hm : s.mem.wf = true) (hs : AllScaled s) (h : exec i s = .next t) :
    AllScaled t := by
  cases i with
  | setgrb i p pb g r b => exact setGrb_allScaled hm hs h
  | setgrbp i w => exact setGrb_allScaled (pb := none) hm hs h
  | sethsv i hue sat val => exact setHsv_allScaled hs h
  | sethsvp i w => exact setHsv_allScaled hs h
  | setpb i v => exact setpb_allScaled hm hs h
  | clrone i => exact clrone_allScaled hm hs h
  | clrall => exact clrall_allScaled hm h
  | refresh =>
    obtain ⟨hcfg, hmem, -⟩ := (execRefresh_only h).kept
    exact hs.congr_mem hcfg hmem
  | setgb v => exact hs.of_next (setgbSetsGbrightOnly v s) h rfl rfl
  | getpb i => exact hs.of_next (getpbAnswersTheBrightness i s) h rfl rfl
  | rdbuf a => exact hs.of_next (rdbufAnswersOneByte a s) h rfl rfl
  | nop | beginCmd | getcnt | getstat => exact hs.of_next rfl h rfl rfl

/-! ### The other edges (R87, R400) -/

/-- Host writes outside the stores leave every store byte alone. -/
theorem sample_byteAt {s : State} (h : s.cfg.memMode = .engine ∨ WritesNoStoreByte s) {x : Store} {a : Nat}
    (ha : a < s.cfg.size x) : (sample s).byteAt x a = s.byteAt x a := by
  rw [State.byteAt, State.byteAt, sample_cfg, sample_mem]
  refine hostWrites_outside fun e he => ?_
  cases hm : s.cfg.memMode with
  | engine => simp only [loc, hm, ne_eq, reduceCtorEq, not_false_eq_true]
  | caller =>
    have hnone := h.resolve_left (by rw [hm]; decide)
    simp only [loc, hm, ne_eq, Loc.ext.injEq]
    exact fun heq => hnone e he x a ha heq.symm

/-- Reset blackens the pixels of an ENGINE-mode block and leaves those of a CALLER-mode block alone. -/
theorem resetRegs_allScaled {s : State} (hs : AllScaled s) : AllScaled (resetRegs s) := by
  cases hm : s.cfg.memMode with
  | engine =>
    exact fun i _ => pixelScaled_of_black (fun c _ => resetRegs_byteAt hm _ _) fun c _ => resetRegs_byteAt hm _ _
  | caller => exact hs.congr_mem rfl (by simp only [resetRegs_mem, resetStores, hm])

end Sys2Proof.Laws

namespace Sys2Proof.Proofs
open Sys2Proof.Machine Sys2Proof.Safety Sys2Proof.Laws

/-- Settles O17: the host leaves the store bytes alone, and so does each case of the edge but a command, which keeps
the relation, and reset. -/
theorem everyStepKeepsPixelsScaled : Obligations.EveryStepKeepsPixelsScaled := by
  intro s t hinv hscaled hhost h
  have hcfg := configurationNeverChanges s t h
  rw [pixelsScaled_iff hinv.legal] at hscaled
  rw [pixelsScaled_iff (hcfg ▸ hinv.legal)]
  have hs : AllScaled (sample s) := hscaled.congr (sample_cfg s) fun x a => sample_byteAt hhost
  cases step_eq_next_iff.1 h with
  | reset _ ht => exact ht ▸ resetRegs_allScaled hs
  | frame _ _ ht =>
    obtain ⟨hcfg', hmem, -⟩ := (tick_only ht).kept
    exact hs.congr_mem hcfg' hmem
  | idle _ _ _ ht => exact ht ▸ hs
  | reserved _ _ _ ht => exact ht ▸ hs.congr_mem rfl rfl
  | command _ i _ ht =>
    have htaken : AllScaled (takeCommand (sample s)) := hs.congr_mem rfl rfl
    exact exec_allScaled (inv_takeCommand (inv_sample hinv)).memWf htaken ht

/-- Settles O18: the colours of a freshly built ENGINE-mode block are black. -/
theorem elaboratedPixelsAreScaled : Obligations.ElaboratedPixelsAreScaled := by
  intro cfg ext hm _ i _
  exact pixelScaled_of_black (fun c _ => built_byteAt hm ext .scaled _) fun c _ => built_byteAt hm ext .orig _

end Sys2Proof.Proofs
end

section
/-!
SUPPORT. A frame under every host that does not reset (spec 42_frame_encoder R262, 70_reset_and_hazards R265, R421): its
bit-frames follow one another without a gap whatever bits are sent, so the frame's length is bounded by their number.
-/
namespace Sys2Proof.Laws
open Sys2Proof.Machine Sys2Proof.Safety

/-! ### Where the encoder stands, whatever it sends -/

/-- The state `t` is at bit `i` of byte `j` of a frame of this configuration. -/
structure Standing (cfg : Config) (j i : Nat) (t : State) : Prop where
  cfg : t.cfg = cfg
  byteIx : t.byteIx.toNat = j
  bitIx : t.bitIx.toNat = i

/-- The state `t` is in the first cycle of that bit's bit-frame. -/
structure BitBegins (cfg : Config) (j i : Nat) (t : State) : Prop where
  place : Standing cfg j i t
  sends : Sends .high (cfg.highCycles t.currentBit) t

section frame
variable {cfg : Config} {s t : State} {j i : Nat}

theorem Standing.samePlace {u : State} (h : Standing cfg j i t) (hcfg : u.cfg = t.cfg) (hp : SamePlace t u) :
    Standing cfg j i u := ⟨hcfg.trans h.cfg, hp.byteIx ▸ h.byteIx, hp.bitIx ▸ h.bitIx⟩

theorem Standing.sample (h : Standing cfg j i t) : Standing cfg j i (sample t) :=
  h.samePlace (sample_cfg t) (sample_samePlace t)

variable (hl : cfg.legal = true)
include hl

/-- The edge that loads a byte starts its first bit-frame, whatever byte it reads (R88, R262). -/
theorem bitBegins_of_load {ph : Phase} {c : Nat} (hcfg : t.cfg = cfg) (hs : Sends ph c t) (hj : j < 3 * cfg.nEff)
    (hstep : step t = load j (sample t)) : ∃ u, step t = .next u ∧ BitBegins cfg j 7 u := by
  have hcfg' := (sample_cfg t).trans hcfg
  have hsmall := frame_bytes_lt hl
  obtain ⟨u, hu, hload⟩ := load_next (s := sample t) (hcfg'.symm ▸ hj)
  have hnext := hstep.trans hu
  have hbit : u.bitIx.toNat = 7 := by rw [hload.bitIx]; rfl
  refine ⟨u, hnext, ⟨hload.only.kept.1.trans hcfg', ?_, hbit⟩, hs.next hnext ?_ hload.phase ?_⟩
  · rw [hload.byteIx, BitVec.toNat_ofNat, Nat.mod_eq_of_lt (by omega)]
  · exact hload.encState.trans ((sample_encState t).trans hs.encState)
  · rw [hload.cnt, State.currentBit, hbit, hcfg']
    exact (count_bounds (timingLegal_of_legal hl) (highCycles_mem _ _)).2

/-- After a bit of a byte but the last comes its next bit. -/
theorem bitBegins_next_bit (h : Standing cfg j (i + 1) t) (hs : Sends .low 1 t) :
    ∃ u, step t = .next u ∧ BitBegins cfg j i u := by
  obtain ⟨hcfg, hbyte, hbit⟩ := h.sample
  have hstep := (step_low_end hs).trans (endLow_bit (by rw [hbit]; omega))
  have hbit' := toNat_sub_one hbit
  refine ⟨_, hstep, ⟨hcfg, hbyte, hbit'⟩, hs.next hstep ((sample_encState t).trans hs.encState) rfl ?_⟩
  simp only [State.currentBit, emitBit_cnt, emitBit_shreg, emitBit_bitIx, hcfg, hbit, hbit', Nat.add_sub_cancel]
  exact (count_bounds (timingLegal_of_legal hl) (highCycles_mem _ _)).2

/-- After the last bit of a byte but the last comes the next byte. -/
theorem bitBegins_next_byte (h : Standing cfg j 0 t) (hs : Sends .low 1 t) (hj : j + 1 < 3 * cfg.nEff) :
    ∃ u, step t = .next u ∧ BitBegins cfg (j + 1) 7 u := by
  obtain ⟨hcfg, hbyte, hbit⟩ := h.sample
  have hstep := (step_low_end hs).trans (endLow_byte (by rw [hbit]; decide) (by rwa [hbyte, hcfg]))
  exact bitBegins_of_load hl h.cfg hs hj (hbyte ▸ hstep)

omit hl in
/-- After the last bit of the last byte the frame is over. -/
theorem idle_after_last_bit (h : Standing cfg j 0 t) (hs : Sends .low 1 t) (hj : j + 1 = 3 * cfg.nEff) :
    ∃ u, step t = .next u ∧ u.encState = .idle := by
  obtain ⟨hcfg, hbyte, hbit⟩ := h.sample
  exact ⟨_, (step_low_end hs).trans (endLow_end (by rw [hbit]; decide) (by rw [hbyte, hcfg]; omega)), rfl⟩

/-! ### The run of a frame (R265) -/

/-- One bit-frame runs to the last cycle of its LOW phase, still at its bit, and the edge after it leads on. -/
theorem drives_some_bitFrame {P : State → Prop} (h : BitBegins cfg j i t)
    (hend : ∀ u, Standing cfg j i u → Sends .low 1 u → ∃ v, step u = .next v ∧ P v) :
    ∃ b v, Drives (bitWave cfg b) t v ∧ P v := by
  obtain ⟨hplace, hsends⟩ := h
  obtain rfl := hplace.cfg
  have htiming := timingLegal_of_legal hl
  obtain ⟨u, hd, hu, hp⟩ := drives_bit htiming hsends
  obtain ⟨v, hv, hP⟩ := hend u (hplace.samePlace (hd.kept hsends.noReset).cfg hp) hu
  exact ⟨t.currentBit, v, bitWaveButLast_append htiming _ ▸ hd.append (hu.drives_single hv), hP⟩

/-- From bit `i` on, as many bit-frames as the byte has bits left. -/
theorem drives_some_bits {P : State → Prop} (h : BitBegins cfg j i t)
    (hend : ∀ u, Standing cfg j 0 u → Sends .low 1 u → ∃ v, step u = .next v ∧ P v) :
    ∃ (bits : List Bool) (v : State), bits.length = i + 1 ∧ Drives (bits.flatMap (bitWave cfg)) t v ∧ P v := by
  induction i generalizing t with
  | zero =>
    obtain ⟨b, v, hd, hP⟩ := drives_some_bitFrame hl h hend
    exact ⟨[b], v, rfl, by simpa using hd, hP⟩
  | succ i ih =>
    obtain ⟨b, u, du, hu⟩ := drives_some_bitFrame hl h fun _ => bitBegins_next_bit hl
    obtain ⟨bits, v, hlen, dv, hP⟩ := ih hu
    exact ⟨b :: bits, v, by rw [List.length_cons, hlen], by rw [List.flatMap_cons]; exact du.append dv, hP⟩

/-- From byte `j` on, eight bit-frames for each byte left; then the encoder is idle. -/
theorem drives_some_bytes {n : Nat} (h : BitBegins cfg j 7 t) (hn : j + (n + 1) = 3 * cfg.nEff) :
    ∃ (bits : List Bool) (v : State), bits.length = 8 * (n + 1) ∧ Drives (bits.flatMap (bitWave cfg)) t v ∧
      v.encState = .idle := by
  induction n generalizing j t with
  | zero => exact drives_some_bits hl h fun _ hu hs => idle_after_last_bit hu hs hn
  | succ n ih =>
    obtain ⟨bits, u, hlen, du, hu⟩ := drives_some_bits hl h fun _ hu hs => bitBegins_next_byte hl hu hs (by omega)
    obtain ⟨rest, v, hlen', dv, hv⟩ := ih hu (by omega)
    refine ⟨bits ++ rest, v, ?_, by rw [List.flatMap_append]; exact du.append dv, hv⟩
    rw [List.length_append, hlen, hlen']
    omega

/-- From the start phase, the waveform of some frame's bits; then the encoder is idle. -/
theorem drives_some_frame (hcfg : s.cfg = cfg) (hs : Sends .start cfg.startLat s) (hn : 0 < cfg.nEff) :
    ∃ (bits : List Bool) (v : State), bits.length = 24 * cfg.nEff ∧ Drives (frameWave cfg bits) s v ∧
      v.encState = .idle := by
  have hlat := Nat.sub_add_cancel (count_bounds (timingLegal_of_legal hl) (c := cfg.startLat) (by simp)).1
  obtain ⟨t, dt, ht, -⟩ := drives_countdown (hlat ▸ hs)
  have hstep : step t = load 0 (sample t) :=
    ht.step_eq_tick.trans (tick_start (by simp [ht.cnt]) ((sample_phase t).trans ht.phase))
  obtain ⟨u, hu, hbit⟩ := bitBegins_of_load hl ((dt.kept hs.noReset).cfg.trans hcfg) ht (by omega) hstep
  obtain ⟨bits, v, hlen, dv, hv⟩ := drives_some_bytes hl (n := 3 * cfg.nEff - 1) hbit (by omega)
  refine ⟨bits, v, by omega, ?_, hv⟩
  have hwave := (dt.append (ht.drives_single hu)).append dv
  rwa [show (Phase.start == Phase.high) = false from rfl, ← List.replicate_succ', hlat] at hwave

end frame

end Sys2Proof.Laws

namespace Sys2Proof.Proofs
open Sys2Proof.Machine Sys2Proof.Safety Sys2Proof.Laws

/-- Settles O58: the frame's waveform is that of `24 * N_eff` bits, whatever they are, and its length lies between those
of their shortest and their longest. -/
theorem frameRunsToItsEnd : Obligations.FrameRunsToItsEnd := by
  intro s t hinv _ hrst hn hpix h p1 p0
  have hstart := execRefresh_frameStarted hpix h
  obtain ⟨hcfg, -, -, -, -, -, hrst', -, -, hinputs⟩ := hstart.only.kept
  have hcount := (count_bounds (timingLegal_of_legal hinv.legal) (c := s.cfg.startLat) (by simp)).2
  have hsends : Sends .start s.cfg.startLat t :=
    ⟨hstart.encState, hrst'.trans hrst, hstart.phase, hstart.cnt ▸ hcount, fun e he => hn e (hinputs ▸ he)⟩
  obtain ⟨bits, u, hlen, hd, hidle⟩ := drives_some_frame hinv.legal hcfg hsends hpix
  have hwave := length_frameWave s.cfg bits
  have hbusy := busy_of_idle hidle
  refine ⟨frameCycles s.cfg bits, ?_, ?_, fun k hk => ?_, u, hwave ▸ hd.after_length, hbusy, dout_of_idle hidle, ?_⟩
  · rw [← hlen]
    exact le_frameCycles _ _ (min_le_left _ _) (min_le_right _ _)
  · rw [← hlen]
    exact frameCycles_le _ _ (le_max_left _ _) (le_max_right _ _)
  · obtain ⟨v, hv, -, hb⟩ := hd.during (List.getElem?_eq_getElem (hwave.symm ▸ hk))
    exact ⟨v, hv, hb, hb⟩
  · simp [State.cmdReady, hbusy, (hd.kept hsends.noReset).rst hsends.rst]

end Sys2Proof.Proofs
end
